-- ==== Sys2Proof/Word.lean ====
section
/-! DEFINITION. The word types of OSDP-CORE (00_scope.md R14, R15, R290): every integer is unsigned. -/

namespace Sys2Proof

/-- One byte of a buffer, a key or a frame. -/
abbrev Byte := BitVec 8

/-- A byte string, first byte first (00_scope.md R15). -/
abbrev Bytes := List Byte

/-- A value of `NOW`, `DEADLINE`, `T0` or `DL`. The register data path is 64 bits; a block whose
`TIME_W` is smaller uses the low `TIME_W` bits (00_scope.md R12). -/
abbrev Tick := BitVec 64

end Sys2Proof
end

