-- ==== Sys2Proof/Machine/Constants.lean ====
section
/-! DEFINITION. The constants of 00_scope.md R10, R11 and the fixed PAY_CAP of R12. -/

namespace Sys2Proof.Machine

def som : Byte := 0x53#8
def minFrame : Nat := 8
def addrMask : Byte := 0x7F#8
def seqMax : Nat := 3
def macLen : Nat := 4
def crcLen : Nat := 2
def keyLen : Nat := 16
def ivLen : Nat := 16
def chalLen : Nat := 8
def blockLen : Nat := 16
def padMark : Byte := 0x80#8

def crcPoly : BitVec 16 := 0x1021#16
def crcInit : BitVec 16 := 0x1D0F#16
def scsMin : Nat := 0x11
def scsMax : Nat := 0x18
/-- Types strictly above it carry a MAC (30_encoding.md R110). -/
def scsMacThreshold : Nat := 0x14
/-- 0xFD, not the source's 0xFE (90_conflicts.md C1). -/
def sbDataMax : Nat := 0xFD
def payCap : Nat := 65535

end Sys2Proof.Machine
end

