-- ==== Sys2Proof/Machine/ByteStrings.lean ====
section
/-! DEFINITION. Byte-string helpers of 00_scope.md R15 and the byte order of 20_memory.md R72. -/

namespace Sys2Proof.Machine

/-- `le16(v)`: low byte first. -/
def le16 (v : BitVec 16) : Bytes := [v.extractLsb' 0 8, v.extractLsb' 8 8]

/-- `from_le16(b0, b1) = b0 + 256*b1`. -/
def fromLe16 (b0 b1 : Byte) : Nat := b0.toNat + 256 * b1.toNat

/-- `0^n`. -/
def zeros (n : Nat) : Bytes := List.replicate n 0#8

/-- `xor(a, b)`, bytewise. -/
def xorBytes (a b : Bytes) : Bytes := List.zipWith (· ^^^ ·) a b

/-- `s[a .. a+n)`. -/
def slice (s : Bytes) (a n : Nat) : Bytes := (s.drop a).take n

/-- `s[i]`; the rules read only inside the string. -/
def byteAt (s : Bytes) (i : Nat) : Byte := s.getD i 0#8

/-- The 16-byte blocks of a string whose length is a multiple of 16 (20_memory.md R74). -/
def blocks (s : Bytes) : List Bytes :=
  (List.range (s.length / blockLen)).map (fun i => slice s (blockLen * i) blockLen)

end Sys2Proof.Machine
end

