-- ==== Sys2Proof/Config.lean ====
section
/-! DEFINITION. The parameters an implementation fixes (00_scope.md R12) and the free value of the model. -/

namespace Sys2Proof

/-- The named parameters of 00_scope.md R12 that a model takes as arguments. They stand in `State.cfg`
(log entry 4), no step changes them, and a statement about every state holds for every choice. -/
structure Config where
  /-- largest frame the encoder builds and TXF holds -/
  frameMax : Nat
  /-- capacity of the accumulator ACC -/
  accCap : Nat
  /-- capacity of the operand buffer OPB -/
  opbCap : Nat
  /-- width in bits of `NOW`, `DEADLINE`, `T0` and `DL` -/
  timeW : Nat
  /-- most bytes one `Tx.receive` answer holds; an obligation of the environment (60_exceptions.md R322) -/
  rxChunkMax : Nat
  deriving DecidableEq, Repr

/-- The defaults of 00_scope.md R12. -/
def Config.standard : Config :=
  { frameMax := 65535, accCap := 65535, opbCap := 65535, timeW := 64, rxChunkMax := 65535 }

/-- The legal ranges of 00_scope.md R12. -/
abbrev Config.Legal (c : Config) : Prop :=
  (8 ≤ c.frameMax ∧ c.frameMax ≤ 65535) ∧ (8 ≤ c.accCap ∧ c.accCap ≤ 4294967295) ∧
  (16 ≤ c.opbCap ∧ c.opbCap ≤ 65535) ∧ (1 ≤ c.timeW ∧ c.timeW ≤ 64) ∧
  (1 ≤ c.rxChunkMax ∧ c.rxChunkMax ≤ 4294967295)

/-- The value of an unspecified buffer byte (93_implementation_defined.md U2, U3): FREE, nothing in Lean
says what it is. The first argument is `State.freeCount`, which every step advances, so two reads in
two steps need not agree; the second is the cell (log entry 5). -/
opaque Config.freeByte : Nat → Nat → Byte

end Sys2Proof
end

