-- ==== Sys2Proof/Syntax.lean ====
section
/-! DEFINITION. The instructions: the 14 operations of the command word (30_encoding.md R120) and the 4 host
transactions (R130), one constructor per row of spec/opcode_table.json. -/

namespace Sys2Proof

/-- KSEL, the key of ENCRYPT and DECRYPT (30_encoding.md R121). -/
inductive KeySel where
  | scbk
  | sEnc
  | sMac1
  | sMac2
  deriving DecidableEq, Repr

/-- MSEL, the message bank of ENCRYPT and DECRYPT (30_encoding.md R122). -/
inductive BankSel where
  | mt
  | mr
  deriving DecidableEq, Repr

/-- One operation or one host transaction. A transaction carries the fields its rule reads
(45_host_access.md R271, R275); the fields that 30_encoding.md R130 calls ignored are not part of it. -/
inductive Instr where
  | crc16
  | encode
  | decode
  | loadScbk
  | loadIv
  | deriveKeys
  | cryptogram
  | genMac
  | verifyMac
  | encrypt (ksel : KeySel) (msel : BankSel)
  | decrypt (ksel : KeySel) (msel : BankSel)
  | send
  | receive
  | mclear
  | regrd (sel : BitVec 8)
  | regwr (sel : BitVec 8) (wdata : BitVec 64)
  | bufrd (sel : BitVec 8) (off : BitVec 32)
  | bufwr (sel : BitVec 8) (off : BitVec 32) (wdata : BitVec 64)
  deriving DecidableEq, Repr

end Sys2Proof
end

