-- ==== Sys2Proof/WellFormed.lean ====
section
/-! DEFINITION. What 30_encoding.md asks of an instruction's fields beyond their widths, which the types hold. -/

namespace Sys2Proof

/-- 30_encoding.md R130: in a BUFRD or BUFWR, SEL bits 3:0 are the buffer id and "bits 7:4 must be 0". No
other field of an operation or a transaction carries a condition. An ill-formed transaction still
decodes and runs: it is refused with HERR (45_host_access.md R274). -/
def Instr.wellFormed : Instr → Bool
  | .bufrd sel _ => sel.extractLsb' 4 4 == 0#4
  | .bufwr sel _ _ => sel.extractLsb' 4 4 == 0#4
  | .crc16 => true
  | .encode => true
  | .decode => true
  | .loadScbk => true
  | .loadIv => true
  | .deriveKeys => true
  | .cryptogram => true
  | .genMac => true
  | .verifyMac => true
  | .encrypt _ _ => true
  | .decrypt _ _ => true
  | .send => true
  | .receive => true
  | .mclear => true
  | .regrd _ => true
  | .regwr _ _ => true

end Sys2Proof
end

