-- ==== Sys2Proof/Decode.lean ====
section
/-! DEFINITION. Decoding of command words (30_encoding.md R119 to R124) and of host transactions (R130), and the
encoder written from the same tables. -/

namespace Sys2Proof

/-- Why a command word selects no operation (30_encoding.md R123). -/
inductive DecodeError where
  /-- bits 15:11 are not all 0 -/
  | reservedBits
  /-- OP is 0x00 or 0x0F to 0xFF -/
  | noSuchOperation
  /-- KSEL or MSEL is non-zero and OP does not use it -/
  | unusedField
  deriving DecidableEq, Repr

/-- What the host's encoding tables describe: a 16-bit command word or a 106-bit transaction. -/
inductive Encoded where
  | command (w : BitVec 16)
  | transaction (w : BitVec 106)
  deriving DecidableEq, Repr

/-! ### Fields of the command word -/

def cmdOp (w : BitVec 16) : BitVec 8 := w.extractLsb' 0 8
def cmdKsel (w : BitVec 16) : BitVec 2 := w.extractLsb' 8 2
def cmdMsel (w : BitVec 16) : BitVec 1 := w.extractLsb' 10 1
def cmdReserved (w : BitVec 16) : BitVec 5 := w.extractLsb' 11 5

/-- 30_encoding.md R121. -/
def kselOfBits (b : BitVec 2) : KeySel :=
  match b.toNat with
  | 0 => .scbk
  | 1 => .sEnc
  | 2 => .sMac1
  | _ => .sMac2

/-- 30_encoding.md R122. -/
def mselOfBits (b : BitVec 1) : BankSel :=
  match b.toNat with
  | 0 => .mt
  | _ => .mr

/-- The operation a row of the table selects. -/
inductive RowOp where
  | plain (i : Instr)
  | encrypt
  | decrypt
  deriving DecidableEq, Repr

/-- One row of the table of 30_encoding.md R120: a word `w` selects the row when `w & mask = bits`. -/
structure OpRow where
  bits : BitVec 16
  mask : BitVec 16
  op : RowOp
  deriving DecidableEq, Repr

/-- The table of 30_encoding.md R120, in its order. -/
def opTable : List OpRow :=
  [ ⟨0x0001#16, 0xFFFF#16, .plain .crc16⟩,
    ⟨0x0002#16, 0xFFFF#16, .plain .encode⟩,
    ⟨0x0003#16, 0xFFFF#16, .plain .decode⟩,
    ⟨0x0004#16, 0xFFFF#16, .plain .loadScbk⟩,
    ⟨0x0005#16, 0xFFFF#16, .plain .loadIv⟩,
    ⟨0x0006#16, 0xFFFF#16, .plain .deriveKeys⟩,
    ⟨0x0007#16, 0xFFFF#16, .plain .cryptogram⟩,
    ⟨0x0008#16, 0xFFFF#16, .plain .genMac⟩,
    ⟨0x0009#16, 0xFFFF#16, .plain .verifyMac⟩,
    ⟨0x000A#16, 0xF8FF#16, .encrypt⟩,
    ⟨0x000B#16, 0xF8FF#16, .decrypt⟩,
    ⟨0x000C#16, 0xFFFF#16, .plain .send⟩,
    ⟨0x000D#16, 0xFFFF#16, .plain .receive⟩,
    ⟨0x000E#16, 0xFFFF#16, .plain .mclear⟩ ]

def OpRow.selects (r : OpRow) (w : BitVec 16) : Bool := w &&& r.mask == r.bits

/-- The operation of a row, with the fields of the word it uses. -/
def RowOp.build (o : RowOp) (w : BitVec 16) : Instr :=
  match o with
  | .plain i => i
  | .encrypt => .encrypt (kselOfBits (cmdKsel w)) (mselOfBits (cmdMsel w))
  | .decrypt => .decrypt (kselOfBits (cmdKsel w)) (mselOfBits (cmdMsel w))

/-- Why a word that selects no row is illegal (30_encoding.md R123). -/
def illegalReason (w : BitVec 16) : DecodeError :=
  if cmdReserved w ≠ 0#5 then .reservedBits
  else if cmdOp w = 0#8 ∨ 0x0F#8 ≤ cmdOp w then .noSuchOperation
  else .unusedField

/-- Total on every command word: the operation it selects, or the reason it is illegal
(30_encoding.md R120, R123). -/
def decodeCommand (w : BitVec 16) : Except DecodeError Instr :=
  match opTable.find? (fun r => r.selects w) with
  | some r => .ok (r.op.build w)
  | none => .error (illegalReason w)

/-! ### Fields of the host transaction, packed `KIND | SEL<<2 | OFF<<10 | WDATA<<42` -/

def txKind (w : BitVec 106) : BitVec 2 := w.extractLsb' 0 2
def txSel (w : BitVec 106) : BitVec 8 := w.extractLsb' 2 8
def txOff (w : BitVec 106) : BitVec 32 := w.extractLsb' 10 32
def txWdata (w : BitVec 106) : BitVec 64 := w.extractLsb' 42 64

/-- Total on every transaction word: each of the four kinds is a transaction (30_encoding.md R130). -/
def decodeTransaction (w : BitVec 106) : Instr :=
  match (txKind w).toNat with
  | 0 => .regrd (txSel w)
  | 1 => .regwr (txSel w) (txWdata w)
  | 2 => .bufrd (txSel w) (txOff w)
  | _ => .bufwr (txSel w) (txOff w) (txWdata w)

/-- The decoder on either kind of word. -/
def decode : Encoded → Except DecodeError Instr
  | .command w => decodeCommand w
  | .transaction w => .ok (decodeTransaction w)

/-- The word of spec/opcode_table.json whose bits are `w`: a row of 16 bits is a command word, any other
is a host transaction in the packing of 30_encoding.md R130 (log entry 16). -/
def encodedOfTable (nbits w : Nat) : Encoded :=
  if nbits = 16 then .command (BitVec.ofNat 16 w) else .transaction (BitVec.ofNat 106 (w % 2 ^ nbits))

/-- The instruction the decoder reads from a row's word, none where it refuses it. -/
def decodeTableWord (nbits w : Nat) : Option Instr :=
  match decode (encodedOfTable nbits w) with
  | .ok i => some i
  | .error _ => none

/-! ### The encoder -/

def kselBits : KeySel → BitVec 16
  | .scbk => 0x0000#16
  | .sEnc => 0x0100#16
  | .sMac1 => 0x0200#16
  | .sMac2 => 0x0300#16

def mselBits : BankSel → BitVec 16
  | .mt => 0x0000#16
  | .mr => 0x0400#16

/-- `KIND | SEL<<2 | OFF<<10 | WDATA<<42` (30_encoding.md R130). -/
def packTransaction (kind : BitVec 2) (sel : BitVec 8) (off : BitVec 32) (wdata : BitVec 64) : BitVec 106 :=
  kind.setWidth 106 ||| (sel.setWidth 106 <<< 2) ||| (off.setWidth 106 <<< 10) ||| (wdata.setWidth 106 <<< 42)

/-- The word of an instruction; the ignored fields of a transaction are 0. -/
def encode : Instr → Encoded
  | .crc16 => .command 0x0001#16
  | .encode => .command 0x0002#16
  | .decode => .command 0x0003#16
  | .loadScbk => .command 0x0004#16
  | .loadIv => .command 0x0005#16
  | .deriveKeys => .command 0x0006#16
  | .cryptogram => .command 0x0007#16
  | .genMac => .command 0x0008#16
  | .verifyMac => .command 0x0009#16
  | .encrypt k m => .command (0x000A#16 ||| kselBits k ||| mselBits m)
  | .decrypt k m => .command (0x000B#16 ||| kselBits k ||| mselBits m)
  | .send => .command 0x000C#16
  | .receive => .command 0x000D#16
  | .mclear => .command 0x000E#16
  | .regrd sel => .transaction (packTransaction 0#2 sel 0#32 0#64)
  | .regwr sel wdata => .transaction (packTransaction 1#2 sel 0#32 wdata)
  | .bufrd sel off => .transaction (packTransaction 2#2 sel off 0#64)
  | .bufwr sel off wdata => .transaction (packTransaction 3#2 sel off wdata)

end Sys2Proof
end

