-- ==== Sys2Proof/Machine/State.lean ====
section
/-! DEFINITION. The architectural state of OSDP-CORE (10_state.md R20), its reset values (R64, 70_reset_and_hazards.md
R340), and the reasons a step could stop. Plain data throughout. -/

namespace Sys2Proof.Machine

open Sys2Proof

/-- The messenger's state (10_state.md R50). The codes 6 and 7 of the field are never produced. -/
inductive MState where
  | idle
  | sending
  | awaitingResponse
  | complete
  | timedOut
  | failed
  deriving DecidableEq, Repr

/-- The STATUS flags and MSTATE (10_state.md R49). -/
structure Status where
  busy : Bool
  done : Bool
  errf : Bool
  herr : Bool
  macOk : Bool
  mrValid : Bool
  txfV : Bool
  scbkV : Bool
  skV : Bool
  ivcV : Bool
  mstate : MState
  deriving DecidableEq, Repr

/-- MAC_OK, MR_VALID and TXF_V as they stood when the running command was accepted: what the STATUS register shows
of them until BUSY falls (20_memory.md R79, 70_reset_and_hazards.md R350; log entry 22). -/
structure HeldFlags where
  macOk : Bool
  mrValid : Bool
  txfV : Bool
  deriving DecidableEq, Repr

/-- The outgoing message bank MT (10_state.md R21). -/
structure MTBank where
  code : BitVec 8
  addr : BitVec 8
  seq : BitVec 8
  secure : BitVec 1
  sbtype : BitVec 8
  sblen : BitVec 9
  plen : BitVec 16
  retries : BitVec 32
  deriving DecidableEq, Repr

/-- The incoming message bank MR (10_state.md R30). -/
structure MRBank where
  code : BitVec 8
  addr : BitVec 8
  seq : BitVec 2
  secure : BitVec 1
  sbtype : BitVec 8
  sblen : BitVec 8
  plen : BitVec 16
  len : BitVec 16
  crcf : BitVec 1
  macv : BitVec 1
  ctrl : BitVec 8
  deriving DecidableEq, Repr

/-- The sixteen byte buffers (10_state.md R41), in the order of their BUF ids. -/
inductive Buf where
  | opb
  | mtPayload
  | mtSbdata
  | mtMac
  | mrPayload
  | mrSbdata
  | mrMac
  | txf
  | rxf
  | acc
  | res
  | scbk
  | sEnc
  | sMac1
  | sMac2
  | ivc
  deriving DecidableEq, Repr

/-- The bytes of all buffers that hold a value: one list of (cell, byte), cells strictly rising. Which
cell a byte has, and what an unlisted cell reads as, is in Machine/Ops.lean. -/
abbrev Memory := List Host.Cell

/-- The transceiver call in flight (10_state.md R61, 60_exceptions.md R320). It also says how far SEND or
RECEIVE has come (log entry 11). -/
inductive TxCall where
  | none
  | transmit (frame : Bytes)
  | receive
  | reset
  deriving DecidableEq, Repr

/-- An answer to `Tx.transmit` (60_exceptions.md R320). -/
inductive TransmitAnswer where
  | ok
  | transmitError
  deriving DecidableEq, Repr

/-- An answer to `Tx.receive`: any byte string, or an error that delivers none (60_exceptions.md R320, R321). -/
inductive ReceiveAnswer where
  | bytes (s : Bytes)
  | receiveError
  deriving DecidableEq, Repr

/-- An answer to `Tx.reset` (60_exceptions.md R320). -/
inductive ResetAnswer where
  | ok
  | resetError
  deriving DecidableEq, Repr

/-- Who moves in a step: the sequencer, the host, or the environment by asserting `rst` (00_scope.md R9,
70_reset_and_hazards.md R340). -/
inductive Agent where
  | sequencer
  | host
  | rst
  deriving DecidableEq, Repr

/-- The inputs of the step (10_state.md R20): what the agents outside the block are yet to say. Each queue
is oldest first; nothing constrains them (93_implementation_defined.md U8; log entries 1, 2, 13). -/
structure Env where
  /-- who moves in the coming steps; past its end the sequencer moves while BUSY = 1, else the host -/
  sched : List Agent
  /-- the host's pending transactions, packed as in 30_encoding.md R130 -/
  hostQ : List (BitVec 106)
  transmitQ : List TransmitAnswer
  receiveQ : List ReceiveAnswer
  resetQ : List ResetAnswer
  /-- the coming samples of `NOW` -/
  nowQ : List Tick
  /-- the value `NOW` stands at -/
  now : Tick
  deriving DecidableEq, Repr

/-- The whole machine (10_state.md R20), its parameters, its inputs and the model's one own field. -/
structure State where
  cfg : Config
  env : Env
  /-- MODEL's own: the draw index of the free values (log entries 5, 6) -/
  freeCount : Nat
  /-- RDATA of the last host transaction (30_encoding.md R130) -/
  rdata : BitVec 64
  status : Status
  err : BitVec 8
  errOp : BitVec 16
  /-- CTRL: bit 0 IE, bit 1 SC_ACTIVE (10_state.md R52) -/
  ctrl : BitVec 2
  deadline : Tick
  crcOut : BitVec 16
  consumed : BitVec 32
  opbLen : BitVec 16
  txfLen : BitVec 16
  accLen : BitVec 32
  rxfLen : BitVec 16
  resLen : BitVec 8
  mt : MTBank
  mr : MRBank
  mem : Memory
  t0 : Tick
  dl : Tick
  curCmd : BitVec 16
  call : TxCall
  /-- three flags at the last acceptance, as the STATUS register shows them while BUSY = 1 (20_memory.md R79) -/
  held : HeldFlags
  deriving DecidableEq, Repr

/-- Why a step could stop with a fault. There is none: every outcome of 60_exceptions.md R300 is recorded
in ERR and the block goes on (R310), and a refused transaction sets HERR (45_host_access.md R270). No
one raises a fault, so the type is empty: safe (log entry 15). -/
inductive Fault where
  deriving DecidableEq, Repr

/-- Why a step could be refused. -/
inductive Refusal where
  /-- Raised by `exec` for an instruction that has no meaning yet; no arm raises it now. Safe. -/
  | notModelled (mnemonic : String)
  deriving DecidableEq, Repr

def Status.atReset : Status :=
  { busy := false, done := false, errf := false, herr := false, macOk := false, mrValid := false,
    txfV := false, scbkV := false, skV := false, ivcV := false, mstate := .idle }

def MTBank.atReset : MTBank :=
  { code := 0, addr := 0, seq := 0, secure := 0, sbtype := 0, sblen := 0, plen := 0, retries := 0 }

def MRBank.atReset : MRBank :=
  { code := 0, addr := 0, seq := 0, secure := 0, sbtype := 0, sblen := 0, plen := 0, len := 0,
    crcf := 0, macv := 0, ctrl := 0 }

/-- No agent outside the block has anything to say. -/
def Env.quiet : Env :=
  { sched := [], hostQ := [], transmitQ := [], receiveQ := [], resetQ := [], nowQ := [], now := 0 }

/-- The state after reset: 10_state.md R64 and 70_reset_and_hazards.md R340, with the default parameters and
a quiet environment. `t0`, `dl`, `curCmd` are unspecified there (log entry 8); `rdata`, `now` and
`freeCount` are log entries 7, 13 and 6; `held` has the reset values of its flags (log entry 22). No buffer byte is listed. -/
def State.reset : State :=
  { cfg := Config.standard, env := Env.quiet, freeCount := 0, rdata := 0,
    status := Status.atReset, err := 0, errOp := 0, ctrl := 0, deadline := 0, crcOut := 0,
    consumed := 0, opbLen := 0, txfLen := 0, accLen := 0, rxfLen := 0, resLen := 0,
    mt := MTBank.atReset, mr := MRBank.atReset, mem := [],
    t0 := 0, dl := 0, curCmd := 0, call := .none,
    held := { macOk := false, mrValid := false, txfV := false } }

end Sys2Proof.Machine
end

