-- ==== Sys2Proof/Machine/Outcome.lean ====
section
/-! DEFINITION. The outcome codes of 60_exceptions.md R300. -/

namespace Sys2Proof.Machine

/-- The outcome of an operation (60_exceptions.md R300), by its name in the table. -/
inductive Code where
  | ok
  | incomplete
  | invalidStartOfMessage
  | addressOutOfRange
  | checksumFailed
  | invalidSequenceNumber
  | invalidSecureBlockType
  | secureBlockTooLarge
  | invalidLength
  | invalidKeyLength
  | invalidIVLength
  | unpaddedCiphertext
  | notSecureMessage
  | invalidChallengeLength
  | macMismatch
  | transmitError
  | receiveError
  | resetError
  | accumulatorOverflow
  | receiveTimeout
  | illegalOperation
  | illegalState
  deriving DecidableEq, Repr

/-- The number of an outcome in ERR (60_exceptions.md R300). -/
def Code.number : Code → BitVec 8
  | .ok => 0x00#8
  | .incomplete => 0x01#8
  | .invalidStartOfMessage => 0x10#8
  | .addressOutOfRange => 0x11#8
  | .checksumFailed => 0x12#8
  | .invalidSequenceNumber => 0x13#8
  | .invalidSecureBlockType => 0x14#8
  | .secureBlockTooLarge => 0x15#8
  | .invalidLength => 0x16#8
  | .invalidKeyLength => 0x20#8
  | .invalidIVLength => 0x21#8
  | .unpaddedCiphertext => 0x22#8
  | .notSecureMessage => 0x23#8
  | .invalidChallengeLength => 0x24#8
  | .macMismatch => 0x25#8
  | .transmitError => 0x30#8
  | .receiveError => 0x31#8
  | .resetError => 0x32#8
  | .accumulatorOverflow => 0x33#8
  | .receiveTimeout => 0x40#8
  | .illegalOperation => 0x50#8
  | .illegalState => 0x51#8

end Sys2Proof.Machine
end

