-- ==== Sys2Proof/Machine/Ops.lean ====
section
/-! DEFINITION. The named operations over memory and registers: buffer cells and their accesses (00_scope.md R16,
20_memory.md), acceptance of a command (30_encoding.md R118), the completion sequence, which is the
block's one "trap entry" (60_exceptions.md R310), the host's acknowledgement of it (R312), the refusal of
a transaction (45_host_access.md R270), the samples of `NOW` and the reset input. -/

namespace Sys2Proof.Machine

open Sys2Proof

/-! ### Cells -/

/-- The BUF id (10_state.md R41). -/
def Buf.id : Buf → Nat
  | .opb => 0
  | .mtPayload => 1
  | .mtSbdata => 2
  | .mtMac => 3
  | .mrPayload => 4
  | .mrSbdata => 5
  | .mrMac => 6
  | .txf => 7
  | .rxf => 8
  | .acc => 9
  | .res => 10
  | .scbk => 11
  | .sEnc => 12
  | .sMac1 => 13
  | .sMac2 => 14
  | .ivc => 15

/-- The buffer of a BUF id (10_state.md R41). -/
def bufOfId (n : BitVec 4) : Buf :=
  match n.toNat with
  | 0 => .opb
  | 1 => .mtPayload
  | 2 => .mtSbdata
  | 3 => .mtMac
  | 4 => .mrPayload
  | 5 => .mrSbdata
  | 6 => .mrMac
  | 7 => .txf
  | 8 => .rxf
  | 9 => .acc
  | 10 => .res
  | 11 => .scbk
  | 12 => .sEnc
  | 13 => .sMac1
  | 14 => .sMac2
  | _ => .ivc

/-- The capacity column of 10_state.md R41. -/
def Buf.cap (c : Config) : Buf → Nat
  | .opb => c.opbCap
  | .mtPayload => payCap
  | .mtSbdata => 256
  | .mtMac => macLen
  | .mrPayload => payCap
  | .mrSbdata => 253
  | .mrMac => macLen
  | .txf => c.frameMax
  | .rxf => payCap
  | .acc => c.accCap
  | .res => 16
  | .scbk => keyLen
  | .sEnc => keyLen
  | .sMac1 => keyLen
  | .sMac2 => keyLen
  | .ivc => ivLen

/-- The buffers a BUFWR may write (10_state.md R41, 45_host_access.md R275). -/
def Buf.hostWritable : Buf → Bool
  | .opb => true
  | .mtPayload => true
  | .mtSbdata => true
  | _ => false

/-- Cells of one buffer: OFF has 32 bits (30_encoding.md R130). -/
def bufSpan : Nat := 4294967296

/-- The cell of byte `off` of a buffer (log entry 10). -/
def cell (b : Buf) (off : Nat) : Nat := b.id * bufSpan + off

/-- What a cell reads as that the memory does not list: MT_MAC and MR_MAC hold zeros after reset
(10_state.md R64), every other byte has no value (R64, 93_implementation_defined.md U2, U3). -/
def unlisted (a : Nat) : Option Byte :=
  if (a / bufSpan = Buf.id .mtMac ∨ a / bufSpan = Buf.id .mrMac) ∧ a % bufSpan < macLen then some 0#8 else none

/-! ### Memory -/

/-- The value a cell holds; none: unspecified. -/
def memGet (m : Memory) (a : Nat) : Option Byte :=
  match m.lookup a with
  | some b => some b
  | none => unlisted a

/-- The cells that make `s` stand from cell `a` on, without those that read so unlisted. -/
def runCells (a : Nat) : Bytes → Memory
  | [] => []
  | b :: bs => if unlisted a = some b then runCells (a + 1) bs else (a, b) :: runCells (a + 1) bs

/-- The bytes of the cells from `lo` up to but not including `hi` become `s`, those past its end
unlisted; for `s` no longer than `hi - lo`. Every change of memory is one of these. -/
def memSplice (m : Memory) (lo hi : Nat) (s : Bytes) : Memory :=
  m.filter (fun c => decide (c.1 < lo)) ++ runCells lo (s.take (hi - lo)) ++ m.filter (fun c => decide (hi ≤ c.1))

/-- The canonical form: cells strictly rising, none listed with the byte it reads as unlisted. -/
abbrev Memory.wf (m : Memory) : Prop :=
  m.Pairwise (fun x y => x.1 < y.1) ∧ ∀ c ∈ m, unlisted c.1 ≠ some c.2

/-- A cell that exists: byte `a % 2^32`, below its capacity, of buffer `a / 2^32` (10_state.md R41). -/
abbrev cellExists (c : Config) (a : Nat) : Prop :=
  a / bufSpan < 16 ∧ a % bufSpan < (bufOfId (BitVec.ofNat 4 (a / bufSpan))).cap c

/-- Only bytes that exist are listed. -/
abbrev Memory.inside (c : Config) (m : Memory) : Prop := ∀ x ∈ m, cellExists c x.1

/-! ### Buffers -/

/-- One byte of a buffer; a FREE value where it has none (log entry 5). A byte that an operation wrote keeps its
value when the host then lowers the length register below it (DESIGN CHOICE, log entry 23). -/
def readByte (s : State) (b : Buf) (off : Nat) : Byte :=
  match memGet s.mem (cell b off) with
  | some v => v
  | none => Config.freeByte s.freeCount (cell b off)

/-- `MemRead(B, off, n)` (00_scope.md R16). -/
def memRead (s : State) (b : Buf) (off n : Nat) : Bytes :=
  (List.range n).map (fun i => readByte s b (off + i))

/-- `MemWrite(B, off, len(v), v)` (00_scope.md R16). -/
def memWrite (s : State) (b : Buf) (off : Nat) (v : Bytes) : State :=
  { s with mem := memSplice s.mem (cell b off) (cell b off + v.length) v }

/-- The bytes of a buffer become `v` and what lies at or beyond its end unspecified
(93_implementation_defined.md U2). The length register is the caller's. -/
def setBuffer (s : State) (b : Buf) (v : Bytes) : State :=
  { s with mem := memSplice s.mem (cell b 0) (cell b 0 + bufSpan) v }

/-- Every byte of a buffer becomes unspecified (93_implementation_defined.md U3; log entry 9). -/
def forget (s : State) (b : Buf) : State := setBuffer s b []

/-! ### Time -/

/-- `v mod 2^TIME_W` (00_scope.md R12, 45_host_access.md R272). -/
def maskTick (c : Config) (v : Tick) : Tick := BitVec.ofNat 64 (v.toNat % 2 ^ c.timeW)

/-- The next sample of `NOW`: the head of the queue, or `NOW` stands where it stood (log entry 13). -/
def nextNow (s : State) : Tick :=
  match s.env.nowQ with
  | [] => maskTick s.cfg s.env.now
  | t :: _ => maskTick s.cfg t

/-- The state after a sample of `NOW` is taken (60_exceptions.md R325). -/
def sampled (s : State) : State :=
  { s with env := { s.env with now := nextNow s, nowQ := s.env.nowQ.tail } }

/-! ### Commands -/

/-- The flags that an operation may write before BUSY falls (44_messenger.md R245, R250). -/
def Status.hold (t : Status) : HeldFlags := { macOk := t.macOk, mrValid := t.mrValid, txfV := t.txfV }

/-- Acceptance of a command word (30_encoding.md R118), and the flags as the STATUS register then shows them
until BUSY falls (20_memory.md R79, log entry 22). -/
def accept (s : State) (w : BitVec 16) : State :=
  { s with curCmd := w, status := { s.status with busy := true, done := false }, held := s.status.hold }

/-- TAKING AN EXCEPTION: the completion sequence `complete(outcome)` (60_exceptions.md R310). It ends every
accepted command; nothing else is saved and control goes nowhere. CUR_CMD keeps the word just executed
(DESIGN CHOICE, log entry 24), and T0 and DL what the last RECEIVE put there (DESIGN CHOICE, log entry 25). -/
def complete (o : Code) (s : State) : State :=
  { s with
    err := o.number
    errOp := s.curCmd
    status := { s.status with errf := o.number != 0#8, done := true, busy := false } }

/-- The end of an operation: its body's state on OK; on `raise` the state `s` in which the body began,
since its checks come before its writes (00_scope.md R16). -/
def finish (s : State) (r : Except Code State) : State :=
  match r with
  | .ok t => complete .ok t
  | .error e => complete e s

/-- THE RETURN: there is no state to restore (60_exceptions.md R312); the host acknowledges by writing 1s
to STATUS, bit 1 clears DONE and bit 3 HERR (45_host_access.md R277). -/
def acknowledge (s : State) (v : BitVec 16) : State :=
  { s with status := { s.status with
      done := s.status.done && !v.getLsbD 1
      herr := s.status.herr && !v.getLsbD 3 } }

/-- A refused transaction (45_host_access.md R270): HERR, and a read returns 0. -/
def refuse (s : State) : State :=
  { s with rdata := 0, status := { s.status with herr := true } }

/-! ### Reset input -/

/-- The answers to come once the call in flight is abandoned: its own is discarded
(70_reset_and_hazards.md R341). -/
def dropAnswer (e : Env) : TxCall → Env
  | .none => e
  | .transmit _ => { e with transmitQ := e.transmitQ.tail }
  | .receive => { e with receiveQ := e.receiveQ.tail }
  | .reset => { e with resetQ := e.resetQ.tail }

/-- `rst` is asserted (70_reset_and_hazards.md R340, R341): the block is as after reset; the parameters, the
inputs still to come and the draw index are not the block's (log entry 17). -/
def assertRst (s : State) : State :=
  { State.reset with cfg := s.cfg, env := dropAnswer s.env s.call, freeCount := s.freeCount }

end Sys2Proof.Machine
end

