-- ==== Sys2Proof/Machine/Flags.lean ====
section
/-! DEFINITION. STATUS and the flags (10_state.md R49, R50, R60): the assembled word, the interrupt request, and every
write of a flag an operation makes. There are no arithmetic flags (R60). -/

namespace Sys2Proof.Machine

/-- The code of MSTATE (10_state.md R50). -/
def MState.code : MState → BitVec 3
  | .idle => 0#3
  | .sending => 1#3
  | .awaitingResponse => 2#3
  | .complete => 3#3
  | .timedOut => 4#3
  | .failed => 5#3

def flagAt (b : Bool) (n : Nat) : BitVec 16 := (BitVec.ofBool b).setWidth 16 <<< n

/-- The word of STATUS (10_state.md R49); bits 7, 11 and 15 read as 0. -/
def Status.word (t : Status) : BitVec 16 :=
  flagAt t.busy 0 ||| flagAt t.done 1 ||| flagAt t.errf 2 ||| flagAt t.herr 3 ||| flagAt t.macOk 4 |||
  flagAt t.mrValid 5 ||| flagAt t.txfV 6 ||| flagAt t.scbkV 8 ||| flagAt t.skV 9 ||| flagAt t.ivcV 10 |||
  (t.mstate.code.setWidth 16 <<< 12)

/-- The STATUS register (10_state.md R49), which a REGRD returns (45_host_access.md R271). The flags MAC_OK, MR_VALID
and TXF_V that the running operation has written enter it when BUSY falls: the results are all visible then and
none before (70_reset_and_hazards.md R350), and while BUSY = 1 it shows of the operation BUSY and MSTATE only
(20_memory.md R79). By R271 alone the read would show them at once (DEDUCED, log entry 22). -/
def statusRegister (s : State) : Status :=
  if s.status.busy then { s.status with macOk := s.held.macOk, mrValid := s.held.mrValid, txfV := s.held.txfV }
  else s.status

/-- CTRL.IE (10_state.md R52). -/
def ctrlIe (s : State) : Bool := s.ctrl.getLsbD 0

/-- CTRL.SC_ACTIVE (10_state.md R52). -/
def ctrlScActive (s : State) : Bool := s.ctrl.getLsbD 1

/-- The interrupt request, a level (60_exceptions.md R315). -/
def irq (s : State) : Bool := s.status.done && ctrlIe s

def setMacOk (s : State) (b : Bool) : State := { s with status := { s.status with macOk := b } }

/-- MR_VALID, and MAC_OK cleared with it: every operation that writes MR_VALID clears MAC_OK
(10_state.md R49). -/
def setMrValid (s : State) (b : Bool) : State :=
  { s with status := { s.status with mrValid := b, macOk := false } }

def setTxfV (s : State) : State := { s with status := { s.status with txfV := true } }

/-- The three validity flags of the key store (10_state.md R38). -/
def setKeyFlags (s : State) (scbkV skV ivcV : Bool) : State :=
  { s with status := { s.status with scbkV := scbkV, skV := skV, ivcV := ivcV } }

def setMState (s : State) (m : MState) : State := { s with status := { s.status with mstate := m } }

end Sys2Proof.Machine
end

