-- ==== Sys2Proof/Machine/Operands.lean ====
section
/-! DEFINITION. The operand forms: the operand buffer, the key store and KSEL, the payload of a bank and MSEL, the
transmit frame, the accumulator, and the host's registers (30_encoding.md R119 to R122, 10_state.md R41 to
R48). -/

namespace Sys2Proof.Machine

open Sys2Proof

/-! ### The operand buffer -/

/-- The operand `OPB[0 .. OPB_LEN)` (10_state.md R42). -/
def opbOperand (s : State) : Bytes := memRead s .opb 0 s.opbLen.toNat

/-! ### The key store -/

/-- The 16 bytes of a register of the key store (10_state.md R36). -/
def keyBytes (s : State) (b : Buf) : Bytes := memRead s b 0 keyLen

/-- The key of KSEL (30_encoding.md R121). -/
def kselBuf : KeySel → Buf
  | .scbk => .scbk
  | .sEnc => .sEnc
  | .sMac1 => .sMac1
  | .sMac2 => .sMac2

/-- The validity flag KSEL tests (30_encoding.md R121). -/
def kselFlag (s : State) : KeySel → Bool
  | .scbk => s.status.scbkV
  | .sEnc => s.status.skV
  | .sMac1 => s.status.skV
  | .sMac2 => s.status.skV

/-! ### Message banks -/

/-- The payload buffer of MSEL (30_encoding.md R122). -/
def mselBuf : BankSel → Buf
  | .mt => .mtPayload
  | .mr => .mrPayload

/-- The payload length of MSEL (30_encoding.md R122). -/
def mselLen (s : State) : BankSel → BitVec 16
  | .mt => s.mt.plen
  | .mr => s.mr.plen

/-- The payload of MSEL. -/
def payload (s : State) (m : BankSel) : Bytes := memRead s (mselBuf m) 0 (mselLen s m).toNat

/-- `P := v`, with the length register. -/
def setPayload (s : State) (m : BankSel) (v : Bytes) : State :=
  match m with
  | .mt => { setBuffer s .mtPayload v with mt := { s.mt with plen := BitVec.ofNat 16 v.length } }
  | .mr => { setBuffer s .mrPayload v with mr := { s.mr with plen := BitVec.ofNat 16 v.length } }

/-! ### Frames -/

/-- `TXF := f; TXF_V <- 1` (10_state.md R43). -/
def setTxf (s : State) (f : Bytes) : State :=
  setTxfV { setBuffer s .txf f with txfLen := BitVec.ofNat 16 f.length }

/-- The frame given to `Tx.transmit` (10_state.md R43). -/
def txfFrame (s : State) : Bytes := memRead s .txf 0 s.txfLen.toNat

/-- `ACC[0 .. ACC_LEN)` (10_state.md R45). -/
def accBytes (s : State) : Bytes := memRead s .acc 0 s.accLen.toNat

/-- Append to the accumulator (44_messenger.md R250). -/
def accAppend (s : State) (r : Bytes) : State :=
  { memWrite s .acc s.accLen.toNat r with accLen := BitVec.ofNat 32 (s.accLen.toNat + r.length) }

/-- `ACC_LEN <- 0`: the accumulator is emptied and its bytes have no value (10_state.md R45). -/
def accClear (s : State) : State := { forget s .acc with accLen := 0 }

/-! ### Registers of the host port -/

/-- The value a REGRD of an implemented register returns (10_state.md R21, R30, R48); CMD reads as 0. -/
def regValue (s : State) (sel : BitVec 8) : Option (BitVec 64) :=
  match sel.toNat with
  | 0x00 => some 0#64
  | 0x01 => some ((statusRegister s).word.setWidth 64)
  | 0x02 => some (s.err.setWidth 64)
  | 0x03 => some (s.errOp.setWidth 64)
  | 0x04 => some (s.ctrl.setWidth 64)
  | 0x05 => some s.deadline
  | 0x06 => some (s.crcOut.setWidth 64)
  | 0x07 => some (s.consumed.setWidth 64)
  | 0x08 => some (s.opbLen.setWidth 64)
  | 0x09 => some (s.txfLen.setWidth 64)
  | 0x0A => some (s.accLen.setWidth 64)
  | 0x0B => some (s.rxfLen.setWidth 64)
  | 0x0C => some (s.resLen.setWidth 64)
  | 0x10 => some (s.mt.code.setWidth 64)
  | 0x11 => some (s.mt.addr.setWidth 64)
  | 0x12 => some (s.mt.seq.setWidth 64)
  | 0x13 => some (s.mt.secure.setWidth 64)
  | 0x14 => some (s.mt.sbtype.setWidth 64)
  | 0x15 => some (s.mt.sblen.setWidth 64)
  | 0x16 => some (s.mt.plen.setWidth 64)
  | 0x17 => some (s.mt.retries.setWidth 64)
  | 0x20 => some (s.mr.code.setWidth 64)
  | 0x21 => some (s.mr.addr.setWidth 64)
  | 0x22 => some (s.mr.seq.setWidth 64)
  | 0x23 => some (s.mr.secure.setWidth 64)
  | 0x24 => some (s.mr.sbtype.setWidth 64)
  | 0x25 => some (s.mr.sblen.setWidth 64)
  | 0x26 => some (s.mr.plen.setWidth 64)
  | 0x27 => some (s.mr.len.setWidth 64)
  | 0x28 => some (s.mr.crcf.setWidth 64)
  | 0x29 => some (s.mr.macv.setWidth 64)
  | 0x2A => some (s.mr.ctrl.setWidth 64)
  | _ => none

/-- The state after a REGWR of a writable register, keeping the low bits of the register's width
(45_host_access.md R271, R272); none where the write is refused: an unimplemented or read-only register
(R274), an OPB_LEN above OPB_CAP (R273). A write of a length register leaves the bytes of its buffer alone
(DESIGN CHOICE, log entry 23). -/
def regWritten (s : State) (sel : BitVec 8) (v : BitVec 64) : Option State :=
  match sel.toNat with
  | 0x00 => some (accept s (v.setWidth 16))
  | 0x01 => some (acknowledge s (v.setWidth 16))
  | 0x04 => some { s with ctrl := v.setWidth 2 }
  | 0x05 => some { s with deadline := maskTick s.cfg v }
  | 0x08 => if s.cfg.opbCap < (v.setWidth 16).toNat then none else some { s with opbLen := v.setWidth 16 }
  | 0x10 => some { s with mt := { s.mt with code := v.setWidth 8 } }
  | 0x11 => some { s with mt := { s.mt with addr := v.setWidth 8 } }
  | 0x12 => some { s with mt := { s.mt with seq := v.setWidth 8 } }
  | 0x13 => some { s with mt := { s.mt with secure := v.setWidth 1 } }
  | 0x14 => some { s with mt := { s.mt with sbtype := v.setWidth 8 } }
  | 0x15 => some { s with mt := { s.mt with sblen := v.setWidth 9 } }
  | 0x16 => some { s with mt := { s.mt with plen := v.setWidth 16 } }
  | 0x17 => some { s with mt := { s.mt with retries := v.setWidth 32 } }
  | _ => none

end Sys2Proof.Machine
end

