-- ==== Sys2Proof/Machine/HostPort.lean ====
section
/-! DEFINITION. The four host transactions (45_host_access.md). Each is performed or refused (R270); while BUSY = 1 all
but a REGRD of STATUS are refused (R276). -/

namespace Sys2Proof.Machine

open Sys2Proof

/-- REGRD (45_host_access.md R271). A read of STATUS while BUSY = 1 returns the register too (R276),
which then shows of the running operation what 20_memory.md R79 says (`statusRegister`). -/
def execRegrd (sel : BitVec 8) (s : State) : Host.Outcome State Fault Refusal :=
  if s.status.busy ∧ sel ≠ 0x01#8 then .next (refuse s)
  else
    match regValue s sel with
    | none => .next (refuse s)
    | some v => .next { s with rdata := v }

/-- REGWR (45_host_access.md R271); a write returns 0 (30_encoding.md R130). -/
def execRegwr (sel : BitVec 8) (wdata : BitVec 64) (s : State) : Host.Outcome State Fault Refusal :=
  if s.status.busy then .next (refuse s)
  else
    match regWritten s sel wdata with
    | none => .next (refuse s)
    | some t => .next { t with rdata := 0 }

/-- SEL bits 3:0, the buffer (45_host_access.md R275). -/
def selBuf (sel : BitVec 8) : Buf := bufOfId (sel.extractLsb' 0 4)

/-- The location a BUFRD or BUFWR names does not exist: SEL bits 7:4 set, or `OFF >= cap` (45_host_access.md
R274). -/
def selRefused (s : State) (sel : BitVec 8) (off : BitVec 32) : Bool :=
  sel.extractLsb' 4 4 != 0#4 || decide ((selBuf sel).cap s.cfg ≤ off.toNat)

/-- BUFRD (45_host_access.md R275). -/
def execBufrd (sel : BitVec 8) (off : BitVec 32) (s : State) : Host.Outcome State Fault Refusal :=
  if s.status.busy ∨ selRefused s sel off then .next (refuse s)
  else .next { s with rdata := (readByte s (selBuf sel) off.toNat).setWidth 64 }

/-- BUFWR (45_host_access.md R275). -/
def execBufwr (sel : BitVec 8) (off : BitVec 32) (wdata : BitVec 64) (s : State) :
    Host.Outcome State Fault Refusal :=
  if s.status.busy ∨ selRefused s sel off ∨ (selBuf sel).hostWritable = false then .next (refuse s)
  else .next { memWrite s (selBuf sel) off.toNat [wdata.setWidth 8] with rdata := 0 }

end Sys2Proof.Machine
end

