-- ==== Sys2Proof/Machine/Aes.lean ====
section
/-! DEFINITION. AES-128, padding and chaining (42_aes128.md). A block or key is a byte string of 16; byte `i` is row
`i mod 4`, column `i div 4` of the cipher's state (R180). -/

namespace Sys2Proof.Machine

/-! ### Field arithmetic and tables -/

/-- 42_aes128.md R182. -/
def xtime (a : Byte) : Byte := if a.getLsbD 7 then (a <<< 1) ^^^ 0x1B#8 else a <<< 1

/-- `xtime` applied `n` times. -/
def xtimes : Nat → Byte → Byte
  | 0, a => a
  | n + 1, a => xtime (xtimes n a)

/-- `mul(a, c)`: the exclusive-or of `xtime` applied `i` times, over the set bits `i` of `c < 16`
(42_aes128.md R182). -/
def gmul (a : Byte) (c : Nat) : Byte :=
  (if c.testBit 0 then a else 0#8) ^^^ (if c.testBit 1 then xtimes 1 a else 0#8) ^^^
  (if c.testBit 2 then xtimes 2 a else 0#8) ^^^ (if c.testBit 3 then xtimes 3 a else 0#8)

def sboxRow0 : Bytes := [0x63#8, 0x7C#8, 0x77#8, 0x7B#8, 0xF2#8, 0x6B#8, 0x6F#8, 0xC5#8, 0x30#8, 0x01#8, 0x67#8, 0x2B#8, 0xFE#8, 0xD7#8, 0xAB#8, 0x76#8]
def sboxRow1 : Bytes := [0xCA#8, 0x82#8, 0xC9#8, 0x7D#8, 0xFA#8, 0x59#8, 0x47#8, 0xF0#8, 0xAD#8, 0xD4#8, 0xA2#8, 0xAF#8, 0x9C#8, 0xA4#8, 0x72#8, 0xC0#8]
def sboxRow2 : Bytes := [0xB7#8, 0xFD#8, 0x93#8, 0x26#8, 0x36#8, 0x3F#8, 0xF7#8, 0xCC#8, 0x34#8, 0xA5#8, 0xE5#8, 0xF1#8, 0x71#8, 0xD8#8, 0x31#8, 0x15#8]
def sboxRow3 : Bytes := [0x04#8, 0xC7#8, 0x23#8, 0xC3#8, 0x18#8, 0x96#8, 0x05#8, 0x9A#8, 0x07#8, 0x12#8, 0x80#8, 0xE2#8, 0xEB#8, 0x27#8, 0xB2#8, 0x75#8]
def sboxRow4 : Bytes := [0x09#8, 0x83#8, 0x2C#8, 0x1A#8, 0x1B#8, 0x6E#8, 0x5A#8, 0xA0#8, 0x52#8, 0x3B#8, 0xD6#8, 0xB3#8, 0x29#8, 0xE3#8, 0x2F#8, 0x84#8]
def sboxRow5 : Bytes := [0x53#8, 0xD1#8, 0x00#8, 0xED#8, 0x20#8, 0xFC#8, 0xB1#8, 0x5B#8, 0x6A#8, 0xCB#8, 0xBE#8, 0x39#8, 0x4A#8, 0x4C#8, 0x58#8, 0xCF#8]
def sboxRow6 : Bytes := [0xD0#8, 0xEF#8, 0xAA#8, 0xFB#8, 0x43#8, 0x4D#8, 0x33#8, 0x85#8, 0x45#8, 0xF9#8, 0x02#8, 0x7F#8, 0x50#8, 0x3C#8, 0x9F#8, 0xA8#8]
def sboxRow7 : Bytes := [0x51#8, 0xA3#8, 0x40#8, 0x8F#8, 0x92#8, 0x9D#8, 0x38#8, 0xF5#8, 0xBC#8, 0xB6#8, 0xDA#8, 0x21#8, 0x10#8, 0xFF#8, 0xF3#8, 0xD2#8]
def sboxRow8 : Bytes := [0xCD#8, 0x0C#8, 0x13#8, 0xEC#8, 0x5F#8, 0x97#8, 0x44#8, 0x17#8, 0xC4#8, 0xA7#8, 0x7E#8, 0x3D#8, 0x64#8, 0x5D#8, 0x19#8, 0x73#8]
def sboxRow9 : Bytes := [0x60#8, 0x81#8, 0x4F#8, 0xDC#8, 0x22#8, 0x2A#8, 0x90#8, 0x88#8, 0x46#8, 0xEE#8, 0xB8#8, 0x14#8, 0xDE#8, 0x5E#8, 0x0B#8, 0xDB#8]
def sboxRowA : Bytes := [0xE0#8, 0x32#8, 0x3A#8, 0x0A#8, 0x49#8, 0x06#8, 0x24#8, 0x5C#8, 0xC2#8, 0xD3#8, 0xAC#8, 0x62#8, 0x91#8, 0x95#8, 0xE4#8, 0x79#8]
def sboxRowB : Bytes := [0xE7#8, 0xC8#8, 0x37#8, 0x6D#8, 0x8D#8, 0xD5#8, 0x4E#8, 0xA9#8, 0x6C#8, 0x56#8, 0xF4#8, 0xEA#8, 0x65#8, 0x7A#8, 0xAE#8, 0x08#8]
def sboxRowC : Bytes := [0xBA#8, 0x78#8, 0x25#8, 0x2E#8, 0x1C#8, 0xA6#8, 0xB4#8, 0xC6#8, 0xE8#8, 0xDD#8, 0x74#8, 0x1F#8, 0x4B#8, 0xBD#8, 0x8B#8, 0x8A#8]
def sboxRowD : Bytes := [0x70#8, 0x3E#8, 0xB5#8, 0x66#8, 0x48#8, 0x03#8, 0xF6#8, 0x0E#8, 0x61#8, 0x35#8, 0x57#8, 0xB9#8, 0x86#8, 0xC1#8, 0x1D#8, 0x9E#8]
def sboxRowE : Bytes := [0xE1#8, 0xF8#8, 0x98#8, 0x11#8, 0x69#8, 0xD9#8, 0x8E#8, 0x94#8, 0x9B#8, 0x1E#8, 0x87#8, 0xE9#8, 0xCE#8, 0x55#8, 0x28#8, 0xDF#8]
def sboxRowF : Bytes := [0x8C#8, 0xA1#8, 0x89#8, 0x0D#8, 0xBF#8, 0xE6#8, 0x42#8, 0x68#8, 0x41#8, 0x99#8, 0x2D#8, 0x0F#8, 0xB0#8, 0x54#8, 0xBB#8, 0x16#8]

/-- The substitution table, row = high nibble, column = low nibble (42_aes128.md R183). -/
def sboxRows : List Bytes :=
  [sboxRow0, sboxRow1, sboxRow2, sboxRow3, sboxRow4, sboxRow5, sboxRow6, sboxRow7] ++
  [sboxRow8, sboxRow9, sboxRowA, sboxRowB, sboxRowC, sboxRowD, sboxRowE, sboxRowF]

def invSboxRow0 : Bytes := [0x52#8, 0x09#8, 0x6A#8, 0xD5#8, 0x30#8, 0x36#8, 0xA5#8, 0x38#8, 0xBF#8, 0x40#8, 0xA3#8, 0x9E#8, 0x81#8, 0xF3#8, 0xD7#8, 0xFB#8]
def invSboxRow1 : Bytes := [0x7C#8, 0xE3#8, 0x39#8, 0x82#8, 0x9B#8, 0x2F#8, 0xFF#8, 0x87#8, 0x34#8, 0x8E#8, 0x43#8, 0x44#8, 0xC4#8, 0xDE#8, 0xE9#8, 0xCB#8]
def invSboxRow2 : Bytes := [0x54#8, 0x7B#8, 0x94#8, 0x32#8, 0xA6#8, 0xC2#8, 0x23#8, 0x3D#8, 0xEE#8, 0x4C#8, 0x95#8, 0x0B#8, 0x42#8, 0xFA#8, 0xC3#8, 0x4E#8]
def invSboxRow3 : Bytes := [0x08#8, 0x2E#8, 0xA1#8, 0x66#8, 0x28#8, 0xD9#8, 0x24#8, 0xB2#8, 0x76#8, 0x5B#8, 0xA2#8, 0x49#8, 0x6D#8, 0x8B#8, 0xD1#8, 0x25#8]
def invSboxRow4 : Bytes := [0x72#8, 0xF8#8, 0xF6#8, 0x64#8, 0x86#8, 0x68#8, 0x98#8, 0x16#8, 0xD4#8, 0xA4#8, 0x5C#8, 0xCC#8, 0x5D#8, 0x65#8, 0xB6#8, 0x92#8]
def invSboxRow5 : Bytes := [0x6C#8, 0x70#8, 0x48#8, 0x50#8, 0xFD#8, 0xED#8, 0xB9#8, 0xDA#8, 0x5E#8, 0x15#8, 0x46#8, 0x57#8, 0xA7#8, 0x8D#8, 0x9D#8, 0x84#8]
def invSboxRow6 : Bytes := [0x90#8, 0xD8#8, 0xAB#8, 0x00#8, 0x8C#8, 0xBC#8, 0xD3#8, 0x0A#8, 0xF7#8, 0xE4#8, 0x58#8, 0x05#8, 0xB8#8, 0xB3#8, 0x45#8, 0x06#8]
def invSboxRow7 : Bytes := [0xD0#8, 0x2C#8, 0x1E#8, 0x8F#8, 0xCA#8, 0x3F#8, 0x0F#8, 0x02#8, 0xC1#8, 0xAF#8, 0xBD#8, 0x03#8, 0x01#8, 0x13#8, 0x8A#8, 0x6B#8]
def invSboxRow8 : Bytes := [0x3A#8, 0x91#8, 0x11#8, 0x41#8, 0x4F#8, 0x67#8, 0xDC#8, 0xEA#8, 0x97#8, 0xF2#8, 0xCF#8, 0xCE#8, 0xF0#8, 0xB4#8, 0xE6#8, 0x73#8]
def invSboxRow9 : Bytes := [0x96#8, 0xAC#8, 0x74#8, 0x22#8, 0xE7#8, 0xAD#8, 0x35#8, 0x85#8, 0xE2#8, 0xF9#8, 0x37#8, 0xE8#8, 0x1C#8, 0x75#8, 0xDF#8, 0x6E#8]
def invSboxRowA : Bytes := [0x47#8, 0xF1#8, 0x1A#8, 0x71#8, 0x1D#8, 0x29#8, 0xC5#8, 0x89#8, 0x6F#8, 0xB7#8, 0x62#8, 0x0E#8, 0xAA#8, 0x18#8, 0xBE#8, 0x1B#8]
def invSboxRowB : Bytes := [0xFC#8, 0x56#8, 0x3E#8, 0x4B#8, 0xC6#8, 0xD2#8, 0x79#8, 0x20#8, 0x9A#8, 0xDB#8, 0xC0#8, 0xFE#8, 0x78#8, 0xCD#8, 0x5A#8, 0xF4#8]
def invSboxRowC : Bytes := [0x1F#8, 0xDD#8, 0xA8#8, 0x33#8, 0x88#8, 0x07#8, 0xC7#8, 0x31#8, 0xB1#8, 0x12#8, 0x10#8, 0x59#8, 0x27#8, 0x80#8, 0xEC#8, 0x5F#8]
def invSboxRowD : Bytes := [0x60#8, 0x51#8, 0x7F#8, 0xA9#8, 0x19#8, 0xB5#8, 0x4A#8, 0x0D#8, 0x2D#8, 0xE5#8, 0x7A#8, 0x9F#8, 0x93#8, 0xC9#8, 0x9C#8, 0xEF#8]
def invSboxRowE : Bytes := [0xA0#8, 0xE0#8, 0x3B#8, 0x4D#8, 0xAE#8, 0x2A#8, 0xF5#8, 0xB0#8, 0xC8#8, 0xEB#8, 0xBB#8, 0x3C#8, 0x83#8, 0x53#8, 0x99#8, 0x61#8]
def invSboxRowF : Bytes := [0x17#8, 0x2B#8, 0x04#8, 0x7E#8, 0xBA#8, 0x77#8, 0xD6#8, 0x26#8, 0xE1#8, 0x69#8, 0x14#8, 0x63#8, 0x55#8, 0x21#8, 0x0C#8, 0x7D#8]

/-- The inverse table (42_aes128.md R184). -/
def invSboxRows : List Bytes :=
  [invSboxRow0, invSboxRow1, invSboxRow2, invSboxRow3, invSboxRow4, invSboxRow5, invSboxRow6, invSboxRow7] ++
  [invSboxRow8, invSboxRow9, invSboxRowA, invSboxRowB, invSboxRowC, invSboxRowD, invSboxRowE, invSboxRowF]

def lookup (rows : List Bytes) (a : Byte) : Byte := (rows.getD (a.toNat / 16) []).getD (a.toNat % 16) 0#8

def sbox (a : Byte) : Byte := lookup sboxRows a

def invSbox (a : Byte) : Byte := lookup invSboxRows a

/-! ### Key expansion -/

/-- The first byte of RCON for rounds 1 to 10 (42_aes128.md R185). -/
def rcon : Bytes := [0x01#8, 0x02#8, 0x04#8, 0x08#8, 0x10#8, 0x20#8, 0x40#8, 0x80#8, 0x1B#8, 0x36#8]

/-- `t` of 42_aes128.md R185 for `i mod 4 = 0`: rotate left one byte, substitute, add the round constant. -/
def keyCore (rc : Byte) (w : Bytes) : Bytes :=
  [sbox (byteAt w 1) ^^^ rc, sbox (byteAt w 2), sbox (byteAt w 3), sbox (byteAt w 0)]

/-- Words `w[4r] .. w[4r+3]` from words `w[4r-4] .. w[4r-1]` (42_aes128.md R185). -/
def nextRoundKey (rk : Bytes) (rc : Byte) : Bytes :=
  let w0 := xorBytes (slice rk 0 4) (keyCore rc (slice rk 12 4))
  let w1 := xorBytes (slice rk 4 4) w0
  let w2 := xorBytes (slice rk 8 4) w1
  let w3 := xorBytes (slice rk 12 4) w2
  w0 ++ w1 ++ w2 ++ w3

/-- The round key of `rk` and those that follow it, one per round constant. -/
def expandFrom (rk : Bytes) : Bytes → List Bytes
  | [] => [rk]
  | rc :: rest => rk :: expandFrom (nextRoundKey rk rc) rest

/-- `expand(k)`: the round keys `rk[0] .. rk[10]` (42_aes128.md R185). -/
def expandKey (k : Bytes) : List Bytes := expandFrom k rcon

/-! ### Encryption -/

def subBytes (s : Bytes) : Bytes := s.map sbox

/-- `s'[i] = s[(i + 4*(i mod 4)) mod 16]` (42_aes128.md R181). -/
def shiftRows (s : Bytes) : Bytes :=
  (List.range 16).map (fun i => byteAt s ((i + 4 * (i % 4)) % 16))

/-- One column of MixColumns (42_aes128.md R181). -/
def mixColumn (a0 a1 a2 a3 : Byte) : Bytes :=
  [gmul a0 2 ^^^ gmul a1 3 ^^^ a2 ^^^ a3,
   a0 ^^^ gmul a1 2 ^^^ gmul a2 3 ^^^ a3,
   a0 ^^^ a1 ^^^ gmul a2 2 ^^^ gmul a3 3,
   gmul a0 3 ^^^ a1 ^^^ a2 ^^^ gmul a3 2]

def mapColumns (f : Byte → Byte → Byte → Byte → Bytes) (s : Bytes) : Bytes :=
  (List.range 4).flatMap (fun c =>
    f (byteAt s (4 * c)) (byteAt s (4 * c + 1)) (byteAt s (4 * c + 2)) (byteAt s (4 * c + 3)))

def mixColumns (s : Bytes) : Bytes := mapColumns mixColumn s

/-- Rounds 1 to 10 over the round keys still to be added; the last has no MixColumns (42_aes128.md R181). -/
def encRounds (s : Bytes) : List Bytes → Bytes
  | [] => s
  | [k] => xorBytes (shiftRows (subBytes s)) k
  | k :: ks => encRounds (xorBytes (mixColumns (shiftRows (subBytes s))) k) ks

/-- `AES_E` under given round keys. -/
def encWithKeys (b : Bytes) : List Bytes → Bytes
  | [] => b
  | k :: ks => encRounds (xorBytes b k) ks

/-- `AES_E(k, b)` (42_aes128.md R181). -/
def aesE (k b : Bytes) : Bytes := encWithKeys b (expandKey k)

/-! ### Decryption -/

def invSubBytes (s : Bytes) : Bytes := s.map invSbox

/-- `s'[r + 4*((c + r) mod 4)] = s[r + 4c]` read at the target: row `r` rotated right by `r` columns
(42_aes128.md R190). -/
def invShiftRows (s : Bytes) : Bytes :=
  (List.range 16).map (fun i => byteAt s ((i + 12 * (i % 4)) % 16))

/-- One column of InvMixColumns (42_aes128.md R190). -/
def invMixColumn (a0 a1 a2 a3 : Byte) : Bytes :=
  [gmul a0 14 ^^^ gmul a1 11 ^^^ gmul a2 13 ^^^ gmul a3 9,
   gmul a0 9 ^^^ gmul a1 14 ^^^ gmul a2 11 ^^^ gmul a3 13,
   gmul a0 13 ^^^ gmul a1 9 ^^^ gmul a2 14 ^^^ gmul a3 11,
   gmul a0 11 ^^^ gmul a1 13 ^^^ gmul a2 9 ^^^ gmul a3 14]

def invMixColumns (s : Bytes) : Bytes := mapColumns invMixColumn s

/-- Rounds 9 down to 0 over the round keys still to be added, last first; the last round has no
InvMixColumns (42_aes128.md R190). -/
def decRounds (s : Bytes) : List Bytes → Bytes
  | [] => s
  | [k] => xorBytes (invSubBytes (invShiftRows s)) k
  | k :: ks => decRounds (invMixColumns (xorBytes (invSubBytes (invShiftRows s)) k)) ks

/-- `AES_D` under given round keys, the last round key first. -/
def decWithKeys (c : Bytes) : List Bytes → Bytes
  | [] => c
  | k :: ks => decRounds (xorBytes c k) ks

/-- `AES_D(k, c)` (42_aes128.md R190). -/
def aesD (k c : Bytes) : Bytes := decWithKeys c (expandKey k).reverse

/-! ### Padding and chaining -/

/-- `pad16(s)` (42_aes128.md R191). -/
def pad16 (s : Bytes) : Bytes := s ++ [padMark] ++ zeros (15 - s.length % 16)

/-- `unpad16(s)`, none for NoMarker (42_aes128.md R192). -/
def unpad16 (s : Bytes) : Option Bytes :=
  match s.reverse.dropWhile (· == 0#8) with
  | [] => none
  | b :: rest => if b = padMark then some rest.reverse else none

/-- `cbc_encrypt` over blocks (42_aes128.md R193): the ciphertext and the next IV. -/
def cbcEncBlocks (k v : Bytes) : List Bytes → Bytes × Bytes
  | [] => ([], v)
  | b :: bs =>
    let c := aesE k (xorBytes b v)
    let r := cbcEncBlocks k c bs
    (c ++ r.1, r.2)

def cbcEncrypt (k iv s : Bytes) : Bytes × Bytes := cbcEncBlocks k iv (blocks s)

/-- `cbc_decrypt` over blocks (42_aes128.md R194): the plaintext and the next IV. -/
def cbcDecBlocks (k v : Bytes) : List Bytes → Bytes × Bytes
  | [] => ([], v)
  | b :: bs =>
    let r := cbcDecBlocks k b bs
    (xorBytes (aesD k b) v ++ r.1, r.2)

def cbcDecrypt (k iv c : Bytes) : Bytes × Bytes := cbcDecBlocks k iv (blocks c)

/-- `mac_of(s, iv)` (43_secure_channel.md R209) under `S_MAC1 = k1` and `S_MAC2 = k2`: the MAC and the whole
last block. -/
def macOf (k1 k2 s iv : Bytes) : Bytes × Bytes :=
  let q := pad16 s
  let n := q.length / blockLen
  let v := (cbcEncrypt k1 iv (slice q 0 (blockLen * (n - 1)))).2
  let last := aesE k2 (xorBytes (slice q (blockLen * (n - 1)) blockLen) v)
  (last.take macLen, last)

end Sys2Proof.Machine
end

