-- ==== Sys2Proof/Machine/Crc.lean ====
section
/-! DEFINITION. The CRC-16 generator's function (40_crc.md R140 to R144). -/

namespace Sys2Proof.Machine

/-- One shift of the register (40_crc.md R141). -/
def crcShift (c : BitVec 16) : BitVec 16 :=
  if c.getLsbD 15 then (c <<< 1) ^^^ crcPoly else c <<< 1

/-- The register after one byte (40_crc.md R141): the byte into the high half, then eight shifts. -/
def crcByte (c : BitVec 16) (b : Byte) : BitVec 16 :=
  crcShift (crcShift (crcShift (crcShift (crcShift (crcShift (crcShift (crcShift
    (c ^^^ (b.setWidth 16 <<< 8)))))))))

/-- The register after the bytes of `s`, from `c` (40_crc.md R142). -/
def crcFrom (c : BitVec 16) (s : Bytes) : BitVec 16 := s.foldl crcByte c

/-- `crc16(s)` (40_crc.md R141). -/
def crc16 (s : Bytes) : BitVec 16 := crcFrom crcInit s

/-- A string followed by its CRC, low byte first (40_crc.md R143). -/
def withCrc (s : Bytes) : Bytes := s ++ le16 (crc16 s)

end Sys2Proof.Machine
end

