-- ==== Sys2Proof/Machine/Codec.lean ====
section
/-! DEFINITION. CRC16 (40_crc.md R145) and the packet codec: ENCODE and DECODE (41_codec.md), over the wire frame of
30_encoding.md Part A. -/

namespace Sys2Proof.Machine

open Sys2Proof

/-- CRC16 (40_crc.md R145). -/
def execCrc16 (s : State) : Host.Outcome State Fault Refusal :=
  .next (complete .ok { s with crcOut := crc16 (opbOperand s) })

/-! ### Encoding -/

/-- MT_SECURE = 1. -/
def mtSecured (s : State) : Bool := s.mt.secure == 1#1

/-- The frame of bank MT has a MAC field (30_encoding.md R110). -/
def mtMacBearing (s : State) : Bool := mtSecured s && decide (scsMacThreshold < s.mt.sbtype.toNat)

/-- The checks of `encode_mt` before its size check, in their order (41_codec.md R151); the first can never
fail (R152). -/
def mtCheck (s : State) : Option Code :=
  if 127 < (s.mt.addr &&& addrMask).toNat then some .addressOutOfRange
  else if seqMax < s.mt.seq.toNat then some .invalidSequenceNumber
  else if mtSecured s then
    if sbDataMax < s.mt.sblen.toNat then some .secureBlockTooLarge
    else if s.mt.sbtype.toNat < scsMin ∨ scsMax < s.mt.sbtype.toNat then some .invalidSecureBlockType
    else none
  else none

/-- The secure block `[2 + MT_SBLEN, MT_SBTYPE] || MT_SBDATA`, or nothing (41_codec.md R151). -/
def mtSecureBlock (s : State) : Bytes :=
  if mtSecured s then
    [BitVec.ofNat 8 (2 + s.mt.sblen.toNat), s.mt.sbtype] ++ memRead s .mtSbdata 0 s.mt.sblen.toNat
  else []

/-- The bytes of the MAC field. -/
def macField (m : Bool) : Nat := if m then macLen else 0

/-- `total`, computed exactly (41_codec.md R151, 46_arithmetic_and_control.md R290). -/
def mtTotal (s : State) : Nat :=
  5 + (mtSecureBlock s).length + 1 + s.mt.plen.toNat + macField (mtMacBearing s) + crcLen

/-- The control byte: SQN, CRCF = 1, SCB (30_encoding.md R105). -/
def mtCtrl (s : State) : Byte := BitVec.ofNat 8 (s.mt.seq.toNat % 4 + 4 + 8 * s.mt.secure.toNat)

/-- The frame of bank MT up to its MAC field (30_encoding.md R100). -/
def mtFront (s : State) : Bytes :=
  [som, s.mt.addr &&& addrMask] ++ le16 (BitVec.ofNat 16 (mtTotal s)) ++ [mtCtrl s] ++ mtSecureBlock s ++
    [s.mt.code] ++ payload s .mt

/-- `encode_mt()` (41_codec.md R151), with a zero MAC field (R157). -/
def encodeMt (s : State) : Except Code Bytes :=
  match mtCheck s with
  | some e => .error e
  | none =>
    if s.cfg.frameMax < mtTotal s then .error .invalidLength
    else .ok (withCrc (mtFront s ++ zeros (macField (mtMacBearing s))))

/-- The body of ENCODE, all but its outcome (41_codec.md R150). -/
def encodeBody (s : State) : Except Code State :=
  match encodeMt s with
  | .error e => .error e
  | .ok f => .ok (setTxf s f)

/-- ENCODE (41_codec.md R150). -/
def execEncode (s : State) : Host.Outcome State Fault Refusal := .next (finish s (encodeBody s))

/-! ### Decoding -/

/-- The fields of a decoded frame (41_codec.md R161). -/
structure Frame where
  addr : Byte
  len : Nat
  ctrl : Byte
  sqn : BitVec 2
  crcf : BitVec 1
  scb : BitVec 1
  sbtype : Byte
  sbdata : Bytes
  code : Byte
  payload : Bytes
  macv : Bool
  mac : Bytes
  raw : Bytes
  consumed : Nat
  deriving DecidableEq, Repr

/-- Step 1: the least index of a marker, 0 where there is none (41_codec.md R161, R162). -/
def markerIndex (b : Bytes) : Nat :=
  match b.findIdx? (fun x => x == som) with
  | some i => i
  | none => 0

/-- CTRL bit 3 of the frame `f`. -/
def frameSecured (f : Bytes) : Bool := (byteAt f 4).getLsbD 3

/-- Step 7: `h`, the offset of CODE (30_encoding.md R100). -/
def frameCodeAt (f : Bytes) : Nat := if frameSecured f then 5 + (byteAt f 5).toNat else 5

/-- Step 7: the frame has a MAC field (30_encoding.md R110, on the type as received). -/
def frameMacBearing (f : Bytes) : Bool := frameSecured f && decide (scsMacThreshold < (byteAt f 6).toNat)

/-- Step 7: `need`, the least LEN this layout allows. -/
def frameNeed (f : Bytes) : Nat := frameCodeAt f + 1 + macField (frameMacBearing f) + crcLen

/-- Step 5: LEN. -/
def frameLen (f : Bytes) : Nat := fromLe16 (byteAt f 2) (byteAt f 3)

/-- Steps 2 to 7 and 9: why `f`, the string from the marker on, is no frame, in the order of the checks
(41_codec.md R161, R163, R164, R166). -/
def frameCheck (f : Bytes) : Option Code :=
  if f.length < minFrame then some .incomplete
  else if byteAt f 0 ≠ som then some .invalidStartOfMessage
  else if 127 < (byteAt f 1 &&& addrMask).toNat then some .addressOutOfRange
  else if f.length < frameLen f then some .incomplete
  else if frameSecured f ∧ (byteAt f 5).toNat < 2 then some .invalidLength
  else if frameLen f < frameNeed f then some .invalidLength
  else if crc16 (slice f 0 (frameLen f - crcLen)) ≠
      BitVec.ofNat 16 (fromLe16 (byteAt f (frameLen f - 2)) (byteAt f (frameLen f - 1))) then some .checksumFailed
  else none

/-- Steps 4 to 8: the fields of the frame at the start of `f`, which `p` discarded bytes precede. -/
def frameFields (p : Nat) (f : Bytes) : Frame :=
  { addr := byteAt f 1 &&& addrMask
    len := frameLen f
    ctrl := byteAt f 4
    sqn := (byteAt f 4).extractLsb' 0 2
    crcf := (byteAt f 4).extractLsb' 2 1
    scb := (byteAt f 4).extractLsb' 3 1
    sbtype := if frameSecured f then byteAt f 6 else 0#8
    sbdata := if frameSecured f then slice f 7 ((byteAt f 5).toNat - 2) else []
    code := byteAt f (frameCodeAt f)
    payload := slice f (frameCodeAt f + 1) (frameLen f - frameNeed f)
    macv := frameMacBearing f
    mac := if frameMacBearing f then slice f (frameLen f - 6) macLen else zeros macLen
    raw := slice f 0 (frameLen f)
    consumed := p + frameLen f }

/-- `decode(b)` (41_codec.md R161). -/
def decodeFrame (b : Bytes) : Except Code Frame :=
  match frameCheck (b.drop (markerIndex b)) with
  | some e => .error e
  | none => .ok (frameFields (markerIndex b) (b.drop (markerIndex b)))

/-- The buffers of `commit` (41_codec.md R168). -/
def commitBuffers (f : Frame) (s : State) : State :=
  setBuffer (memWrite (setBuffer (setBuffer s .mrSbdata f.sbdata) .mrPayload f.payload) .mrMac 0 f.mac) .rxf f.raw

/-- The registers of bank MR that `commit` writes. -/
def commitBank (f : Frame) : MRBank :=
  { code := f.code, addr := f.addr, seq := f.sqn, secure := f.scb, sbtype := f.sbtype,
    sblen := BitVec.ofNat 8 f.sbdata.length, plen := BitVec.ofNat 16 f.payload.length,
    len := BitVec.ofNat 16 f.len, crcf := f.crcf, macv := BitVec.ofBool f.macv, ctrl := f.ctrl }

/-- `commit(r)` (41_codec.md R168). -/
def commit (f : Frame) (s : State) : State :=
  setMrValid
    { commitBuffers f s with
      mr := commitBank f
      rxfLen := BitVec.ofNat 16 f.len
      consumed := BitVec.ofNat 32 f.consumed }
    true

/-- DECODE (41_codec.md R160). -/
def execDecode (s : State) : Host.Outcome State Fault Refusal :=
  match decodeFrame (opbOperand s) with
  | .ok f => .next (complete .ok (commit f s))
  | .error e => .next (complete e (setMrValid s false))

end Sys2Proof.Machine
end

