-- ==== Sys2Proof/Machine/Secure.lean ====
section
/-! DEFINITION. The secure-channel engine (43_secure_channel.md): keys, cryptogram, MAC, payload cipher. Each body makes
all its checks before its first write (R200). -/

namespace Sys2Proof.Machine

open Sys2Proof

/-! ### Loading key material -/

def loadScbkBody (s : State) : Except Code State :=
  if s.opbLen.toNat ≠ keyLen then .error .invalidKeyLength
  else .ok (setKeyFlags (forget (forget (forget (forget (setBuffer s .scbk (memRead s .opb 0 keyLen))
    .sEnc) .sMac1) .sMac2) .ivc) true false false)

/-- LOAD_SCBK (43_secure_channel.md R201); the session keys and the IV lose their values with their flags
(93_implementation_defined.md U3). -/
def execLoadScbk (s : State) : Host.Outcome State Fault Refusal := .next (finish s (loadScbkBody s))

def loadIvBody (s : State) : Except Code State :=
  if s.opbLen.toNat ≠ ivLen then .error .invalidIVLength
  else .ok (setKeyFlags (setBuffer s .ivc (memRead s .opb 0 ivLen)) s.status.scbkV s.status.skV true)

/-- LOAD_IV (43_secure_channel.md R202). -/
def execLoadIv (s : State) : Host.Outcome State Fault Refusal := .next (finish s (loadIvBody s))

/-! ### Session keys and cryptogram -/

/-- The template `[x, y] || ch[0 .. 6) || 0^8` (43_secure_channel.md R203, R204). -/
def keyTemplate (x y : Byte) (ch : Bytes) : Bytes := [x, y] ++ ch.take 6 ++ zeros 8

def deriveKeysBody (s : State) : Except Code State :=
  if s.status.scbkV = false then .error .invalidKeyLength
  else if s.opbLen.toNat ≠ chalLen then .error .invalidChallengeLength
  else
    let ch := memRead s .opb 0 chalLen
    let k := keyBytes s .scbk
    .ok (setKeyFlags (forget (setBuffer (setBuffer (setBuffer s
        .sEnc (aesE k (keyTemplate 0x01#8 0x82#8 ch)))
        .sMac1 (aesE k (keyTemplate 0x01#8 0x01#8 ch)))
        .sMac2 (aesE k (keyTemplate 0x01#8 0x02#8 ch)))
      .ivc) s.status.scbkV true false)

/-- DERIVE_KEYS (43_secure_channel.md R203). -/
def execDeriveKeys (s : State) : Host.Outcome State Fault Refusal := .next (finish s (deriveKeysBody s))

def cryptogramBody (s : State) : Except Code State :=
  if s.status.skV = false then .error .invalidKeyLength
  else if s.opbLen.toNat ≠ blockLen then .error .invalidChallengeLength
  else .ok { setBuffer s .res (aesE (keyBytes s .sEnc) (memRead s .opb 0 blockLen)) with resLen := 16#8 }

/-- CRYPTOGRAM (43_secure_channel.md R205). -/
def execCryptogram (s : State) : Host.Outcome State Fault Refusal := .next (finish s (cryptogramBody s))

/-! ### Message authentication -/

/-- `mac_of(f, IVC)` under the session keys of `s` (43_secure_channel.md R209). -/
def sessionMac (s : State) (f : Bytes) : Bytes × Bytes :=
  macOf (keyBytes s .sMac1) (keyBytes s .sMac2) f (keyBytes s .ivc)

/-- `f[0 .. L-6)`: the frame before its MAC field (43_secure_channel.md R210). -/
def beforeMac (f : Bytes) : Bytes := f.take (f.length - (macLen + crcLen))

/-- The writes of GEN_MAC for the frame `f` of `encode_mt` (43_secure_channel.md R210). -/
def macedFrame (s : State) (f : Bytes) : State :=
  let r := sessionMac s (beforeMac f)
  setBuffer (memWrite (setTxf s (withCrc (beforeMac f ++ r.1))) .mtMac 0 r.1) .ivc r.2

/-- The body of GEN_MAC, all but its outcome (43_secure_channel.md R210). -/
def genMacBody (s : State) : Except Code State :=
  if mtMacBearing s = false then .error .notSecureMessage
  else if s.status.skV = false then .error .invalidKeyLength
  else if s.status.ivcV = false then .error .invalidIVLength
  else
    match encodeMt s with
    | .error e => .error e
    | .ok f => .ok (macedFrame s f)

/-- GEN_MAC (43_secure_channel.md R210). -/
def execGenMac (s : State) : Host.Outcome State Fault Refusal := .next (finish s (genMacBody s))

def verifyMacBody (s : State) : Except Code State :=
  if s.status.mrValid = false then .error .illegalState
  else if s.mr.secure = 0#1 ∨ s.mr.macv = 0#1 then .error .notSecureMessage
  else if s.status.skV = false then .error .invalidKeyLength
  else if s.status.ivcV = false then .error .invalidIVLength
  else
    let r := sessionMac s (memRead s .rxf 0 (s.rxfLen.toNat - (macLen + crcLen)))
    if r.1 ≠ memRead s .mrMac 0 macLen then .error .macMismatch
    else .ok (setBuffer (setMacOk s true) .ivc r.2)

/-- VERIFY_MAC (43_secure_channel.md R215); MAC_OK is cleared before the checks. -/
def execVerifyMac (s : State) : Host.Outcome State Fault Refusal :=
  .next (finish (setMacOk s false) (verifyMacBody (setMacOk s false)))

/-! ### Payload cipher -/

def encryptBody (k : KeySel) (m : BankSel) (s : State) : Except Code State :=
  if kselFlag s k = false then .error .invalidKeyLength
  else if s.status.ivcV = false then .error .invalidIVLength
  else if payCap < (pad16 (payload s m)).length then .error .invalidLength
  else
    let r := cbcEncrypt (keyBytes s (kselBuf k)) (keyBytes s .ivc) (pad16 (payload s m))
    .ok (setBuffer (setPayload s m r.1) .ivc r.2)

/-- ENCRYPT (43_secure_channel.md R220). -/
def execEncrypt (k : KeySel) (m : BankSel) (s : State) : Host.Outcome State Fault Refusal :=
  .next (finish s (encryptBody k m s))

def decryptBody (k : KeySel) (m : BankSel) (s : State) : Except Code State :=
  if kselFlag s k = false then .error .invalidKeyLength
  else if s.status.ivcV = false then .error .invalidIVLength
  else if (mselLen s m).toNat % blockLen ≠ 0 ∨ (mselLen s m).toNat = 0 then .error .unpaddedCiphertext
  else
    let r := cbcDecrypt (keyBytes s (kselBuf k)) (keyBytes s .ivc) (payload s m)
    match unpad16 r.1 with
    | none => .error .unpaddedCiphertext
    | some u => .ok (setBuffer (setPayload s m u) .ivc r.2)

/-- DECRYPT (43_secure_channel.md R225). -/
def execDecrypt (k : KeySel) (m : BankSel) (s : State) : Host.Outcome State Fault Refusal :=
  .next (finish s (decryptBody k m s))

end Sys2Proof.Machine
end

