-- ==== Sys2Proof/Machine/Messenger.lean ====
section
/-! DEFINITION. The messenger (44_messenger.md): SEND, RECEIVE and MCLEAR over the transceiver port
(60_exceptions.md R320). One execution of SEND or RECEIVE is one stretch between transceiver answers
(70_reset_and_hazards.md R365): the call in flight says where the operation stands, and a call whose
answer has not come leaves the block as it is, BUSY (R356; log entry 11). -/

namespace Sys2Proof.Machine

open Sys2Proof

def setCall (s : State) (c : TxCall) : State := { s with call := c }

/-! ### SEND -/

/-- SEND takes the MAC path (44_messenger.md R245). -/
def sendMacPath (s : State) : Bool := ctrlScActive s && mtMacBearing s

/-- The frame assembly of SEND: the body of GEN_MAC or of ENCODE (44_messenger.md R245). -/
def sendBody (s : State) : Except Code State := if sendMacPath s then genMacBody s else encodeBody s

/-- SEND up to its call of `Tx.transmit` (44_messenger.md R240, R245). TXF_V is set before the call
(10_state.md R43); the STATUS register shows it when BUSY falls (`statusRegister`, log entry 22). -/
def sendStart (s : State) : State :=
  if s.status.mstate = .awaitingResponse then complete .illegalState s
  else
    match sendBody (setMState s .sending) with
    | .error e => complete e (setMState s .failed)
    | .ok t => setCall t (.transmit (txfFrame t))

/-- SEND from the answer to `Tx.transmit` on. -/
def sendAnswer (s : State) : State :=
  match s.env.transmitQ with
  | [] => s
  | .ok :: rest =>
    complete .ok (setMState (setCall { s with env := { s.env with transmitQ := rest } } .none) .awaitingResponse)
  | .transmitError :: rest =>
    complete .transmitError (setMState (setCall { s with env := { s.env with transmitQ := rest } } .none) .failed)

/-- SEND (44_messenger.md R245). -/
def execSend (s : State) : Host.Outcome State Fault Refusal :=
  match s.call with
  | .none => .next (sendStart s)
  | .transmit _ => .next (sendAnswer s)
  | .receive => .next s
  | .reset => .next s

/-! ### RECEIVE -/

/-- `(t - T0) mod 2^TIME_W` (44_messenger.md R252). -/
def elapsed (c : Config) (t t0 : Tick) : Nat := (maskTick c (t - t0)).toNat

/-- A terminal transition: the accumulator emptied, MSTATE written (44_messenger.md R254). -/
def terminal (s : State) (m : MState) : State := setMState (accClear s) m

/-- The head of the loop: sample `NOW`, then time out and call `Tx.reset`, or call `Tx.receive`
(44_messenger.md R250, R252, R253). -/
def receiveTurn (s : State) : State :=
  if s.dl.toNat ≤ elapsed s.cfg (nextNow s) s.t0 then setCall (terminal (sampled s) .timedOut) .reset
  else setCall (sampled s) .receive

/-- RECEIVE up to its first call (44_messenger.md R250). MR_VALID and MAC_OK are cleared before
it (10_state.md R31); the STATUS register shows that when BUSY falls (`statusRegister`, log entry 22). -/
def receiveStart (s : State) : State :=
  if s.status.mstate ≠ .awaitingResponse then complete .illegalState s
  else receiveTurn { sampled (setMrValid s false) with t0 := nextNow s, dl := s.deadline }

/-- The loop's body once bytes are appended: decode the whole accumulator (44_messenger.md R250, R251). -/
def receiveDecode (s : State) : State :=
  match decodeFrame (accBytes s) with
  | .error .incomplete => receiveTurn s
  | .error e => complete e (terminal s .failed)
  | .ok f => complete .ok (terminal (commit f s) .complete)

/-- The loop's body from the answer to `Tx.receive` on (44_messenger.md R250, R255). -/
def receiveAnswer (s : State) : State :=
  match s.env.receiveQ with
  | [] => s
  | a :: rest =>
    let t := setCall { s with env := { s.env with receiveQ := rest } } .none
    match a with
    | .receiveError => complete .receiveError (terminal t .failed)
    | .bytes r =>
      if s.cfg.accCap < s.accLen.toNat + r.length then complete .accumulatorOverflow (terminal t .failed)
      else receiveDecode (accAppend t r)

/-- The timeout branch from the answer to `Tx.reset` on (44_messenger.md R253). -/
def resetAnswer (s : State) : State :=
  match s.env.resetQ with
  | [] => s
  | .ok :: rest => complete .receiveTimeout (setCall { s with env := { s.env with resetQ := rest } } .none)
  | .resetError :: rest => complete .resetError (setCall { s with env := { s.env with resetQ := rest } } .none)

/-- RECEIVE (44_messenger.md R250). -/
def execReceive (s : State) : Host.Outcome State Fault Refusal :=
  match s.call with
  | .none => .next (receiveStart s)
  | .receive => .next (receiveAnswer s)
  | .reset => .next (resetAnswer s)
  | .transmit _ => .next s

/-! ### MCLEAR -/

/-- MCLEAR (44_messenger.md R258). -/
def execMclear (s : State) : Host.Outcome State Fault Refusal :=
  .next (complete .ok (setMState (setMrValid (accClear s) false) .idle))

end Sys2Proof.Machine
end

