-- ==== Sys2Proof/Machine/Dispatch.lean ====
section
/-! DEFINITION. The meaning of each instruction, one arm per constructor. -/

namespace Sys2Proof.Machine

open Sys2Proof

def exec (i : Instr) (s : State) : Host.Outcome State Fault Refusal :=
  match i with
  | .crc16 => Sys2Proof.Machine.execCrc16 s
  | .encode => Sys2Proof.Machine.execEncode s
  | .decode => Sys2Proof.Machine.execDecode s
  | .loadScbk => Sys2Proof.Machine.execLoadScbk s
  | .loadIv => Sys2Proof.Machine.execLoadIv s
  | .deriveKeys => Sys2Proof.Machine.execDeriveKeys s
  | .cryptogram => Sys2Proof.Machine.execCryptogram s
  | .genMac => Sys2Proof.Machine.execGenMac s
  | .verifyMac => Sys2Proof.Machine.execVerifyMac s
  | .encrypt ksel msel => Sys2Proof.Machine.execEncrypt ksel msel s
  | .decrypt ksel msel => Sys2Proof.Machine.execDecrypt ksel msel s
  | .send => Sys2Proof.Machine.execSend s
  | .receive => Sys2Proof.Machine.execReceive s
  | .mclear => Sys2Proof.Machine.execMclear s
  | .regrd sel => Sys2Proof.Machine.execRegrd sel s
  | .regwr sel wdata => Sys2Proof.Machine.execRegwr sel wdata s
  | .bufrd sel off => Sys2Proof.Machine.execBufrd sel off s
  | .bufwr sel off wdata => Sys2Proof.Machine.execBufwr sel off wdata s

end Sys2Proof.Machine
end

