-- ==== Sys2Proof/Machine/Fetch.lean ====
section
/-! DEFINITION. Which agent moves and what it does (00_scope.md R9): the sequencer with the command word in CUR_CMD, the
host with its next transaction, the environment with `rst`. The block fetches nothing from memory
(20_memory.md R88). -/

namespace Sys2Proof.Machine

open Sys2Proof

/-- What a step has found to do. -/
inductive Fetched where
  /-- run an instruction in this state -/
  | run (i : Instr) (s : State)
  /-- no instruction: the state after the step -/
  | settled (s : State)
  deriving DecidableEq, Repr

/-- Who moves: the head of the schedule; past its end the sequencer while BUSY = 1, else the host (log
entry 2). -/
def mover (s : State) : Agent :=
  match s.env.sched with
  | a :: _ => a
  | [] => if s.status.busy then .sequencer else .host

/-- The state with the schedule's head consumed and the draw index of the free values advanced (log
entry 5). -/
def moved (s : State) : State :=
  { s with env := { s.env with sched := s.env.sched.tail }, freeCount := s.freeCount + 1 }

/-- The sequencer's move: the operation of CUR_CMD while BUSY = 1, IllegalOperation if the word selects none
(30_encoding.md R118, R123), nothing while idle. -/
def fetchCommand (s : State) : Fetched :=
  if s.status.busy then
    match decodeCommand s.curCmd with
    | .ok i => .run i s
    | .error _ => .settled (complete .illegalOperation s)
  else .settled s

/-- The host's move: its oldest pending transaction, nothing if it has none. -/
def fetchTransaction (s : State) : Fetched :=
  match s.env.hostQ with
  | [] => .settled s
  | w :: rest => .run (decodeTransaction w) { s with env := { s.env with hostQ := rest } }

def fetch (s : State) : Fetched :=
  match mover s with
  | .sequencer => fetchCommand (moved s)
  | .host => fetchTransaction (moved s)
  | .rst => .settled (assertRst (moved s))

/-- `s` with the command word `w` just accepted and the sequencer to move (30_encoding.md R118). -/
def placeCommand (s : State) (w : BitVec 16) : State :=
  { accept s w with call := .none, env := { s.env with sched := .sequencer :: s.env.sched } }

/-- `s` with the transaction `w` the host's next, and the host to move. -/
def placeTransaction (s : State) (w : BitVec 106) : State :=
  { s with env := { s.env with sched := .host :: s.env.sched, hostQ := w :: s.env.hostQ } }

/-- `s` with the word `w` placed where the next step takes its instruction. -/
def placeWord (s : State) : Encoded → State
  | .command w => placeCommand s w
  | .transaction w => placeTransaction s w

end Sys2Proof.Machine
end

