-- ==== Sys2Proof/Machine/Step.lean ====
section
/-! DEFINITION. One step of the machine (00_scope.md R8, R9; 70_reset_and_hazards.md R365). -/

namespace Sys2Proof.Machine

open Sys2Proof

/-- One step: the agent whose turn it is performs one host transaction, one stretch of an operation, or a
reset, or has nothing to do. -/
def step (s : State) : Host.Outcome State Fault Refusal :=
  match fetch s with
  | .run i t => exec i t
  | .settled t => .next t

/-- `s` with the instruction of a row of spec/opcode_table.json as the next to run (log entry 3): a command
word accepted into CUR_CMD, or a transaction at the head of the host's queue. -/
def State.withFetchWord (s : State) (nbits w : Nat) : State := placeWord s (encodedOfTable nbits w)

end Sys2Proof.Machine
end

