-- ==== Sys2Proof/Safety.lean ====
section
/-! DEFINITION. The terms in which claims about the machine are stated: completion, frames, what an environment
must do, and the invariants of a safe run. -/

namespace Sys2Proof.Machine

open Sys2Proof

/-! ### Results and frames -/

/-- `t` is `s` completed with outcome `o` (60_exceptions.md R310), as far as the completion registers go. -/
def Completed (o : Code) (s t : State) : Prop :=
  t.err = o.number ∧ t.errOp = s.curCmd ∧ t.status.errf = decide (o ≠ .ok) ∧ t.status.done = true ∧
    t.status.busy = false

/-- Every byte of a buffer reads in `t` as in `s`. -/
def SameBytes (b : Buf) (s t : State) : Prop := ∀ off, off < bufSpan → readByte t b off = readByte s b off

/-- Every byte of every buffer but the listed ones reads in `t` as in `s`. -/
def SameBytesBut (bs : List Buf) (s t : State) : Prop := ∀ b, b ∉ bs → SameBytes b s t

/-- `t` with what an operation always writes, and nothing else, taken back to `s`: equal to `s` when the
operation left every other register, all memory and all inputs alone (CUR_CMD, T0 and DL among them, by the
model's choice: log entries 24, 25). -/
def undoCompletion (s t : State) : State :=
  { t with err := s.err, errOp := s.errOp,
           status := { t.status with errf := s.status.errf, done := s.status.done, busy := s.status.busy } }

/-- The operation ended with `o` and changed nothing else (60_exceptions.md R310). -/
def OnlyCompleted (o : Code) (s t : State) : Prop := Completed o s t ∧ undoCompletion s t = s

/-- The transaction was refused: HERR is set, RDATA is 0, nothing else changed (45_host_access.md R270). -/
def Refused (s t : State) : Prop := t = { s with rdata := 0#64, status := { s.status with herr := true } }

/-- Instruction `i` on `s` ends with outcome `o`, and nothing but the completion registers differs from `u`. -/
def Raises (i : Instr) (o : Code) (s u : State) : Prop := ∃ t, exec i s = .next t ∧ OnlyCompleted o u t

/-- Transaction `i` on `s` is refused. -/
def TurnedAway (i : Instr) (s : State) : Prop := ∃ t, exec i s = .next t ∧ Refused s t

/-- Bank MR, its buffers, RXF and CONSUMED hold the decoded frame `f` (41_codec.md R168). -/
def BankHolds (f : Frame) (t : State) : Prop :=
  t.mr.code = f.code ∧ t.mr.addr = f.addr ∧ t.mr.seq = f.sqn ∧ t.mr.secure = f.scb ∧ t.mr.sbtype = f.sbtype ∧
  t.mr.sblen.toNat = f.sbdata.length ∧ memRead t .mrSbdata 0 f.sbdata.length = f.sbdata ∧
  t.mr.plen.toNat = f.payload.length ∧ memRead t .mrPayload 0 f.payload.length = f.payload ∧
  t.mr.len.toNat = f.len ∧ t.mr.crcf = f.crcf ∧ t.mr.macv = BitVec.ofBool f.macv ∧ t.mr.ctrl = f.ctrl ∧
  memRead t .mrMac 0 4 = f.mac ∧ t.rxfLen.toNat = f.len ∧ memRead t .rxf 0 f.len = f.raw ∧
  t.consumed.toNat = f.consumed

/-- `t` with bank MR, RXF_LEN, CONSUMED, MR_VALID and MAC_OK taken back to `s`: what a decode commit, and a
failed decode, write outside the buffers. -/
def undoDecode (s t : State) : State :=
  { t with mr := s.mr, rxfLen := s.rxfLen, consumed := s.consumed,
           status := { t.status with mrValid := s.status.mrValid, macOk := s.status.macOk } }

/-- `t` with what the loop of RECEIVE and its terminal transitions write outside bank MR and the buffers
taken back to `s`. -/
def undoCycle (s t : State) : State :=
  { t with env := s.env, accLen := s.accLen, t0 := s.t0, dl := s.dl, call := s.call,
           status := { t.status with mstate := s.status.mstate } }

/-- A receive cycle ends in `s` with outcome `o` and state Failed (44_messenger.md R250): the answer is
consumed, the accumulator emptied, and nothing else changed (T0 and DL too: log entry 25). -/
def CycleFails (o : Code) (rest : List ReceiveAnswer) (s t : State) : Prop :=
  Completed o s t ∧ t.status.mstate = .failed ∧ t.accLen = 0#32 ∧ t.call = .none ∧
    t.env = { s.env with receiveQ := rest } ∧ t.t0 = s.t0 ∧ t.dl = s.dl ∧ SameBytesBut [.acc] s t ∧
    undoCompletion s (undoCycle s { t with mem := s.mem }) = s

/-- The width of a register that holds what a REGWR writes to it (10_state.md R21, R48): CTRL, DEADLINE,
OPB_LEN and bank MT. -/
def storedWidth (c : Config) (sel : BitVec 8) : Option Nat :=
  match sel.toNat with
  | 0x04 => some 2
  | 0x05 => some c.timeW
  | 0x08 => some 16
  | 0x10 => some 8
  | 0x11 => some 8
  | 0x12 => some 8
  | 0x13 => some 1
  | 0x14 => some 8
  | 0x15 => some 9
  | 0x16 => some 16
  | 0x17 => some 32
  | _ => none

/-- The implemented registers and their widths (10_state.md R21, R30, R48). -/
def registerWidth (c : Config) (sel : BitVec 8) : Option Nat :=
  match sel.toNat with
  | 0x00 => some 16
  | 0x01 => some 16
  | 0x02 => some 8
  | 0x03 => some 16
  | 0x06 => some 16
  | 0x07 => some 32
  | 0x09 => some 16
  | 0x0A => some 32
  | 0x0B => some 16
  | 0x0C => some 8
  | 0x20 => some 8
  | 0x21 => some 8
  | 0x22 => some 2
  | 0x23 => some 1
  | 0x24 => some 8
  | 0x25 => some 8
  | 0x26 => some 16
  | 0x27 => some 16
  | 0x28 => some 1
  | 0x29 => some 1
  | 0x2A => some 8
  | _ => storedWidth c sel

/-- The 14 operations; the other four instructions are host transactions (30_encoding.md R120, R130). -/
def isOperation : Instr → Bool
  | .regrd _ => false
  | .regwr _ _ => false
  | .bufrd _ _ => false
  | .bufwr _ _ _ => false
  | .crc16 => true
  | .encode => true
  | .decode => true
  | .loadScbk => true
  | .loadIv => true
  | .deriveKeys => true
  | .cryptogram => true
  | .genMac => true
  | .verifyMac => true
  | .encrypt _ _ => true
  | .decrypt _ _ => true
  | .send => true
  | .receive => true
  | .mclear => true

/-! ### The environment -/

/-- The environment keeps to RX_CHUNK_MAX (60_exceptions.md R322 (c)); no rule of the block needs it. -/
def ChunksBounded (s : State) : Prop :=
  ∀ r, ReceiveAnswer.bytes r ∈ s.env.receiveQ → r.length ≤ s.cfg.rxChunkMax

/-! ### Invariants -/

/-- The parameters are legal, memory is in its canonical form and lists only bytes that exist, and every
length and tick fits what bounds it (00_scope.md R12, 10_state.md R41). -/
structure Fits (s : State) : Prop where
  legal : s.cfg.Legal
  canonical : s.mem.wf
  inside : s.mem.inside s.cfg
  opb : s.opbLen.toNat ≤ s.cfg.opbCap
  txf : s.txfLen.toNat ≤ s.cfg.frameMax
  acc : s.accLen.toNat ≤ s.cfg.accCap
  deadline : s.deadline.toNat < 2 ^ s.cfg.timeW
  dl : s.dl.toNat < 2 ^ s.cfg.timeW
  t0 : s.t0.toNat < 2 ^ s.cfg.timeW

/-- ERRF says whether ERR is 0 (10_state.md R49), ERR holds a code some operation produces (60_exceptions.md
R300), and DONE and BUSY are never both 1. -/
structure RecordSound (s : State) : Prop where
  errf : s.status.errf = decide (s.err ≠ 0#8)
  produced : ∃ o, o ≠ Code.addressOutOfRange ∧ s.err = o.number
  apart : ¬ (s.status.busy = true ∧ s.status.done = true)

/-- Where the messenger and the call in flight stand (10_state.md R45, R50, R61): a call is in flight only
inside the operation that made it, in the state that operation is then in, and outside RECEIVE the
accumulator is empty. While BUSY = 1 the flags of 20_memory.md R79 are as at acceptance, but for TXF_V while
SEND waits, and for MR_VALID and MAC_OK, then 0, while RECEIVE does (log entry 22). -/
structure MessengerSound (s : State) : Prop where
  idle : s.status.busy = false → s.call = .none
  quiet : s.call = .none → s.status.mstate ≠ .sending ∧ s.accLen = 0#32
  transmit : ∀ f, s.call = .transmit f → s.curCmd = 0x000C#16 ∧ s.status.mstate = .sending ∧ s.accLen = 0#32
  receive : s.call = .receive →
    s.curCmd = 0x000D#16 ∧ s.status.mstate = .awaitingResponse ∧ s.status.mrValid = false
  reset : s.call = .reset → s.curCmd = 0x000D#16 ∧ s.status.mstate = .timedOut ∧ s.accLen = 0#32
  unmoved : s.status.busy = true → s.call = .none → s.held = s.status.hold
  sent : ∀ f, s.call = .transmit f →
    s.status.txfV = true ∧ s.held = { s.status.hold with txfV := s.held.txfV }
  waiting : s.call = .receive ∨ s.call = .reset →
    s.status.mrValid = false ∧ s.status.macOk = false ∧ s.held.txfV = s.status.txfV

/-- The registers of bank MR fit one another and RXF_LEN (10_state.md R30, R31, R44; 41_codec.md R168), and
MAC_OK stands only with MR_VALID (10_state.md R49). -/
structure BankSound (s : State) : Prop where
  addr : s.mr.addr.getLsbD 7 = false
  seq : s.mr.seq = s.mr.ctrl.extractLsb' 0 2
  crcf : s.mr.crcf = s.mr.ctrl.extractLsb' 2 1
  secure : s.mr.secure = s.mr.ctrl.extractLsb' 3 1
  plain : s.mr.secure = 0#1 → s.mr.sbtype = 0#8 ∧ s.mr.sblen = 0#8
  sblen : s.mr.sblen.toNat ≤ 253
  mac : s.mr.macv = 1#1 ↔ s.mr.secure = 1#1 ∧ 0x14 < s.mr.sbtype.toNat
  macLen : s.mr.macv = 1#1 → 14 + s.mr.sblen.toNat ≤ s.mr.len.toNat
  valid : s.status.mrValid = true → 8 ≤ s.mr.len.toNat
  rxf : s.rxfLen = s.mr.len
  macOk : s.status.macOk = true → s.status.mrValid = true

/-- The first `n` bytes of a buffer hold values of their own: none of them is a free value. -/
def Holds (s : State) (b : Buf) (n : Nat) : Prop := ∀ off, off < n → memGet s.mem (cell b off) ≠ none

/-- Every byte below its length of a buffer that the host cannot write, and every byte of a key whose flag
is 1, holds a value (10_state.md R36, R39, R41; 93_implementation_defined.md U2, U3); the session keys
are valid only with their base key. -/
structure ValuesSound (s : State) : Prop where
  base : s.status.skV = true → s.status.scbkV = true
  scbk : s.status.scbkV = true → Holds s .scbk 16
  sEnc : s.status.skV = true → Holds s .sEnc 16
  sMac1 : s.status.skV = true → Holds s .sMac1 16
  sMac2 : s.status.skV = true → Holds s .sMac2 16
  ivc : s.status.ivcV = true → Holds s .ivc 16
  txf : Holds s .txf s.txfLen.toNat
  rxf : Holds s .rxf s.rxfLen.toNat
  acc : Holds s .acc s.accLen.toNat
  res : Holds s .res s.resLen.toNat
  mrPayload : Holds s .mrPayload s.mr.plen.toNat
  mrSbdata : Holds s .mrSbdata s.mr.sblen.toNat

/-- The arrows of the messenger that one step can take, each with its outcome (44_messenger.md R241). Where a step
ends is the model's choice (log entry 11): a SEND whose frame assembly raises passes through Sending inside its
one step, and the arrow to TimedOut is taken while its outcome waits for the answer to `Tx.reset`. -/
def MessengerArrow (s t : State) : Prop :=
  t.status.mstate = s.status.mstate ∨
  (mover s = .rst ∧ t.status.mstate = .idle ∧ t.err = 0#8) ∨
  (mover s = .sequencer ∧ s.status.busy = true ∧
    ((s.curCmd = 0x000E#16 ∧ t.status.mstate = .idle ∧ Completed .ok s t) ∨
     (s.curCmd = 0x000C#16 ∧
        s.status.mstate ∈ [MState.idle, MState.complete, MState.timedOut, MState.failed] ∧
        ((t.status.mstate = .sending ∧ t.status.busy = true ∧ t.call = .transmit (txfFrame t)) ∨
         (t.status.mstate = .failed ∧ ∃ o, o ∈ [Code.invalidSequenceNumber, .secureBlockTooLarge,
            .invalidSecureBlockType, .invalidLength, .invalidKeyLength, .invalidIVLength] ∧ Completed o s t))) ∨
     (s.curCmd = 0x000C#16 ∧ s.status.mstate = .sending ∧
        ((t.status.mstate = .awaitingResponse ∧ Completed .ok s t) ∨
         (t.status.mstate = .failed ∧ Completed .transmitError s t))) ∨
     (s.curCmd = 0x000D#16 ∧ s.status.mstate = .awaitingResponse ∧
        ((t.status.mstate = .complete ∧ Completed .ok s t) ∨
         (t.status.mstate = .failed ∧ ∃ o, o ∈ [Code.invalidStartOfMessage, .invalidLength, .checksumFailed,
            .receiveError, .accumulatorOverflow] ∧ Completed o s t) ∨
         (t.status.mstate = .timedOut ∧ t.status.busy = true ∧ t.call = .reset)))))

end Sys2Proof.Machine
end

