-- ==== Sys2Proof/Certificates/Slice0/Obligations.lean ====
section
/-! DEFINITION. The statements for the provers. Each docstring names the rules of spec/ it formalises. A frame is a
record equation: the state after, with what the instruction writes taken back, is the state before;
bytes are compared through `readByte`. -/

open Sys2Proof Sys2Proof.Machine

/-! ### Encodings -/

/-- 30_encoding.md R119, R120, R130: decoding what the encoder writes gives the instruction back, for every
operand. -/
def Obligations.DecodeAgreesWithEncode : Prop :=
  ∀ i : Instr, decode (encode i) = .ok i

/-- 30_encoding.md R120: a command word that decodes is the one word its operation encodes to. -/
def Obligations.EncodeAgreesWithDecode : Prop :=
  ∀ (w : BitVec 16) (i : Instr), decodeCommand w = .ok i → encode i = .command w ∧ isOperation i = true

/-- 30_encoding.md R123: exactly which words are illegal, and all that an accepted illegal word does. -/
def Obligations.IllegalWords : Prop :=
  (∀ w : BitVec 16, (∃ e, decodeCommand w = .error e) ↔
    (w.extractLsb' 0 8).toNat = 0 ∨ 0x0F ≤ (w.extractLsb' 0 8).toNat ∨ w.extractLsb' 11 5 ≠ 0#5 ∨
    ((w.extractLsb' 8 2 ≠ 0#2 ∨ w.extractLsb' 10 1 ≠ 0#1) ∧ w.extractLsb' 0 8 ≠ 0x0A#8 ∧
      w.extractLsb' 0 8 ≠ 0x0B#8)) ∧
  ∀ (s : State) (e : DecodeError), mover s = .sequencer → s.status.busy = true → decodeCommand s.curCmd = .error e →
    ∃ t, step s = .next t ∧ OnlyCompleted .illegalOperation (moved s) t

/-- 30_encoding.md R130: the fields of a transaction in its packing, and that every word is such a packing;
OFF and WDATA of a kind that ignores them do not matter. -/
def Obligations.TransactionFields : Prop :=
  (∀ (sel : BitVec 8) (off : BitVec 32) (wdata : BitVec 64),
    decodeTransaction (packTransaction 0#2 sel off wdata) = .regrd sel ∧
    decodeTransaction (packTransaction 1#2 sel off wdata) = .regwr sel wdata ∧
    decodeTransaction (packTransaction 2#2 sel off wdata) = .bufrd sel off ∧
    decodeTransaction (packTransaction 3#2 sel off wdata) = .bufwr sel off wdata) ∧
  ∀ w : BitVec 106, ∃ kind sel off wdata, w = packTransaction kind sel off wdata

/-- 30_encoding.md R120 to R122, R130: a few words written out from the tables. -/
def Obligations.FewWordsDecode : Prop :=
  decodeTableWord 16 0x0001 = some .crc16 ∧ decodeTableWord 16 0x0006 = some .deriveKeys ∧
  decodeTableWord 16 0x050A = some (.encrypt .sEnc .mr) ∧ decodeTableWord 16 0x030B = some (.decrypt .sMac2 .mt) ∧
  decodeTableWord 16 0x000D = some .receive ∧ decodeTableWord 16 0x0000 = none ∧
  decodeTableWord 16 0x0801 = none ∧ decodeTableWord 106 (2 + 9 * 4 + 3 * 1024) = some (.bufrd 9 3)

/-! ### The step -/

/-- 00_scope.md R9, 30_encoding.md R118: a step runs the operation that CUR_CMD decodes to, or the host's
oldest transaction, in the state with the schedule's head consumed and the draw index advanced (log
entries 1, 2, 5); an idle agent's step does nothing else. -/
def Obligations.StepRunsInstruction : Prop :=
  ∀ s u : State, u = { s with env := { s.env with sched := s.env.sched.tail }, freeCount := s.freeCount + 1 } →
    (∀ i, mover s = .sequencer → s.status.busy = true → decodeCommand s.curCmd = .ok i → step s = exec i u) ∧
    (mover s = .sequencer → s.status.busy = false → step s = .next u) ∧
    (∀ w rest, mover s = .host → s.env.hostQ = w :: rest →
      step s = exec (decodeTransaction w) { u with env := { u.env with hostQ := rest } }) ∧
    (mover s = .host → s.env.hostQ = [] → step s = .next u)

/-! ### The host port -/

/-- 45_host_access.md R276: while BUSY = 1 every transaction but a REGRD of STATUS is refused. That read returns
the register (R271), in which MAC_OK, MR_VALID and TXF_V are as at acceptance (20_memory.md R79,
70_reset_and_hazards.md R350; log entry 22). -/
def Obligations.BusyRefusal : Prop :=
  ∀ s : State, s.status.busy = true →
    (∀ i, isOperation i = false → i ≠ .regrd 0x01#8 → TurnedAway i s) ∧
    exec (.regrd 0x01#8) s = .next { s with rdata := Status.word { s.status with
      macOk := s.held.macOk, mrValid := s.held.mrValid, txfV := s.held.txfV } |>.setWidth 64 }

/-- 45_host_access.md R272: a register keeps the low bits of its width, a command word is the low 16 bits, and
RDATA is the value zero-extended. -/
def Obligations.RegwrReadsBack : Prop :=
  ∀ s : State, s.status.busy = false →
    (∀ (sel : BitVec 8) (v : BitVec 64) (n : Nat), storedWidth s.cfg sel = some n →
      (sel = 0x08#8 → v.toNat % 65536 ≤ s.cfg.opbCap) →
      ∃ t, exec (.regwr sel v) s = .next t ∧ t.rdata = 0#64 ∧ t.status = s.status ∧
        exec (.regrd sel) t = .next { t with rdata := BitVec.ofNat 64 (v.toNat % 2 ^ n) }) ∧
    (∀ v : BitVec 64, ∃ t, exec (.regwr 0x00#8 v) s = .next t ∧ t.curCmd.toNat = v.toNat % 65536) ∧
    (Fits s → ∀ (sel : BitVec 8) (n : Nat), registerWidth s.cfg sel = some n →
      ∃ x, exec (.regrd sel) s = .next { s with rdata := x } ∧ x.toNat < 2 ^ n)

/-- 45_host_access.md R271, 20_memory.md R80: a REGWR that only stores changes that register and nothing else.
That lowering a length register leaves every byte of its buffer as it was is the model's choice (log entry 23). -/
def Obligations.RegwrKeepsOthers : Prop :=
  ∀ (s t : State) (sel : BitVec 8) (v : BitVec 64) (n : Nat), s.status.busy = false →
    storedWidth s.cfg sel = some n → (sel = 0x08#8 → v.toNat % 65536 ≤ s.cfg.opbCap) →
    exec (.regwr sel v) s = .next t →
    (∀ sel' : BitVec 8, sel' ≠ sel → regValue t sel' = regValue s sel') ∧
    { t with ctrl := s.ctrl, deadline := s.deadline, opbLen := s.opbLen, mt := s.mt, rdata := s.rdata } = s

/-- 45_host_access.md R274: the other refusals, and the REGRD of CMD that is none. -/
def Obligations.Refusals : Prop :=
  ∀ s : State,
    (∀ sel : BitVec 8, registerWidth s.cfg sel = none →
      TurnedAway (.regrd sel) s ∧ ∀ v, TurnedAway (.regwr sel v) s) ∧
    (∀ (sel : BitVec 8) (v : BitVec 64), sel ≠ 0x00#8 → sel ≠ 0x01#8 → storedWidth s.cfg sel = none →
      TurnedAway (.regwr sel v) s) ∧
    (∀ (sel : BitVec 8) (off : BitVec 32) (v : BitVec 64),
      (sel.extractLsb' 4 4 ≠ 0#4 ∨ (bufOfId (sel.extractLsb' 0 4)).cap s.cfg ≤ off.toNat →
        TurnedAway (.bufrd sel off) s ∧ TurnedAway (.bufwr sel off v) s) ∧
      (bufOfId (sel.extractLsb' 0 4) ∉ [Buf.opb, .mtPayload, .mtSbdata] → TurnedAway (.bufwr sel off v) s)) ∧
    (∀ v : BitVec 64, s.cfg.opbCap < v.toNat % 65536 → TurnedAway (.regwr 0x08#8 v) s) ∧
    (s.status.busy = true → ∀ i, isOperation i = false → i ≠ .regrd 0x01#8 → TurnedAway i s) ∧
    (s.status.busy = false → exec (.regrd 0x00#8) s = .next { s with rdata := 0#64 })

/-- 10_state.md R21, R30, R48, R49; 45_host_access.md R271: what a REGRD of each register returns, STATUS bit
by bit; a read changes nothing but RDATA. -/
def Obligations.RegrdReads : Prop :=
  ∀ s : State, s.status.busy = false →
    (∀ p ∈ ([(0x00, 0#64), (0x02, s.err.setWidth 64), (0x03, s.errOp.setWidth 64), (0x04, s.ctrl.setWidth 64),
        (0x05, s.deadline), (0x06, s.crcOut.setWidth 64), (0x07, s.consumed.setWidth 64),
        (0x08, s.opbLen.setWidth 64), (0x09, s.txfLen.setWidth 64), (0x0A, s.accLen.setWidth 64),
        (0x0B, s.rxfLen.setWidth 64), (0x0C, s.resLen.setWidth 64)] ++
       [(0x10, s.mt.code.setWidth 64), (0x11, s.mt.addr.setWidth 64), (0x12, s.mt.seq.setWidth 64),
        (0x13, s.mt.secure.setWidth 64), (0x14, s.mt.sbtype.setWidth 64), (0x15, s.mt.sblen.setWidth 64),
        (0x16, s.mt.plen.setWidth 64), (0x17, s.mt.retries.setWidth 64)] ++
       [(0x20, s.mr.code.setWidth 64), (0x21, s.mr.addr.setWidth 64), (0x22, s.mr.seq.setWidth 64),
        (0x23, s.mr.secure.setWidth 64), (0x24, s.mr.sbtype.setWidth 64), (0x25, s.mr.sblen.setWidth 64),
        (0x26, s.mr.plen.setWidth 64), (0x27, s.mr.len.setWidth 64), (0x28, s.mr.crcf.setWidth 64),
        (0x29, s.mr.macv.setWidth 64), (0x2A, s.mr.ctrl.setWidth 64)] : List (BitVec 8 × BitVec 64)),
      exec (.regrd p.1) s = .next { s with rdata := p.2 }) ∧
    ∃ w : BitVec 64, exec (.regrd 0x01#8) s = .next { s with rdata := w } ∧
      (∀ k, w.getLsbD k = match k with
        | 0 => s.status.busy
        | 1 => s.status.done
        | 2 => s.status.errf
        | 3 => s.status.herr
        | 4 => s.status.macOk
        | 5 => s.status.mrValid
        | 6 => s.status.txfV
        | 8 => s.status.scbkV
        | 9 => s.status.skV
        | 10 => s.status.ivcV
        | 12 => decide (s.status.mstate ∈ [MState.sending, .complete, .failed])
        | 13 => decide (s.status.mstate ∈ [MState.awaitingResponse, .complete])
        | 14 => decide (s.status.mstate ∈ [MState.timedOut, .failed])
        | _ => false)

/-- 45_host_access.md R277, 60_exceptions.md R315: a REGWR of STATUS clears what its bits 1 and 3 name, and
nothing else. -/
def Obligations.StatusWrite : Prop :=
  ∀ (s : State) (v : BitVec 64), s.status.busy = false →
    ∃ t, exec (.regwr 0x01#8 v) s = .next t ∧
      t = { s with rdata := 0#64, status := { s.status with done := s.status.done && !v.getLsbD 1,
                                                            herr := s.status.herr && !v.getLsbD 3 } } ∧
      (v.getLsbD 1 = true → irq t = false)

/-- 45_host_access.md R275: BUFRD and BUFWR, performed and refused; a byte written reads back and no other
byte and no register changes. -/
def Obligations.BufferAccess : Prop :=
  ∀ (s : State) (sel : BitVec 8) (off : BitVec 32) (wdata : BitVec 64) (b : Buf), b = bufOfId (sel.extractLsb' 0 4) →
    if s.status.busy = true ∨ sel.extractLsb' 4 4 ≠ 0#4 ∨ b.cap s.cfg ≤ off.toNat then
      TurnedAway (.bufrd sel off) s ∧ TurnedAway (.bufwr sel off wdata) s
    else
      exec (.bufrd sel off) s = .next { s with rdata := (readByte s b off.toNat).setWidth 64 } ∧
      if b ∈ [Buf.opb, .mtPayload, .mtSbdata] then
        ∃ t, exec (.bufwr sel off wdata) s = .next t ∧ t.rdata = 0#64 ∧
          readByte t b off.toNat = wdata.setWidth 8 ∧
          (∀ b' off', off' < bufSpan → ¬ (b' = b ∧ off' = off.toNat) → readByte t b' off' = readByte s b' off') ∧
          { t with rdata := s.rdata, mem := s.mem } = s
      else TurnedAway (.bufwr sel off wdata) s

/-- 30_encoding.md R118: a REGWR of CMD is accepted when BUSY = 0 and refused when BUSY = 1. `held` takes the flags
that STATUS shows until BUSY falls (20_memory.md R79, log entry 22). -/
def Obligations.CommandAccepted : Prop :=
  ∀ (s : State) (v : BitVec 64),
    (s.status.busy = false → exec (.regwr 0x00#8 v) s = .next { s with
      rdata := 0#64, curCmd := v.setWidth 16, status := { s.status with busy := true, done := false },
      held := { macOk := s.status.macOk, mrValid := s.status.mrValid, txfV := s.status.txfV } }) ∧
    (s.status.busy = true → TurnedAway (.regwr 0x00#8 v) s)

/-- 60_exceptions.md R315: `irq` is DONE and IE. After a completion it is IE; a REGWR of CTRL masks or unmasks it,
one of STATUS clears it with DONE, an accepted command lowers it, and no other transaction moves it. -/
def Obligations.InterruptRequest : Prop :=
  ∀ s : State, irq s = (s.status.done && s.ctrl.getLsbD 0) ∧
    (∀ i t o, isOperation i = true → exec i s = .next t → Completed o s t → irq t = s.ctrl.getLsbD 0) ∧
    (s.status.busy = false → ∀ v : BitVec 64,
      (∃ t, exec (.regwr 0x04#8 v) s = .next t ∧ irq t = (s.status.done && v.getLsbD 0)) ∧
      (∃ t, exec (.regwr 0x01#8 v) s = .next t ∧ irq t = (irq s && !v.getLsbD 1)) ∧
      (∃ t, exec (.regwr 0x00#8 v) s = .next t ∧ irq t = false)) ∧
    (∀ i t, isOperation i = false → (∀ sel v, i = .regwr sel v → sel ∉ [0x00#8, 0x01#8, 0x04#8]) →
      exec i s = .next t → irq t = irq s)

/-- 10_state.md R30, R41, R48; 45_host_access.md R271, R275: whatever the host does, it changes only the
registers and buffers the tables call writable, BUSY, DONE, HERR, CUR_CMD, RDATA and the record of the flags at
acceptance (log entry 22). -/
def Obligations.HostWritesOnly : Prop :=
  ∀ (i : Instr) (s t : State), isOperation i = false → exec i s = .next t →
    SameBytesBut [.opb, .mtPayload, .mtSbdata] s t ∧
    { t with rdata := s.rdata, ctrl := s.ctrl, deadline := s.deadline, opbLen := s.opbLen, mt := s.mt, mem := s.mem,
             curCmd := s.curCmd, held := s.held,
             status := { t.status with busy := s.status.busy, done := s.status.done, herr := s.status.herr } } = s

/-! ### What the operations write -/

/-- 10_state.md R25, R27, R42, R52, R53: no operation writes OPB, OPB_LEN, CTRL, DEADLINE, HERR, MT_SBDATA or a
register of bank MT; only ENCRYPT and DECRYPT of bank MT write its payload and MT_PLEN; only GEN_MAC and
SEND write MT_MAC. That CUR_CMD still holds the word once BUSY is 0 is the model's choice (log entry 24). -/
def Obligations.OperationsKeepHostState : Prop :=
  ∀ (i : Instr) (s t : State), isOperation i = true → exec i s = .next t →
    t.cfg = s.cfg ∧ t.freeCount = s.freeCount ∧ t.held = s.held ∧ t.rdata = s.rdata ∧ t.ctrl = s.ctrl ∧ t.deadline = s.deadline ∧
    t.opbLen = s.opbLen ∧ t.curCmd = s.curCmd ∧ t.status.herr = s.status.herr ∧
    { t.mt with plen := s.mt.plen } = s.mt ∧ SameBytes .opb s t ∧ SameBytes .mtSbdata s t ∧
    ((∀ k, i ≠ .encrypt k .mt ∧ i ≠ .decrypt k .mt) → t.mt.plen = s.mt.plen ∧ SameBytes .mtPayload s t) ∧
    (i ≠ .genMac → i ≠ .send → SameBytes .mtMac s t)

/-- 10_state.md R30, R36, R38, R41, R43, R46, R49: which operations can write each key, each validity flag and
MAC_OK, each result register and each result buffer. -/
def Obligations.OperationsWriteOnlyTheirResults : Prop :=
  ∀ (i : Instr) (s t : State), s.cfg.Legal → isOperation i = true → exec i s = .next t →
    (i ≠ .loadScbk → SameBytes .scbk s t ∧ t.status.scbkV = s.status.scbkV) ∧
    (i ≠ .loadScbk → i ≠ .deriveKeys → SameBytes .sEnc s t ∧ SameBytes .sMac1 s t ∧ SameBytes .sMac2 s t ∧
      t.status.skV = s.status.skV) ∧
    (i ≠ .loadScbk → i ≠ .deriveKeys → i ≠ .loadIv → t.status.ivcV = s.status.ivcV) ∧
    (i ∈ [Instr.crc16, .encode, .decode, .cryptogram, .receive, .mclear] → SameBytes .ivc s t) ∧
    (i ≠ .cryptogram → t.resLen = s.resLen ∧ SameBytes .res s t) ∧
    (i ≠ .crc16 → t.crcOut = s.crcOut) ∧
    (i ≠ .encode → i ≠ .genMac → i ≠ .send →
      t.txfLen = s.txfLen ∧ t.status.txfV = s.status.txfV ∧ SameBytes .txf s t) ∧
    (i ≠ .decode → i ≠ .receive → { t.mr with plen := s.mr.plen } = s.mr ∧ t.rxfLen = s.rxfLen ∧
      t.consumed = s.consumed ∧ SameBytes .rxf s t ∧ SameBytes .mrSbdata s t ∧ SameBytes .mrMac s t) ∧
    (i ≠ .receive → i ≠ .mclear → t.accLen = s.accLen ∧ SameBytes .acc s t) ∧
    (i ≠ .decode → i ≠ .receive → (∀ k, i ≠ .encrypt k .mr ∧ i ≠ .decrypt k .mr) →
      t.mr.plen = s.mr.plen ∧ SameBytes .mrPayload s t) ∧
    (i ∉ [Instr.decode, .receive, .mclear] → t.status.mrValid = s.status.mrValid) ∧
    (i ∉ [Instr.decode, .receive, .mclear, .verifyMac] → t.status.macOk = s.status.macOk) ∧
    (s.status.scbkV = true → t.status.scbkV = true) ∧ (s.status.txfV = true → t.status.txfV = true)

/-- 60_exceptions.md R300, R310: an operation ends with the completion sequence and a code that some operation
produces, or waits for the transceiver with ERR, ERR_OP and the completion flags as they were (log entry 11), and
then, by 20_memory.md R79, the STATUS register has changed in MSTATE alone (log entry 22). -/
def Obligations.EveryOperationEndsOrWaits : Prop :=
  ∀ (i : Instr) (s : State), isOperation i = true → ∃ t, exec i s = .next t ∧
    ((∃ o, o ≠ Code.addressOutOfRange ∧ Completed o s t) ∨
     ((i = .send ∨ i = .receive) ∧ t.call ≠ .none ∧ t.err = s.err ∧ t.errOp = s.errOp ∧
      t.status.busy = s.status.busy ∧ t.status.done = s.status.done ∧ t.status.errf = s.status.errf ∧
      (s.status.busy = true → { statusRegister t with mstate := s.status.mstate } = statusRegister s)))

/-! ### CRC -/

/-- 40_crc.md R145, R141, R142: CRC16 puts the CRC of the operand into CRC_OUT, 0x1D0F for the empty operand, and
changes nothing else; the register takes each byte as R141 says, starting from 0x1D0F, and the CRC of a string in
two parts accumulates. The polynomial and the initial value are the spec's own general knowledge (log entry 20). -/
def Obligations.Crc16Computes : Prop :=
  (∀ s : State, ∃ t, exec .crc16 s = .next t ∧ Completed .ok s t ∧ t.crcOut = crc16 (opbOperand s) ∧
    (s.opbLen = 0#16 → t.crcOut = 0x1D0F#16) ∧ undoCompletion s { t with crcOut := s.crcOut } = s) ∧
  (∀ a b : Bytes, crc16 (a ++ b) = crcFrom (crc16 a) b) ∧ crc16 [] = 0x1D0F#16 ∧
  (∀ (c : BitVec 16) (x : Byte), crcFrom c [x] =
    (fun v : BitVec 16 => (v <<< 1) ^^^ (if v.msb then 0x1021#16 else 0#16))^[8] (c ^^^ (x.setWidth 16 <<< 8))) ∧
  crc16 ((List.range 9).map (fun k => BitVec.ofNat 8 (0x31 + k))) = 0xE5CC#16

/-- 41_codec.md R170 (c): the CRC detects every error confined to one byte, single-bit errors among them. -/
def Obligations.CrcDetectsOneByte : Prop :=
  ∀ (a b : Bytes) (x y : Byte), x ≠ y → crc16 (a ++ x :: b) ≠ crc16 (a ++ y :: b)

/-- 41_codec.md R170 (c): a frame the encoder built, with any one byte other than SOM and LEN changed in any
way, never decodes: the result is ChecksumFailed, or InvalidLength. -/
def Obligations.CorruptFrameNeverDecodes : Prop :=
  ∀ (s : State) (f : Bytes) (i : Nat) (b : Byte), s.cfg.Legal → encodeMt s = .ok f → i < f.length →
    i ∉ [0, 2, 3] → f[i]? ≠ some b →
    decodeFrame (f.set i b) = .error .checksumFailed ∨ decodeFrame (f.set i b) = .error .invalidLength

/-! ### The codec -/

/-- 30_encoding.md R100 to R111, 41_codec.md R150, R151, R157: when its checks pass ENCODE builds the frame of
bank MT, byte by byte as laid out, in TXF. -/
def Obligations.EncodeBuildsFrame : Prop :=
  ∀ (s : State) (sb front f : Bytes) (mac total : Nat), s.cfg.Legal → s.mt.seq.toNat ≤ 3 →
    (s.mt.secure = 1#1 → s.mt.sblen.toNat ≤ 253 ∧ 0x11 ≤ s.mt.sbtype.toNat ∧ s.mt.sbtype.toNat ≤ 0x18) →
    sb = (if s.mt.secure = 1#1 then
      [BitVec.ofNat 8 (2 + s.mt.sblen.toNat), s.mt.sbtype] ++ memRead s .mtSbdata 0 s.mt.sblen.toNat else []) →
    mac = (if s.mt.secure = 1#1 ∧ 0x14 < s.mt.sbtype.toNat then 4 else 0) →
    total = 5 + sb.length + 1 + s.mt.plen.toNat + mac + 2 → total ≤ s.cfg.frameMax →
    front = [0x53#8, s.mt.addr &&& 0x7F#8, BitVec.ofNat 8 (total % 256), BitVec.ofNat 8 (total / 256),
      BitVec.ofNat 8 (s.mt.seq.toNat + 4 + 8 * s.mt.secure.toNat)] ++ sb ++ [s.mt.code] ++
      memRead s .mtPayload 0 s.mt.plen.toNat ++ List.replicate mac 0#8 →
    f = front ++ [(crc16 front).extractLsb' 0 8, (crc16 front).extractLsb' 8 8] →
    encodeMt s = .ok f ∧ f.length = total ∧
    ∃ t, exec .encode s = .next t ∧ Completed .ok s t ∧ memRead t .txf 0 total = f ∧ t.txfLen.toNat = total ∧
      t.status.txfV = true ∧ SameBytesBut [.txf] s t ∧
      undoCompletion s { t with mem := s.mem, txfLen := s.txfLen,
                                status := { t.status with txfV := s.status.txfV } } = s

/-- 41_codec.md R151, R153 to R156; 60_exceptions.md R303: which error ENCODE raises, in the order of its
checks, and that it then writes nothing. -/
def Obligations.EncodeRaises : Prop :=
  ∀ s : State,
    (3 < s.mt.seq.toNat → Raises .encode .invalidSequenceNumber s s) ∧
    (s.mt.seq.toNat ≤ 3 → s.mt.secure = 1#1 → 253 < s.mt.sblen.toNat → Raises .encode .secureBlockTooLarge s s) ∧
    (s.mt.seq.toNat ≤ 3 → s.mt.secure = 1#1 → s.mt.sblen.toNat ≤ 253 →
      (s.mt.sbtype.toNat < 0x11 ∨ 0x18 < s.mt.sbtype.toNat) → Raises .encode .invalidSecureBlockType s s) ∧
    (s.mt.seq.toNat ≤ 3 →
      (s.mt.secure = 1#1 → s.mt.sblen.toNat ≤ 253 ∧ 0x11 ≤ s.mt.sbtype.toNat ∧ s.mt.sbtype.toNat ≤ 0x18) →
      s.cfg.frameMax < 8 + s.mt.plen.toNat + (if s.mt.secure = 1#1 then 2 + s.mt.sblen.toNat else 0) +
        (if s.mt.secure = 1#1 ∧ 0x14 < s.mt.sbtype.toNat then 4 else 0) →
      Raises .encode .invalidLength s s)

/-- 41_codec.md R170 (a), (b), R162: a frame the encoder built, behind noise that holds no marker and before
any bytes, decodes to the fields it was built from; none of its proper prefixes decodes. -/
def Obligations.DecodeRecoversEncode : Prop :=
  ∀ (s : State) (f noise rest : Bytes), s.cfg.Legal → encodeMt s = .ok f → 0x53#8 ∉ noise →
    (∃ r, decodeFrame (noise ++ f ++ rest) = .ok r ∧ r.code = s.mt.code ∧ r.addr = s.mt.addr &&& 0x7F#8 ∧
      r.sqn.toNat = s.mt.seq.toNat ∧ r.crcf = 1#1 ∧ r.scb = s.mt.secure ∧ r.payload = payload s .mt ∧
      (s.mt.secure = 1#1 → r.sbtype = s.mt.sbtype ∧ r.sbdata = memRead s .mtSbdata 0 s.mt.sblen.toNat) ∧
      (s.mt.secure = 0#1 → r.sbtype = 0#8 ∧ r.sbdata = []) ∧
      r.macv = decide (s.mt.secure = 1#1 ∧ 0x14 < s.mt.sbtype.toNat) ∧ r.mac = [0#8, 0#8, 0#8, 0#8] ∧
      r.raw = f ∧ r.len = f.length ∧ r.consumed = noise.length + f.length) ∧
    ∀ n, n < f.length → decodeFrame (f.take n) = .error .incomplete

/-- 41_codec.md R161, R163, R164, R166, R169; 30_encoding.md R113: the corner cases of `decode` (`len` is LEN, and
its least value grows with the secure block and the MAC field); a frame laid out as R100 says decodes
whatever its reserved bits and its block type are, and with any other trailer it is ChecksumFailed; and
`decode` gives no other error. -/
def Obligations.DecodeCornerCases : Prop :=
  (∀ b : Bytes, b.length < 8 → decodeFrame b = .error .incomplete) ∧
  (∀ b : Bytes, 8 ≤ b.length → 0x53#8 ∉ b → decodeFrame b = .error .invalidStartOfMessage) ∧
  (∀ (noise c : Bytes) (a l0 l1 ctrl sbl ty x : Byte) (len : Nat), 0x53#8 ∉ noise → len = l0.toNat + 256 * l1.toNat →
    let b := noise ++ [0x53#8, a, l0, l1, ctrl, sbl, ty, x] ++ c
    (8 + c.length < len → decodeFrame b = .error .incomplete) ∧
    (len < 8 → decodeFrame b = .error .invalidLength) ∧
    (len ≤ 8 + c.length → ctrl.getLsbD 3 = true →
      (sbl.toNat < 2 ∨ len < 8 + sbl.toNat + (if 0x14 < ty.toNat then 4 else 0)) →
      decodeFrame b = .error .invalidLength)) ∧
  (∀ (noise rest sb data pl mac front : Bytes) (a ctrl ty code x y : Byte) (n : Nat), 0x53#8 ∉ noise →
    (if ctrl.getLsbD 3 = true then data.length ≤ 253 ∧ sb = [BitVec.ofNat 8 (2 + data.length), ty] ++ data
      else sb = []) →
    mac.length = (if ctrl.getLsbD 3 = true ∧ 0x14 < ty.toNat then 4 else 0) →
    n = 5 + sb.length + 1 + pl.length + mac.length + 2 → n < 65536 →
    front = [0x53#8, a, BitVec.ofNat 8 (n % 256), BitVec.ofNat 8 (n / 256), ctrl] ++ sb ++ [code] ++ pl ++ mac →
    if [x, y] = le16 (crc16 front) then
      ∃ r, decodeFrame (noise ++ front ++ [x, y] ++ rest) = .ok r ∧ r.addr = a &&& 0x7F#8 ∧ r.len = n ∧
        r.ctrl = ctrl ∧ r.code = code ∧ r.payload = pl ∧ r.raw = front ++ [x, y] ∧ r.consumed = noise.length + n ∧
        (ctrl.getLsbD 3 = true → r.sbtype = ty ∧ r.sbdata = data) ∧ (mac ≠ [] → r.macv = true ∧ r.mac = mac)
    else decodeFrame (noise ++ front ++ [x, y] ++ rest) = .error .checksumFailed) ∧
  ∀ (b : Bytes) (e : Code), decodeFrame b = .error e →
    e ∈ [Code.incomplete, .invalidStartOfMessage, .invalidLength, .checksumFailed]

/-- 41_codec.md R167, as far as it holds: a result that is neither Incomplete nor InvalidStartOfMessage stays
when bytes are appended (log entry 19: an appended 0x53 does change InvalidStartOfMessage). -/
def Obligations.DecodeResultIsFinal : Prop :=
  ∀ b rest : Bytes,
    (∀ r, decodeFrame b = .ok r → decodeFrame (b ++ rest) = .ok r) ∧
    ∀ e, decodeFrame b = .error e → e ≠ .incomplete → e ≠ .invalidStartOfMessage →
      decodeFrame (b ++ rest) = .error e

/-- 30_encoding.md R100, R105, R108, R110; 41_codec.md R161, R165: the parts of a decoded frame are those of the
layout, read from the buffer behind noise that holds no marker. -/
def Obligations.DecodedFrameParts : Prop :=
  ∀ (b : Bytes) (r : Frame), decodeFrame b = .ok r →
    ∃ (noise rest : Bytes) (a : Byte), b = noise ++ r.raw ++ rest ∧ 0x53#8 ∉ noise ∧
      r.consumed = noise.length + r.len ∧ r.raw.length = r.len ∧ 8 ≤ r.len ∧ r.len < 65536 ∧
      r.raw = [0x53#8, a, BitVec.ofNat 8 (r.len % 256), BitVec.ofNat 8 (r.len / 256), r.ctrl] ++
        (if r.scb = 1#1 then [BitVec.ofNat 8 (2 + r.sbdata.length), r.sbtype] ++ r.sbdata else []) ++ [r.code] ++
        r.payload ++ (if r.macv = true then r.mac else []) ++ le16 (crc16 (r.raw.take (r.len - 2))) ∧
      r.addr = a &&& 0x7F#8 ∧ r.sqn = r.ctrl.extractLsb' 0 2 ∧ r.crcf = r.ctrl.extractLsb' 2 1 ∧
      r.scb = r.ctrl.extractLsb' 3 1 ∧ r.sbdata.length ≤ 253 ∧ r.mac.length = 4 ∧
      (r.scb = 0#1 → r.sbtype = 0#8 ∧ r.sbdata = []) ∧
      r.macv = decide (r.scb = 1#1 ∧ 0x14 < r.sbtype.toNat) ∧ (r.macv = false → r.mac = [0#8, 0#8, 0#8, 0#8])

/-- 41_codec.md R160, R168; 10_state.md R31: DECODE commits a decoded frame whole, and on any other result
clears MR_VALID and MAC_OK and writes nothing else. -/
def Obligations.DecodeCommits : Prop :=
  ∀ s : State,
    (∀ f, decodeFrame (opbOperand s) = .ok f → ∃ t, exec .decode s = .next t ∧ Completed .ok s t ∧
      t.status.mrValid = true ∧ t.status.macOk = false ∧ BankHolds f t ∧
      SameBytesBut [.mrSbdata, .mrPayload, .mrMac, .rxf] s t ∧
      undoCompletion s (undoDecode s { t with mem := s.mem }) = s) ∧
    ∀ e, decodeFrame (opbOperand s) = .error e → ∃ t, exec .decode s = .next t ∧ Completed e s t ∧
      t.status.mrValid = false ∧ t.status.macOk = false ∧ t.mr = s.mr ∧ t.rxfLen = s.rxfLen ∧
      t.consumed = s.consumed ∧ undoCompletion s (undoDecode s t) = s

/-! ### The cipher -/

/-- 42_aes128.md R190: `AES_D` inverts `AES_E`, both ways, for every key and block. -/
def Obligations.CipherInverse : Prop :=
  ∀ k b : Bytes, k.length = 16 → b.length = 16 → aesD k (aesE k b) = b ∧ aesE k (aesD k b) = b

/-- 42_aes128.md R196: the known answer of the source. -/
def Obligations.CipherKnownAnswer : Prop :=
  aesE [0x30#8, 0x31#8, 0x32#8, 0x33#8, 0x34#8, 0x35#8, 0x36#8, 0x37#8, 0x38#8, 0x39#8, 0x3A#8, 0x3B#8, 0x3C#8,
      0x3D#8, 0x3E#8, 0x3F#8]
    [0x01#8, 0x82#8, 0xB0#8, 0xB1#8, 0xB2#8, 0xB3#8, 0xB4#8, 0xB5#8, 0#8, 0#8, 0#8, 0#8, 0#8, 0#8, 0#8, 0#8] =
  [0xBF#8, 0x8D#8, 0xC2#8, 0xA8#8, 0x32#8, 0x9A#8, 0xCB#8, 0x8C#8, 0x67#8, 0xC6#8, 0xD0#8, 0xCD#8, 0x9A#8, 0x45#8,
    0x16#8, 0x82#8]

/-- 42_aes128.md R191, R192: padding reaches the next multiple of 16, stripping undoes it, and strips exactly
the strings that end in a marker and zeros. -/
def Obligations.PaddingInverse : Prop :=
  (∀ s : Bytes, unpad16 (pad16 s) = some s ∧ (pad16 s).length = 16 * (s.length / 16 + 1)) ∧
  ∀ q u : Bytes, unpad16 q = some u ↔ ∃ z, q = u ++ 0x80#8 :: List.replicate z 0#8

/-- 42_aes128.md R193, R194: decryption undoes encryption, and both return the last ciphertext block. -/
def Obligations.ChainingInverse : Prop :=
  ∀ k iv s : Bytes, k.length = 16 → iv.length = 16 → s.length % 16 = 0 → s ≠ [] →
    (cbcEncrypt k iv s).1.length = s.length ∧
    (cbcEncrypt k iv s).2 = (cbcEncrypt k iv s).1.drop (s.length - 16) ∧
    cbcDecrypt k iv (cbcEncrypt k iv s).1 = (s, (cbcEncrypt k iv s).2)

/-! ### The secure channel -/

/-- 43_secure_channel.md R201: LOAD_SCBK; it makes the session keys and the IV invalid, so their bytes are
unspecified (93_implementation_defined.md U3). -/
def Obligations.LoadScbkLoads : Prop :=
  ∀ s : State, (s.opbLen ≠ 16#16 → Raises .loadScbk .invalidKeyLength s s) ∧
    (s.opbLen = 16#16 → ∃ t, exec .loadScbk s = .next t ∧ Completed .ok s t ∧
      keyBytes t .scbk = memRead s .opb 0 16 ∧ t.status.scbkV = true ∧ t.status.skV = false ∧
      t.status.ivcV = false ∧ SameBytesBut [.scbk, .sEnc, .sMac1, .sMac2, .ivc] s t ∧
      undoCompletion s { t with mem := s.mem, status := { t.status with
        scbkV := s.status.scbkV, skV := s.status.skV, ivcV := s.status.ivcV } } = s)

/-- 43_secure_channel.md R202: LOAD_IV. -/
def Obligations.LoadIvLoads : Prop :=
  ∀ s : State, (s.opbLen ≠ 16#16 → Raises .loadIv .invalidIVLength s s) ∧
    (s.opbLen = 16#16 → ∃ t, exec .loadIv s = .next t ∧ Completed .ok s t ∧
      keyBytes t .ivc = memRead s .opb 0 16 ∧ t.status.ivcV = true ∧ SameBytesBut [.ivc] s t ∧
      undoCompletion s { t with mem := s.mem, status := { t.status with ivcV := s.status.ivcV } } = s)

/-- 43_secure_channel.md R203, R204: DERIVE_KEYS; the last two challenge bytes affect nothing, and the IV
becomes invalid. -/
def Obligations.DeriveKeysDerives : Prop :=
  ∀ s : State, (s.status.scbkV = false → Raises .deriveKeys .invalidKeyLength s s) ∧
    (s.status.scbkV = true → s.opbLen ≠ 8#16 → Raises .deriveKeys .invalidChallengeLength s s) ∧
    (s.status.scbkV = true → s.opbLen = 8#16 → ∃ t, exec .deriveKeys s = .next t ∧ Completed .ok s t ∧
      (∀ p ∈ [(Buf.sEnc, 0x82#8), (Buf.sMac1, 0x01#8), (Buf.sMac2, 0x02#8)],
        keyBytes t p.1 = aesE (keyBytes s .scbk)
          ([0x01#8, p.2] ++ memRead s .opb 0 6 ++ List.replicate 8 0#8)) ∧
      t.status.skV = true ∧ t.status.ivcV = false ∧ SameBytesBut [.sEnc, .sMac1, .sMac2, .ivc] s t ∧
      undoCompletion s { t with mem := s.mem, status := { t.status with
        skV := s.status.skV, ivcV := s.status.ivcV } } = s)

/-- 43_secure_channel.md R205: CRYPTOGRAM. -/
def Obligations.CryptogramEncrypts : Prop :=
  ∀ s : State, (s.status.skV = false → Raises .cryptogram .invalidKeyLength s s) ∧
    (s.status.skV = true → s.opbLen ≠ 16#16 → Raises .cryptogram .invalidChallengeLength s s) ∧
    (s.status.skV = true → s.opbLen = 16#16 → ∃ t, exec .cryptogram s = .next t ∧ Completed .ok s t ∧
      memRead t .res 0 16 = aesE (keyBytes s .sEnc) (memRead s .opb 0 16) ∧ t.resLen = 16#8 ∧
      SameBytesBut [.res] s t ∧ undoCompletion s { t with mem := s.mem, resLen := s.resLen } = s)

/-- 43_secure_channel.md R210, R213: GEN_MAC, its checks in order, and the frame, MT_MAC and IVC it leaves. -/
def Obligations.GenMacBuildsFrame : Prop :=
  ∀ s : State, s.cfg.Legal →
    (s.mt.secure = 0#1 ∨ s.mt.sbtype.toNat ≤ 0x14 → Raises .genMac .notSecureMessage s s) ∧
    (s.mt.secure = 1#1 → 0x14 < s.mt.sbtype.toNat →
      (s.status.skV = false → Raises .genMac .invalidKeyLength s s) ∧
      (s.status.skV = true → s.status.ivcV = false → Raises .genMac .invalidIVLength s s) ∧
      (s.status.skV = true → s.status.ivcV = true →
        (∀ e, encodeMt s = .error e → Raises .genMac e s s) ∧
        ∀ f front mac last, encodeMt s = .ok f → front = f.take (f.length - 6) →
          (mac, last) = macOf (keyBytes s .sMac1) (keyBytes s .sMac2) front (keyBytes s .ivc) →
          ∃ t, exec .genMac s = .next t ∧ Completed .ok s t ∧ t.txfLen.toNat = f.length ∧
            memRead t .txf 0 f.length = front ++ mac ++ le16 (crc16 (front ++ mac)) ∧ t.status.txfV = true ∧
            memRead t .mtMac 0 4 = mac ∧ keyBytes t .ivc = last ∧ SameBytesBut [.txf, .mtMac, .ivc] s t ∧
            undoCompletion s { t with mem := s.mem, txfLen := s.txfLen,
                                      status := { t.status with txfV := s.status.txfV } } = s))

/-- 43_secure_channel.md R215: VERIFY_MAC clears MAC_OK, makes its checks in order, and on a match sets MAC_OK
and advances IVC. -/
def Obligations.VerifyMacChecks : Prop :=
  ∀ (s : State) (mac last : Bytes),
    (mac, last) = macOf (keyBytes s .sMac1) (keyBytes s .sMac2) (memRead s .rxf 0 (s.rxfLen.toNat - 6))
      (keyBytes s .ivc) →
    if s.status.mrValid = false then Raises .verifyMac .illegalState s (setMacOk s false)
    else if s.mr.secure = 0#1 ∨ s.mr.macv = 0#1 then Raises .verifyMac .notSecureMessage s (setMacOk s false)
    else if s.status.skV = false then Raises .verifyMac .invalidKeyLength s (setMacOk s false)
    else if s.status.ivcV = false then Raises .verifyMac .invalidIVLength s (setMacOk s false)
    else if mac ≠ memRead s .mrMac 0 4 then Raises .verifyMac .macMismatch s (setMacOk s false)
    else ∃ t, exec .verifyMac s = .next t ∧ Completed .ok s t ∧ t.status.macOk = true ∧ keyBytes t .ivc = last ∧
      SameBytesBut [.ivc] s t ∧
      undoCompletion s { t with mem := s.mem, status := { t.status with macOk := s.status.macOk } } = s

/-- 43_secure_channel.md R220; 30_encoding.md R121, R122: ENCRYPT for every KSEL and MSEL. -/
def Obligations.EncryptTransforms : Prop :=
  ∀ (k : KeySel) (m : BankSel) (s : State),
    if kselFlag s k = false then Raises (.encrypt k m) .invalidKeyLength s s
    else if s.status.ivcV = false then Raises (.encrypt k m) .invalidIVLength s s
    else if 65520 ≤ (mselLen s m).toNat then Raises (.encrypt k m) .invalidLength s s
    else ∃ t, exec (.encrypt k m) s = .next t ∧ Completed .ok s t ∧
      (payload t m, keyBytes t .ivc) = cbcEncrypt (keyBytes s (kselBuf k)) (keyBytes s .ivc) (pad16 (payload s m)) ∧
      (mselLen t m).toNat = 16 * ((mselLen s m).toNat / 16 + 1) ∧ SameBytesBut [mselBuf m, .ivc] s t ∧
      (m = .mt → t.mr = s.mr ∧ { t.mt with plen := s.mt.plen } = s.mt) ∧
      (m = .mr → t.mt = s.mt ∧ { t.mr with plen := s.mr.plen } = s.mr) ∧
      undoCompletion s { t with mem := s.mem, mt := s.mt, mr := s.mr } = s

/-- 43_secure_channel.md R225; 30_encoding.md R121, R122: DECRYPT for every KSEL and MSEL. -/
def Obligations.DecryptTransforms : Prop :=
  ∀ (k : KeySel) (m : BankSel) (s : State) (q last : Bytes),
    (q, last) = cbcDecrypt (keyBytes s (kselBuf k)) (keyBytes s .ivc) (payload s m) →
    if kselFlag s k = false then Raises (.decrypt k m) .invalidKeyLength s s
    else if s.status.ivcV = false then Raises (.decrypt k m) .invalidIVLength s s
    else if (mselLen s m).toNat % 16 ≠ 0 ∨ (mselLen s m).toNat = 0 then Raises (.decrypt k m) .unpaddedCiphertext s s
    else
      ((∀ u z, q ≠ u ++ 0x80#8 :: List.replicate z 0#8) → Raises (.decrypt k m) .unpaddedCiphertext s s) ∧
      ∀ u z, q = u ++ 0x80#8 :: List.replicate z 0#8 → ∃ t, exec (.decrypt k m) s = .next t ∧ Completed .ok s t ∧
        payload t m = u ∧ (mselLen t m).toNat = u.length ∧ keyBytes t .ivc = last ∧
        SameBytesBut [mselBuf m, .ivc] s t ∧
        (m = .mt → t.mr = s.mr ∧ { t.mt with plen := s.mt.plen } = s.mt) ∧
        (m = .mr → t.mt = s.mt ∧ { t.mr with plen := s.mr.plen } = s.mr) ∧
        undoCompletion s { t with mem := s.mem, mt := s.mt, mr := s.mr } = s

/-- 43_secure_channel.md R216: a frame that GEN_MAC built in `s` decodes and verifies in any block `u` that
holds the same MAC keys and IV, and both ends then hold the same IV. -/
def Obligations.MacAgreement : Prop :=
  ∀ s t u : State, s.cfg.Legal → exec .genMac s = .next t → t.err = 0#8 → opbOperand u = txfFrame t →
    u.status.skV = true → u.status.ivcV = true → keyBytes u .sMac1 = keyBytes s .sMac1 →
    keyBytes u .sMac2 = keyBytes s .sMac2 → keyBytes u .ivc = keyBytes s .ivc →
    ∃ u1 u2, exec .decode u = .next u1 ∧ u1.err = 0#8 ∧ exec .verifyMac u1 = .next u2 ∧ u2.err = 0#8 ∧
      u2.status.macOk = true ∧ keyBytes u2 .ivc = keyBytes t .ivc

/-- 43_secure_channel.md R226: DECRYPT, with the IV set back, undoes ENCRYPT, and both leave the last block of
the ciphertext in IVC. -/
def Obligations.PayloadRoundTrip : Prop :=
  ∀ (k : KeySel) (m : BankSel) (s t u : State), (mselLen s m).toNat < 65520 → kselFlag s k = true →
    s.status.ivcV = true → exec (.encrypt k m) s = .next t → payload u m = payload t m →
    kselFlag u k = true → u.status.ivcV = true → keyBytes u (kselBuf k) = keyBytes s (kselBuf k) →
    keyBytes u .ivc = keyBytes s .ivc →
    keyBytes t .ivc = (payload t m).drop ((mselLen t m).toNat - 16) ∧
    ∃ v, exec (.decrypt k m) u = .next v ∧ v.err = 0#8 ∧ payload v m = payload s m ∧
      keyBytes v .ivc = keyBytes t .ivc

/-! ### The messenger -/

/-- 44_messenger.md R245: SEND does what GEN_MAC does on the MAC path and what ENCODE does on the plain path,
then calls `Tx.transmit` with the frame; where that raises, MSTATE is Failed. The call ends the step (log
entry 11). -/
def Obligations.SendAssembles : Prop :=
  ∀ (s : State) (i : Instr), s.call = .none → s.status.mstate ≠ .awaitingResponse →
    i = (if s.ctrl.getLsbD 1 = true ∧ s.mt.secure = 1#1 ∧ 0x14 < s.mt.sbtype.toNat then .genMac else .encode) →
    ∃ u t, exec i s = .next u ∧ exec .send s = .next t ∧
      (u.err ≠ 0#8 → t = { u with status := { u.status with mstate := .failed } }) ∧
      (u.err = 0#8 → t = { u with
        err := s.err, errOp := s.errOp, call := .transmit (memRead u .txf 0 u.txfLen.toNat),
        status := { u.status with mstate := .sending, busy := s.status.busy, done := s.status.done,
                                  errf := s.status.errf } })

/-- 44_messenger.md R245, 10_state.md R62: the answer to `Tx.transmit` ends SEND; while there is none it waits
(70_reset_and_hazards.md R356, as log entry 11 models it). That CUR_CMD, T0 and DL
keep their values is the model's choice (log entries 24, 25). -/
def Obligations.SendAnswered : Prop :=
  ∀ (s : State) (f : Bytes) (rest : List TransmitAnswer), s.call = .transmit f →
    (s.env.transmitQ = .ok :: rest → exec .send s = .next { s with
      env := { s.env with transmitQ := rest }, call := .none, err := 0x00#8, errOp := s.curCmd,
      status := { s.status with mstate := .awaitingResponse, errf := false, done := true, busy := false } }) ∧
    (s.env.transmitQ = .transmitError :: rest → exec .send s = .next { s with
      env := { s.env with transmitQ := rest }, call := .none, err := 0x30#8, errOp := s.curCmd,
      status := { s.status with mstate := .failed, errf := true, done := true, busy := false } }) ∧
    (s.env.transmitQ = [] → exec .send s = .next s)

/-- 44_messenger.md R250, R252; 10_state.md R31: RECEIVE clears MR_VALID and MAC_OK, samples `NOW` into T0, copies
DEADLINE, samples `NOW` again, and calls `Tx.receive`, or with the deadline reached empties the accumulator and
calls `Tx.reset`; bank MR and all else keep their values. -/
def Obligations.ReceiveStarts : Prop :=
  ∀ (s : State) (s1 s2 : State), s.call = .none → s.status.mstate = .awaitingResponse → s1 = sampled s →
    s2 = sampled s1 →
    ∃ t, exec .receive s = .next t ∧ t.t0 = s1.env.now ∧ t.dl = s.deadline ∧ t.status.mrValid = false ∧
      t.status.macOk = false ∧ t.env = s2.env ∧
      (if s.deadline.toNat ≤ elapsed s.cfg s2.env.now s1.env.now then
        t.call = .reset ∧ t.status.mstate = .timedOut ∧ t.accLen = 0#32
       else t.call = .receive ∧ t.status.mstate = .awaitingResponse ∧ t.accLen = s.accLen ∧ SameBytes .acc s t) ∧
      SameBytesBut [.acc] s t ∧ undoCycle s { t with mem := s.mem, status := { t.status with
        mrValid := s.status.mrValid, macOk := s.status.macOk } } = s

/-- 44_messenger.md R250, R254, R255: the answer to `Tx.receive` that ends the cycle, in success or in each
error, and what it then leaves; that T0 and DL keep their values is the model's choice (log entry 25). -/
def Obligations.ReceiveEnds : Prop :=
  ∀ (s : State) (rest : List ReceiveAnswer), s.cfg.Legal → s.call = .receive →
    (s.env.receiveQ = .receiveError :: rest →
      ∃ t, exec .receive s = .next t ∧ CycleFails .receiveError rest s t) ∧
    ∀ r : Bytes, s.env.receiveQ = .bytes r :: rest →
      (s.cfg.accCap < s.accLen.toNat + r.length →
        ∃ t, exec .receive s = .next t ∧ CycleFails .accumulatorOverflow rest s t) ∧
      (s.accLen.toNat + r.length ≤ s.cfg.accCap →
        (∀ e, decodeFrame (accBytes s ++ r) = .error e → e ≠ .incomplete →
          ∃ t, exec .receive s = .next t ∧ CycleFails e rest s t) ∧
        ∀ f, decodeFrame (accBytes s ++ r) = .ok f → ∃ t, exec .receive s = .next t ∧ Completed .ok s t ∧
          t.status.mstate = .complete ∧ t.status.mrValid = true ∧ t.status.macOk = false ∧ t.accLen = 0#32 ∧
          t.call = .none ∧ t.env = { s.env with receiveQ := rest } ∧ t.t0 = s.t0 ∧ t.dl = s.dl ∧ BankHolds f t ∧
          SameBytesBut [.mrSbdata, .mrPayload, .mrMac, .rxf, .acc] s t ∧
          undoCompletion s (undoDecode s (undoCycle s { t with mem := s.mem })) = s)

/-- 44_messenger.md R250, R251, R252: an answer that leaves the accumulator Incomplete is appended, `NOW` is
sampled, and the loop turns; with no answer yet RECEIVE waits (log entry 11). -/
def Obligations.ReceiveAccumulates : Prop :=
  ∀ (s s1 : State) (r : Bytes) (rest : List ReceiveAnswer), s.cfg.Legal → s.call = .receive →
    (s.env.receiveQ = [] → exec .receive s = .next s) ∧
    (s.env.receiveQ = .bytes r :: rest → s.accLen.toNat + r.length ≤ s.cfg.accCap →
      decodeFrame (accBytes s ++ r) = .error .incomplete → s1 = sampled s →
      ∃ t, exec .receive s = .next t ∧ t.env = { s1.env with receiveQ := rest } ∧ t.t0 = s.t0 ∧ t.dl = s.dl ∧
        (if s.dl.toNat ≤ elapsed s.cfg s1.env.now s.t0 then
          t.call = .reset ∧ t.status.mstate = .timedOut ∧ t.accLen = 0#32
         else t.call = .receive ∧ t.status.mstate = s.status.mstate ∧ accBytes t = accBytes s ++ r ∧
          t.accLen.toNat = s.accLen.toNat + r.length) ∧
        SameBytesBut [.acc] s t ∧ undoCycle s { t with mem := s.mem } = s)

/-- 44_messenger.md R252 (b), R253; 60_exceptions.md R323: whatever step is taken, a call of `Tx.reset` is made
only by RECEIVE, and only when at least DL ticks have passed since T0. -/
def Obligations.ResetOnlyAfterDeadline : Prop :=
  ∀ s t : State, step s = .next t → t.call = .reset → s.call = .reset ∨
    (mover s = .sequencer ∧ s.status.busy = true ∧ s.curCmd = 0x000D#16 ∧ t.status.mstate = .timedOut ∧
      t.dl.toNat ≤ elapsed t.cfg t.env.now t.t0)

/-- 44_messenger.md R253: the answer to `Tx.reset` ends RECEIVE with ReceiveTimeout, or with ResetError, and
changes nothing else; MSTATE stays TimedOut. With no answer yet it waits (log entry 11). That T0, DL and CUR_CMD
keep their values is the model's choice (log entries 24, 25). -/
def Obligations.ResetAnswered : Prop :=
  ∀ (s : State) (rest : List ResetAnswer), s.call = .reset →
    (s.env.resetQ = .ok :: rest → exec .receive s = .next { s with
      env := { s.env with resetQ := rest }, call := .none, err := 0x40#8, errOp := s.curCmd,
      status := { s.status with errf := true, done := true, busy := false } }) ∧
    (s.env.resetQ = .resetError :: rest → exec .receive s = .next { s with
      env := { s.env with resetQ := rest }, call := .none, err := 0x32#8, errOp := s.curCmd,
      status := { s.status with errf := true, done := true, busy := false } }) ∧
    (s.env.resetQ = [] → exec .receive s = .next s)

/-- 44_messenger.md R240: a SEND or RECEIVE in the wrong state changes nothing but the completion registers,
and only SEND, RECEIVE and MCLEAR change MSTATE. -/
def Obligations.IllegalStateRefused : Prop :=
  (∀ s : State, s.call = .none →
    (s.status.mstate = .awaitingResponse → Raises .send .illegalState s s) ∧
    (s.status.mstate ≠ .awaitingResponse → Raises .receive .illegalState s s)) ∧
  ∀ (i : Instr) (s t : State), i ≠ .send → i ≠ .receive → i ≠ .mclear → exec i s = .next t →
    t.status.mstate = s.status.mstate ∧ t.call = s.call ∧ t.accLen = s.accLen

/-- 44_messenger.md R258: MCLEAR. -/
def Obligations.MclearReturnsToIdle : Prop :=
  ∀ s : State, ∃ t, exec .mclear s = .next t ∧ Completed .ok s t ∧ t.status.mstate = .idle ∧
    t.status.mrValid = false ∧ t.status.macOk = false ∧ t.accLen = 0#32 ∧ SameBytesBut [.acc] s t ∧
    undoCompletion s { t with mem := s.mem, accLen := s.accLen, status := { t.status with
      mstate := s.status.mstate, mrValid := s.status.mrValid, macOk := s.status.macOk } } = s

/-- 44_messenger.md R240, R241: every change of MSTATE is an arrow of the table, with its outcome. The steps are the
model's choice (log entry 11): a failed frame assembly goes to Failed in one step, through Sending, and the change
to TimedOut comes before its outcome, which the answer to `Tx.reset` decides. -/
def Obligations.MessengerArrows : Prop :=
  ∀ s t : State, MessengerSound s → step s = .next t → MessengerArrow s t

/-! ### Invariants -/

/-- 00_scope.md R12; 10_state.md R41: every step keeps the parameters legal, memory canonical and inside the
buffers, and every length and tick within its bound. -/
def Obligations.FitsKept : Prop :=
  ∀ s t : State, Fits s → step s = .next t → Fits t

/-- 10_state.md R49; 60_exceptions.md R300, R302, R310: every step keeps ERRF = (ERR ≠ 0), ERR a code that is
produced, and BUSY and DONE apart. -/
def Obligations.RecordKept : Prop :=
  ∀ s t : State, RecordSound s → step s = .next t → RecordSound t

/-- 10_state.md R45, R50, R61; 20_memory.md R84: every step keeps the call in flight, MSTATE, CUR_CMD and the
accumulator consistent; so ACC_LEN reads 0 whenever the host can read it. -/
def Obligations.MessengerKept : Prop :=
  (∀ s t : State, MessengerSound s → step s = .next t → MessengerSound t) ∧
  ∀ s : State, MessengerSound s → s.status.busy = false → exec (.regrd 0x0A#8) s = .next { s with rdata := 0#64 }

/-- 10_state.md R30, R31, R44, R49; 41_codec.md R168: every step keeps the registers of bank MR consistent with
one another and with RXF_LEN, and MAC_OK only with MR_VALID. -/
def Obligations.BankKept : Prop :=
  ∀ s t : State, BankSound s → step s = .next t → BankSound t

/-- 10_state.md R36, R39, R41: every step keeps the bytes below the lengths and of the valid keys specified,
in buffers the host cannot write. -/
def Obligations.ValuesKept : Prop :=
  ∀ s t : State, Fits s → ValuesSound s → step s = .next t → ValuesSound t

/-- 10_state.md R64, 70_reset_and_hazards.md R340: after reset every register reads 0, MT_MAC and MR_MAC hold
zeros, no other byte has a value, no call is in flight, and the invariants hold. -/
def Obligations.ResetState : Prop :=
  (∀ (sel : BitVec 8) (n : Nat), registerWidth Config.standard sel = some n →
    exec (.regrd sel) State.reset = .next { State.reset with rdata := 0#64 }) ∧
  (∀ (b : Buf) (off : Nat), off < bufSpan →
    memGet State.reset.mem (cell b off) = if (b = .mtMac ∨ b = .mrMac) ∧ off < 4 then some 0#8 else none) ∧
  State.reset.call = .none ∧ irq State.reset = false ∧ Fits State.reset ∧ RecordSound State.reset ∧
  MessengerSound State.reset ∧ BankSound State.reset ∧ ValuesSound State.reset

/-- 70_reset_and_hazards.md R341: `rst` abandons what runs: the block is as after reset. As in every step the
schedule's head is consumed and the draw index advanced; of the rest of the environment only the answer to the
call in flight is lost (all of this the model's choice: log entries 2, 5, 7, 8 and 17). -/
def Obligations.ResetInput : Prop :=
  ∀ s : State, mover s = .rst → ∃ t, step s = .next t ∧
    { t with cfg := Config.standard, env := Env.quiet, freeCount := 0 } = State.reset ∧ t.cfg = s.cfg ∧
    t.freeCount = s.freeCount + 1 ∧ t.env.sched = s.env.sched.tail ∧ t.env.hostQ = s.env.hostQ ∧
    t.env.nowQ = s.env.nowQ ∧ t.env.now = s.env.now ∧
    t.env.transmitQ = (match s.call with
      | .transmit _ => s.env.transmitQ.tail
      | _ => s.env.transmitQ) ∧
    t.env.receiveQ = (if s.call = .receive then s.env.receiveQ.tail else s.env.receiveQ) ∧
    t.env.resetQ = (if s.call = .reset then s.env.resetQ.tail else s.env.resetQ)
end

