-- ==== Sys2Proof/Laws/Encoding.lean ====
section
/-! SUPPORT. The fields of a packed transaction, and the rows a command word can select. -/

namespace Sys2Proof

/-- One bit of a packed transaction (30_encoding.md R130). -/
theorem getLsbD_packTransaction (k : BitVec 2) (sel : BitVec 8) (off : BitVec 32) (w : BitVec 64) {i : Nat}
    (hi : i < 106) : (packTransaction k sel off w).getLsbD i =
      if i < 2 then k.getLsbD i else if i < 10 then sel.getLsbD (i - 2)
      else if i < 42 then off.getLsbD (i - 10) else w.getLsbD (i - 42) := by
  unfold packTransaction
  simp only [BitVec.getLsbD_or, BitVec.getLsbD_shiftLeft, BitVec.getLsbD_setWidth, hi, decide_true, Bool.true_and]
  have hk : ¬ i < 2 → k.getLsbD i = false := fun h => BitVec.getLsbD_of_ge _ _ (by omega)
  have hs : ¬ i < 10 → sel.getLsbD (i - 2) = false := fun h => BitVec.getLsbD_of_ge _ _ (by omega)
  have ho : ¬ i < 42 → off.getLsbD (i - 10) = false := fun h => BitVec.getLsbD_of_ge _ _ (by omega)
  by_cases h1 : i < 2
  · simp [h1, show i < 10 by omega, show i < 42 by omega]
  · by_cases h2 : i < 10
    · simp [h1, h2, hk h1, show i < 42 by omega, show i - 2 < 106 by omega]
    · by_cases h3 : i < 42
      · simp [h1, h2, h3, hk h1, hs h2, show i - 10 < 106 by omega]
      · simp [h1, h2, h3, hk h1, hs h2, ho h3, show i - 42 < 106 by omega]

@[simp] theorem txKind_packTransaction (k : BitVec 2) (sel : BitVec 8) (off : BitVec 32) (w : BitVec 64) :
    txKind (packTransaction k sel off w) = k := by
  refine BitVec.eq_of_getLsbD_eq fun i hi => ?_
  rw [txKind, BitVec.getLsbD_extractLsb', Nat.zero_add, getLsbD_packTransaction k sel off w (by omega), if_pos hi]
  simp [hi]

@[simp] theorem txSel_packTransaction (k : BitVec 2) (sel : BitVec 8) (off : BitVec 32) (w : BitVec 64) :
    txSel (packTransaction k sel off w) = sel := by
  refine BitVec.eq_of_getLsbD_eq fun i hi => ?_
  rw [txSel, BitVec.getLsbD_extractLsb', getLsbD_packTransaction k sel off w (by omega), if_neg (by omega),
    if_pos (by omega), Nat.add_sub_cancel_left]
  simp [hi]

@[simp] theorem txOff_packTransaction (k : BitVec 2) (sel : BitVec 8) (off : BitVec 32) (w : BitVec 64) :
    txOff (packTransaction k sel off w) = off := by
  refine BitVec.eq_of_getLsbD_eq fun i hi => ?_
  rw [txOff, BitVec.getLsbD_extractLsb', getLsbD_packTransaction k sel off w (by omega), if_neg (by omega),
    if_neg (by omega), if_pos (by omega), Nat.add_sub_cancel_left]
  simp [hi]

@[simp] theorem txWdata_packTransaction (k : BitVec 2) (sel : BitVec 8) (off : BitVec 32) (w : BitVec 64) :
    txWdata (packTransaction k sel off w) = w := by
  refine BitVec.eq_of_getLsbD_eq fun i hi => ?_
  rw [txWdata, BitVec.getLsbD_extractLsb', getLsbD_packTransaction k sel off w (by omega), if_neg (by omega),
    if_neg (by omega), if_neg (by omega), Nat.add_sub_cancel_left]
  simp [hi]

/-- A row of the table whose bits are all fixed selects one word. -/
theorem OpRow.selects_full {r : OpRow} {w : BitVec 16} (hm : r.mask = 0xFFFF#16) (h : r.selects w = true) :
    w = r.bits := by
  have hb : w &&& r.mask = r.bits := by simpa [OpRow.selects] using h
  rw [hm, show (0xFFFF#16 : BitVec 16) = BitVec.allOnes 16 by decide, BitVec.and_allOnes] at hb
  exact hb

/-- A command word that decodes selects the row of its operation (30_encoding.md R120). -/
theorem decodeCommand_ok {w : BitVec 16} {i : Instr} (h : decodeCommand w = .ok i) :
    ∃ r ∈ opTable, r.selects w = true ∧ i = r.op.build w := by
  unfold decodeCommand at h
  split at h
  · rename_i r hr
    exact ⟨r, List.mem_of_find?_eq_some hr, by simpa using List.find?_some hr, (Except.ok.inj h).symm⟩
  · cases h

/-- A command word that does not decode selects no row (30_encoding.md R123). -/
theorem decodeCommand_error {w : BitVec 16} {e : DecodeError} (h : decodeCommand w = .error e) :
    ∀ r ∈ opTable, r.selects w = false := by
  unfold decodeCommand at h
  split at h
  · cases h
  · rename_i hn
    intro r hr
    have := List.find?_eq_none.mp hn r hr
    simpa using this

/-- The word and the instruction of every command word that decodes (30_encoding.md R120). -/
theorem decodeCommand_cases {w : BitVec 16} {i : Instr} (h : decodeCommand w = .ok i) :
    (w, i) ∈ [(0x0001#16, Instr.crc16), (0x0002#16, .encode), (0x0003#16, .decode), (0x0004#16, .loadScbk),
      (0x0005#16, .loadIv), (0x0006#16, .deriveKeys), (0x0007#16, .cryptogram), (0x0008#16, .genMac),
      (0x0009#16, .verifyMac), (0x000C#16, .send), (0x000D#16, .receive), (0x000E#16, .mclear)] ∨
    (w &&& 0xF8FF#16 = 0x000A#16 ∧ i = .encrypt (kselOfBits (cmdKsel w)) (mselOfBits (cmdMsel w))) ∨
    (w &&& 0xF8FF#16 = 0x000B#16 ∧ i = .decrypt (kselOfBits (cmdKsel w)) (mselOfBits (cmdMsel w))) := by
  obtain ⟨r, hr, hs, rfl⟩ := decodeCommand_ok h
  simp only [opTable, List.mem_cons, List.not_mem_nil, or_false] at hr
  rcases hr with rfl | rfl | rfl | rfl | rfl | rfl | rfl | rfl | rfl | rfl | rfl | rfl | rfl | rfl
  case inr.inr.inr.inr.inr.inr.inr.inr.inr.inl =>
    exact .inr (.inl ⟨by simpa [OpRow.selects] using hs, rfl⟩)
  case inr.inr.inr.inr.inr.inr.inr.inr.inr.inr.inl =>
    exact .inr (.inr ⟨by simpa [OpRow.selects] using hs, rfl⟩)
  all_goals
    have hw := OpRow.selects_full rfl hs
    left; subst hw; simp [RowOp.build]

end Sys2Proof
end

