-- ==== Sys2Proof/Laws/State.lean ====
section
/-! SUPPORT. What each named update of the state leaves in each field: one lemma per field per update. -/

namespace Sys2Proof.Machine

open Sys2Proof

/-! ### Equality, field by field -/

theorem status_ext {s t : Status} 
    (h_busy : s.busy = t.busy) (h_done : s.done = t.done) (h_errf : s.errf = t.errf)
    (h_herr : s.herr = t.herr) (h_macOk : s.macOk = t.macOk) (h_mrValid : s.mrValid = t.mrValid)
    (h_txfV : s.txfV = t.txfV) (h_scbkV : s.scbkV = t.scbkV) (h_skV : s.skV = t.skV)
    (h_ivcV : s.ivcV = t.ivcV) (h_mstate : s.mstate = t.mstate) : s = t := by
  cases s; cases t; simp_all

theorem state_ext {s t : State}
    (h_cfg : s.cfg = t.cfg) (h_env : s.env = t.env) (h_freeCount : s.freeCount = t.freeCount)
    (h_rdata : s.rdata = t.rdata) (h_status : s.status = t.status) (h_err : s.err = t.err)
    (h_errOp : s.errOp = t.errOp) (h_ctrl : s.ctrl = t.ctrl) (h_deadline : s.deadline = t.deadline)
    (h_crcOut : s.crcOut = t.crcOut) (h_consumed : s.consumed = t.consumed)
    (h_opbLen : s.opbLen = t.opbLen) (h_txfLen : s.txfLen = t.txfLen) (h_accLen : s.accLen = t.accLen)
    (h_rxfLen : s.rxfLen = t.rxfLen) (h_resLen : s.resLen = t.resLen) (h_mt : s.mt = t.mt)
    (h_mr : s.mr = t.mr) (h_mem : s.mem = t.mem) (h_t0 : s.t0 = t.t0) (h_dl : s.dl = t.dl)
    (h_curCmd : s.curCmd = t.curCmd) (h_call : s.call = t.call)
    (h_held : s.held = t.held) : s = t := by
  cases s; cases t; simp_all

/-! ### The STATUS register -/

@[simp] theorem accept_statusRegister_hold (s : State) (w : BitVec 16) :
    (statusRegister (accept s w)).hold = s.status.hold := rfl

@[simp] theorem complete_statusRegister (o : Code) (s : State) : statusRegister (complete o s) = (complete o s).status := rfl

theorem statusRegister_idle {s : State} (h : s.status.busy = false) : statusRegister s = s.status := by
  simp [statusRegister, h]

/-- What a read of STATUS returns while BUSY = 1 (20_memory.md R79). -/
theorem statusRegister_busy {s : State} (h : s.status.busy = true) :
    statusRegister s = { s.status with macOk := s.held.macOk, mrValid := s.held.mrValid, txfV := s.held.txfV } :=
  if_pos h

/-- Where no flag has been written since the acceptance, the register shows the flags as they stand. -/
theorem statusRegister_eq {s : State} (h : s.held = s.status.hold) : statusRegister s = s.status := by
  simp [statusRegister, h, Status.hold]

/-! ### `complete` -/

@[simp] theorem complete_cfg (o : Code) (s : State) : (complete o s).cfg = s.cfg := rfl
@[simp] theorem complete_env (o : Code) (s : State) : (complete o s).env = s.env := rfl
@[simp] theorem complete_freeCount (o : Code) (s : State) : (complete o s).freeCount = s.freeCount := rfl
@[simp] theorem complete_rdata (o : Code) (s : State) : (complete o s).rdata = s.rdata := rfl
@[simp] theorem complete_status_busy (o : Code) (s : State) : (complete o s).status.busy = false := rfl
@[simp] theorem complete_status_done (o : Code) (s : State) : (complete o s).status.done = true := rfl
@[simp] theorem complete_status_errf (o : Code) (s : State) : (complete o s).status.errf = (o.number != 0#8) := rfl
@[simp] theorem complete_status_herr (o : Code) (s : State) : (complete o s).status.herr = s.status.herr := rfl
@[simp] theorem complete_status_macOk (o : Code) (s : State) : (complete o s).status.macOk = s.status.macOk := rfl
@[simp] theorem complete_status_mrValid (o : Code) (s : State) : (complete o s).status.mrValid = s.status.mrValid := rfl
@[simp] theorem complete_status_txfV (o : Code) (s : State) : (complete o s).status.txfV = s.status.txfV := rfl
@[simp] theorem complete_status_scbkV (o : Code) (s : State) : (complete o s).status.scbkV = s.status.scbkV := rfl
@[simp] theorem complete_status_skV (o : Code) (s : State) : (complete o s).status.skV = s.status.skV := rfl
@[simp] theorem complete_status_ivcV (o : Code) (s : State) : (complete o s).status.ivcV = s.status.ivcV := rfl
@[simp] theorem complete_status_mstate (o : Code) (s : State) : (complete o s).status.mstate = s.status.mstate := rfl
@[simp] theorem complete_err (o : Code) (s : State) : (complete o s).err = o.number := rfl
@[simp] theorem complete_errOp (o : Code) (s : State) : (complete o s).errOp = s.curCmd := rfl
@[simp] theorem complete_ctrl (o : Code) (s : State) : (complete o s).ctrl = s.ctrl := rfl
@[simp] theorem complete_deadline (o : Code) (s : State) : (complete o s).deadline = s.deadline := rfl
@[simp] theorem complete_crcOut (o : Code) (s : State) : (complete o s).crcOut = s.crcOut := rfl
@[simp] theorem complete_consumed (o : Code) (s : State) : (complete o s).consumed = s.consumed := rfl
@[simp] theorem complete_opbLen (o : Code) (s : State) : (complete o s).opbLen = s.opbLen := rfl
@[simp] theorem complete_txfLen (o : Code) (s : State) : (complete o s).txfLen = s.txfLen := rfl
@[simp] theorem complete_accLen (o : Code) (s : State) : (complete o s).accLen = s.accLen := rfl
@[simp] theorem complete_rxfLen (o : Code) (s : State) : (complete o s).rxfLen = s.rxfLen := rfl
@[simp] theorem complete_resLen (o : Code) (s : State) : (complete o s).resLen = s.resLen := rfl
@[simp] theorem complete_mt (o : Code) (s : State) : (complete o s).mt = s.mt := rfl
@[simp] theorem complete_mr (o : Code) (s : State) : (complete o s).mr = s.mr := rfl
@[simp] theorem complete_mem (o : Code) (s : State) : (complete o s).mem = s.mem := rfl
@[simp] theorem complete_t0 (o : Code) (s : State) : (complete o s).t0 = s.t0 := rfl
@[simp] theorem complete_dl (o : Code) (s : State) : (complete o s).dl = s.dl := rfl
@[simp] theorem complete_curCmd (o : Code) (s : State) : (complete o s).curCmd = s.curCmd := rfl
@[simp] theorem complete_call (o : Code) (s : State) : (complete o s).call = s.call := rfl
@[simp] theorem complete_held (o : Code) (s : State) : (complete o s).held = s.held := rfl

/-! ### `accept` -/

@[simp] theorem accept_cfg (s : State) (w : BitVec 16) : (accept s w).cfg = s.cfg := rfl
@[simp] theorem accept_env (s : State) (w : BitVec 16) : (accept s w).env = s.env := rfl
@[simp] theorem accept_freeCount (s : State) (w : BitVec 16) : (accept s w).freeCount = s.freeCount := rfl
@[simp] theorem accept_rdata (s : State) (w : BitVec 16) : (accept s w).rdata = s.rdata := rfl
@[simp] theorem accept_status_busy (s : State) (w : BitVec 16) : (accept s w).status.busy = true := rfl
@[simp] theorem accept_status_done (s : State) (w : BitVec 16) : (accept s w).status.done = false := rfl
@[simp] theorem accept_status_errf (s : State) (w : BitVec 16) : (accept s w).status.errf = s.status.errf := rfl
@[simp] theorem accept_status_herr (s : State) (w : BitVec 16) : (accept s w).status.herr = s.status.herr := rfl
@[simp] theorem accept_status_macOk (s : State) (w : BitVec 16) : (accept s w).status.macOk = s.status.macOk := rfl
@[simp] theorem accept_status_mrValid (s : State) (w : BitVec 16) : (accept s w).status.mrValid = s.status.mrValid := rfl
@[simp] theorem accept_status_txfV (s : State) (w : BitVec 16) : (accept s w).status.txfV = s.status.txfV := rfl
@[simp] theorem accept_status_scbkV (s : State) (w : BitVec 16) : (accept s w).status.scbkV = s.status.scbkV := rfl
@[simp] theorem accept_status_skV (s : State) (w : BitVec 16) : (accept s w).status.skV = s.status.skV := rfl
@[simp] theorem accept_status_ivcV (s : State) (w : BitVec 16) : (accept s w).status.ivcV = s.status.ivcV := rfl
@[simp] theorem accept_status_mstate (s : State) (w : BitVec 16) : (accept s w).status.mstate = s.status.mstate := rfl
@[simp] theorem accept_err (s : State) (w : BitVec 16) : (accept s w).err = s.err := rfl
@[simp] theorem accept_errOp (s : State) (w : BitVec 16) : (accept s w).errOp = s.errOp := rfl
@[simp] theorem accept_ctrl (s : State) (w : BitVec 16) : (accept s w).ctrl = s.ctrl := rfl
@[simp] theorem accept_deadline (s : State) (w : BitVec 16) : (accept s w).deadline = s.deadline := rfl
@[simp] theorem accept_crcOut (s : State) (w : BitVec 16) : (accept s w).crcOut = s.crcOut := rfl
@[simp] theorem accept_consumed (s : State) (w : BitVec 16) : (accept s w).consumed = s.consumed := rfl
@[simp] theorem accept_opbLen (s : State) (w : BitVec 16) : (accept s w).opbLen = s.opbLen := rfl
@[simp] theorem accept_txfLen (s : State) (w : BitVec 16) : (accept s w).txfLen = s.txfLen := rfl
@[simp] theorem accept_accLen (s : State) (w : BitVec 16) : (accept s w).accLen = s.accLen := rfl
@[simp] theorem accept_rxfLen (s : State) (w : BitVec 16) : (accept s w).rxfLen = s.rxfLen := rfl
@[simp] theorem accept_resLen (s : State) (w : BitVec 16) : (accept s w).resLen = s.resLen := rfl
@[simp] theorem accept_mt (s : State) (w : BitVec 16) : (accept s w).mt = s.mt := rfl
@[simp] theorem accept_mr (s : State) (w : BitVec 16) : (accept s w).mr = s.mr := rfl
@[simp] theorem accept_mem (s : State) (w : BitVec 16) : (accept s w).mem = s.mem := rfl
@[simp] theorem accept_t0 (s : State) (w : BitVec 16) : (accept s w).t0 = s.t0 := rfl
@[simp] theorem accept_dl (s : State) (w : BitVec 16) : (accept s w).dl = s.dl := rfl
@[simp] theorem accept_curCmd (s : State) (w : BitVec 16) : (accept s w).curCmd = w := rfl
@[simp] theorem accept_call (s : State) (w : BitVec 16) : (accept s w).call = s.call := rfl
@[simp] theorem accept_held (s : State) (w : BitVec 16) : (accept s w).held = s.status.hold := rfl

/-! ### `acknowledge` -/

@[simp] theorem acknowledge_cfg (s : State) (v : BitVec 16) : (acknowledge s v).cfg = s.cfg := rfl
@[simp] theorem acknowledge_env (s : State) (v : BitVec 16) : (acknowledge s v).env = s.env := rfl
@[simp] theorem acknowledge_freeCount (s : State) (v : BitVec 16) : (acknowledge s v).freeCount = s.freeCount := rfl
@[simp] theorem acknowledge_rdata (s : State) (v : BitVec 16) : (acknowledge s v).rdata = s.rdata := rfl
@[simp] theorem acknowledge_status_busy (s : State) (v : BitVec 16) : (acknowledge s v).status.busy = s.status.busy := rfl
@[simp] theorem acknowledge_status_done (s : State) (v : BitVec 16) : (acknowledge s v).status.done = (s.status.done && !v.getLsbD 1) := rfl
@[simp] theorem acknowledge_status_errf (s : State) (v : BitVec 16) : (acknowledge s v).status.errf = s.status.errf := rfl
@[simp] theorem acknowledge_status_herr (s : State) (v : BitVec 16) : (acknowledge s v).status.herr = (s.status.herr && !v.getLsbD 3) := rfl
@[simp] theorem acknowledge_status_macOk (s : State) (v : BitVec 16) : (acknowledge s v).status.macOk = s.status.macOk := rfl
@[simp] theorem acknowledge_status_mrValid (s : State) (v : BitVec 16) : (acknowledge s v).status.mrValid = s.status.mrValid := rfl
@[simp] theorem acknowledge_status_txfV (s : State) (v : BitVec 16) : (acknowledge s v).status.txfV = s.status.txfV := rfl
@[simp] theorem acknowledge_status_scbkV (s : State) (v : BitVec 16) : (acknowledge s v).status.scbkV = s.status.scbkV := rfl
@[simp] theorem acknowledge_status_skV (s : State) (v : BitVec 16) : (acknowledge s v).status.skV = s.status.skV := rfl
@[simp] theorem acknowledge_status_ivcV (s : State) (v : BitVec 16) : (acknowledge s v).status.ivcV = s.status.ivcV := rfl
@[simp] theorem acknowledge_status_mstate (s : State) (v : BitVec 16) : (acknowledge s v).status.mstate = s.status.mstate := rfl
@[simp] theorem acknowledge_err (s : State) (v : BitVec 16) : (acknowledge s v).err = s.err := rfl
@[simp] theorem acknowledge_errOp (s : State) (v : BitVec 16) : (acknowledge s v).errOp = s.errOp := rfl
@[simp] theorem acknowledge_ctrl (s : State) (v : BitVec 16) : (acknowledge s v).ctrl = s.ctrl := rfl
@[simp] theorem acknowledge_deadline (s : State) (v : BitVec 16) : (acknowledge s v).deadline = s.deadline := rfl
@[simp] theorem acknowledge_crcOut (s : State) (v : BitVec 16) : (acknowledge s v).crcOut = s.crcOut := rfl
@[simp] theorem acknowledge_consumed (s : State) (v : BitVec 16) : (acknowledge s v).consumed = s.consumed := rfl
@[simp] theorem acknowledge_opbLen (s : State) (v : BitVec 16) : (acknowledge s v).opbLen = s.opbLen := rfl
@[simp] theorem acknowledge_txfLen (s : State) (v : BitVec 16) : (acknowledge s v).txfLen = s.txfLen := rfl
@[simp] theorem acknowledge_accLen (s : State) (v : BitVec 16) : (acknowledge s v).accLen = s.accLen := rfl
@[simp] theorem acknowledge_rxfLen (s : State) (v : BitVec 16) : (acknowledge s v).rxfLen = s.rxfLen := rfl
@[simp] theorem acknowledge_resLen (s : State) (v : BitVec 16) : (acknowledge s v).resLen = s.resLen := rfl
@[simp] theorem acknowledge_mt (s : State) (v : BitVec 16) : (acknowledge s v).mt = s.mt := rfl
@[simp] theorem acknowledge_mr (s : State) (v : BitVec 16) : (acknowledge s v).mr = s.mr := rfl
@[simp] theorem acknowledge_mem (s : State) (v : BitVec 16) : (acknowledge s v).mem = s.mem := rfl
@[simp] theorem acknowledge_t0 (s : State) (v : BitVec 16) : (acknowledge s v).t0 = s.t0 := rfl
@[simp] theorem acknowledge_dl (s : State) (v : BitVec 16) : (acknowledge s v).dl = s.dl := rfl
@[simp] theorem acknowledge_curCmd (s : State) (v : BitVec 16) : (acknowledge s v).curCmd = s.curCmd := rfl
@[simp] theorem acknowledge_call (s : State) (v : BitVec 16) : (acknowledge s v).call = s.call := rfl
@[simp] theorem acknowledge_held (s : State) (v : BitVec 16) : (acknowledge s v).held = s.held := rfl

/-! ### `refuse` -/

@[simp] theorem refuse_cfg (s : State) : (refuse s).cfg = s.cfg := rfl
@[simp] theorem refuse_env (s : State) : (refuse s).env = s.env := rfl
@[simp] theorem refuse_freeCount (s : State) : (refuse s).freeCount = s.freeCount := rfl
@[simp] theorem refuse_rdata (s : State) : (refuse s).rdata = 0 := rfl
@[simp] theorem refuse_status_busy (s : State) : (refuse s).status.busy = s.status.busy := rfl
@[simp] theorem refuse_status_done (s : State) : (refuse s).status.done = s.status.done := rfl
@[simp] theorem refuse_status_errf (s : State) : (refuse s).status.errf = s.status.errf := rfl
@[simp] theorem refuse_status_herr (s : State) : (refuse s).status.herr = true := rfl
@[simp] theorem refuse_status_macOk (s : State) : (refuse s).status.macOk = s.status.macOk := rfl
@[simp] theorem refuse_status_mrValid (s : State) : (refuse s).status.mrValid = s.status.mrValid := rfl
@[simp] theorem refuse_status_txfV (s : State) : (refuse s).status.txfV = s.status.txfV := rfl
@[simp] theorem refuse_status_scbkV (s : State) : (refuse s).status.scbkV = s.status.scbkV := rfl
@[simp] theorem refuse_status_skV (s : State) : (refuse s).status.skV = s.status.skV := rfl
@[simp] theorem refuse_status_ivcV (s : State) : (refuse s).status.ivcV = s.status.ivcV := rfl
@[simp] theorem refuse_status_mstate (s : State) : (refuse s).status.mstate = s.status.mstate := rfl
@[simp] theorem refuse_err (s : State) : (refuse s).err = s.err := rfl
@[simp] theorem refuse_errOp (s : State) : (refuse s).errOp = s.errOp := rfl
@[simp] theorem refuse_ctrl (s : State) : (refuse s).ctrl = s.ctrl := rfl
@[simp] theorem refuse_deadline (s : State) : (refuse s).deadline = s.deadline := rfl
@[simp] theorem refuse_crcOut (s : State) : (refuse s).crcOut = s.crcOut := rfl
@[simp] theorem refuse_consumed (s : State) : (refuse s).consumed = s.consumed := rfl
@[simp] theorem refuse_opbLen (s : State) : (refuse s).opbLen = s.opbLen := rfl
@[simp] theorem refuse_txfLen (s : State) : (refuse s).txfLen = s.txfLen := rfl
@[simp] theorem refuse_accLen (s : State) : (refuse s).accLen = s.accLen := rfl
@[simp] theorem refuse_rxfLen (s : State) : (refuse s).rxfLen = s.rxfLen := rfl
@[simp] theorem refuse_resLen (s : State) : (refuse s).resLen = s.resLen := rfl
@[simp] theorem refuse_mt (s : State) : (refuse s).mt = s.mt := rfl
@[simp] theorem refuse_mr (s : State) : (refuse s).mr = s.mr := rfl
@[simp] theorem refuse_mem (s : State) : (refuse s).mem = s.mem := rfl
@[simp] theorem refuse_t0 (s : State) : (refuse s).t0 = s.t0 := rfl
@[simp] theorem refuse_dl (s : State) : (refuse s).dl = s.dl := rfl
@[simp] theorem refuse_curCmd (s : State) : (refuse s).curCmd = s.curCmd := rfl
@[simp] theorem refuse_call (s : State) : (refuse s).call = s.call := rfl
@[simp] theorem refuse_held (s : State) : (refuse s).held = s.held := rfl

/-! ### `setMacOk` -/

@[simp] theorem setMacOk_cfg (s : State) (b : Bool) : (setMacOk s b).cfg = s.cfg := rfl
@[simp] theorem setMacOk_env (s : State) (b : Bool) : (setMacOk s b).env = s.env := rfl
@[simp] theorem setMacOk_freeCount (s : State) (b : Bool) : (setMacOk s b).freeCount = s.freeCount := rfl
@[simp] theorem setMacOk_rdata (s : State) (b : Bool) : (setMacOk s b).rdata = s.rdata := rfl
@[simp] theorem setMacOk_status_busy (s : State) (b : Bool) : (setMacOk s b).status.busy = s.status.busy := rfl
@[simp] theorem setMacOk_status_done (s : State) (b : Bool) : (setMacOk s b).status.done = s.status.done := rfl
@[simp] theorem setMacOk_status_errf (s : State) (b : Bool) : (setMacOk s b).status.errf = s.status.errf := rfl
@[simp] theorem setMacOk_status_herr (s : State) (b : Bool) : (setMacOk s b).status.herr = s.status.herr := rfl
@[simp] theorem setMacOk_status_macOk (s : State) (b : Bool) : (setMacOk s b).status.macOk = b := rfl
@[simp] theorem setMacOk_status_mrValid (s : State) (b : Bool) : (setMacOk s b).status.mrValid = s.status.mrValid := rfl
@[simp] theorem setMacOk_status_txfV (s : State) (b : Bool) : (setMacOk s b).status.txfV = s.status.txfV := rfl
@[simp] theorem setMacOk_status_scbkV (s : State) (b : Bool) : (setMacOk s b).status.scbkV = s.status.scbkV := rfl
@[simp] theorem setMacOk_status_skV (s : State) (b : Bool) : (setMacOk s b).status.skV = s.status.skV := rfl
@[simp] theorem setMacOk_status_ivcV (s : State) (b : Bool) : (setMacOk s b).status.ivcV = s.status.ivcV := rfl
@[simp] theorem setMacOk_status_mstate (s : State) (b : Bool) : (setMacOk s b).status.mstate = s.status.mstate := rfl
@[simp] theorem setMacOk_err (s : State) (b : Bool) : (setMacOk s b).err = s.err := rfl
@[simp] theorem setMacOk_errOp (s : State) (b : Bool) : (setMacOk s b).errOp = s.errOp := rfl
@[simp] theorem setMacOk_ctrl (s : State) (b : Bool) : (setMacOk s b).ctrl = s.ctrl := rfl
@[simp] theorem setMacOk_deadline (s : State) (b : Bool) : (setMacOk s b).deadline = s.deadline := rfl
@[simp] theorem setMacOk_crcOut (s : State) (b : Bool) : (setMacOk s b).crcOut = s.crcOut := rfl
@[simp] theorem setMacOk_consumed (s : State) (b : Bool) : (setMacOk s b).consumed = s.consumed := rfl
@[simp] theorem setMacOk_opbLen (s : State) (b : Bool) : (setMacOk s b).opbLen = s.opbLen := rfl
@[simp] theorem setMacOk_txfLen (s : State) (b : Bool) : (setMacOk s b).txfLen = s.txfLen := rfl
@[simp] theorem setMacOk_accLen (s : State) (b : Bool) : (setMacOk s b).accLen = s.accLen := rfl
@[simp] theorem setMacOk_rxfLen (s : State) (b : Bool) : (setMacOk s b).rxfLen = s.rxfLen := rfl
@[simp] theorem setMacOk_resLen (s : State) (b : Bool) : (setMacOk s b).resLen = s.resLen := rfl
@[simp] theorem setMacOk_mt (s : State) (b : Bool) : (setMacOk s b).mt = s.mt := rfl
@[simp] theorem setMacOk_mr (s : State) (b : Bool) : (setMacOk s b).mr = s.mr := rfl
@[simp] theorem setMacOk_mem (s : State) (b : Bool) : (setMacOk s b).mem = s.mem := rfl
@[simp] theorem setMacOk_t0 (s : State) (b : Bool) : (setMacOk s b).t0 = s.t0 := rfl
@[simp] theorem setMacOk_dl (s : State) (b : Bool) : (setMacOk s b).dl = s.dl := rfl
@[simp] theorem setMacOk_curCmd (s : State) (b : Bool) : (setMacOk s b).curCmd = s.curCmd := rfl
@[simp] theorem setMacOk_call (s : State) (b : Bool) : (setMacOk s b).call = s.call := rfl
@[simp] theorem setMacOk_held (s : State) (b : Bool) : (setMacOk s b).held = s.held := rfl

/-! ### `setMrValid` -/

@[simp] theorem setMrValid_cfg (s : State) (b : Bool) : (setMrValid s b).cfg = s.cfg := rfl
@[simp] theorem setMrValid_env (s : State) (b : Bool) : (setMrValid s b).env = s.env := rfl
@[simp] theorem setMrValid_freeCount (s : State) (b : Bool) : (setMrValid s b).freeCount = s.freeCount := rfl
@[simp] theorem setMrValid_rdata (s : State) (b : Bool) : (setMrValid s b).rdata = s.rdata := rfl
@[simp] theorem setMrValid_status_busy (s : State) (b : Bool) : (setMrValid s b).status.busy = s.status.busy := rfl
@[simp] theorem setMrValid_status_done (s : State) (b : Bool) : (setMrValid s b).status.done = s.status.done := rfl
@[simp] theorem setMrValid_status_errf (s : State) (b : Bool) : (setMrValid s b).status.errf = s.status.errf := rfl
@[simp] theorem setMrValid_status_herr (s : State) (b : Bool) : (setMrValid s b).status.herr = s.status.herr := rfl
@[simp] theorem setMrValid_status_macOk (s : State) (b : Bool) : (setMrValid s b).status.macOk = false := rfl
@[simp] theorem setMrValid_status_mrValid (s : State) (b : Bool) : (setMrValid s b).status.mrValid = b := rfl
@[simp] theorem setMrValid_status_txfV (s : State) (b : Bool) : (setMrValid s b).status.txfV = s.status.txfV := rfl
@[simp] theorem setMrValid_status_scbkV (s : State) (b : Bool) : (setMrValid s b).status.scbkV = s.status.scbkV := rfl
@[simp] theorem setMrValid_status_skV (s : State) (b : Bool) : (setMrValid s b).status.skV = s.status.skV := rfl
@[simp] theorem setMrValid_status_ivcV (s : State) (b : Bool) : (setMrValid s b).status.ivcV = s.status.ivcV := rfl
@[simp] theorem setMrValid_status_mstate (s : State) (b : Bool) : (setMrValid s b).status.mstate = s.status.mstate := rfl
@[simp] theorem setMrValid_err (s : State) (b : Bool) : (setMrValid s b).err = s.err := rfl
@[simp] theorem setMrValid_errOp (s : State) (b : Bool) : (setMrValid s b).errOp = s.errOp := rfl
@[simp] theorem setMrValid_ctrl (s : State) (b : Bool) : (setMrValid s b).ctrl = s.ctrl := rfl
@[simp] theorem setMrValid_deadline (s : State) (b : Bool) : (setMrValid s b).deadline = s.deadline := rfl
@[simp] theorem setMrValid_crcOut (s : State) (b : Bool) : (setMrValid s b).crcOut = s.crcOut := rfl
@[simp] theorem setMrValid_consumed (s : State) (b : Bool) : (setMrValid s b).consumed = s.consumed := rfl
@[simp] theorem setMrValid_opbLen (s : State) (b : Bool) : (setMrValid s b).opbLen = s.opbLen := rfl
@[simp] theorem setMrValid_txfLen (s : State) (b : Bool) : (setMrValid s b).txfLen = s.txfLen := rfl
@[simp] theorem setMrValid_accLen (s : State) (b : Bool) : (setMrValid s b).accLen = s.accLen := rfl
@[simp] theorem setMrValid_rxfLen (s : State) (b : Bool) : (setMrValid s b).rxfLen = s.rxfLen := rfl
@[simp] theorem setMrValid_resLen (s : State) (b : Bool) : (setMrValid s b).resLen = s.resLen := rfl
@[simp] theorem setMrValid_mt (s : State) (b : Bool) : (setMrValid s b).mt = s.mt := rfl
@[simp] theorem setMrValid_mr (s : State) (b : Bool) : (setMrValid s b).mr = s.mr := rfl
@[simp] theorem setMrValid_mem (s : State) (b : Bool) : (setMrValid s b).mem = s.mem := rfl
@[simp] theorem setMrValid_t0 (s : State) (b : Bool) : (setMrValid s b).t0 = s.t0 := rfl
@[simp] theorem setMrValid_dl (s : State) (b : Bool) : (setMrValid s b).dl = s.dl := rfl
@[simp] theorem setMrValid_curCmd (s : State) (b : Bool) : (setMrValid s b).curCmd = s.curCmd := rfl
@[simp] theorem setMrValid_call (s : State) (b : Bool) : (setMrValid s b).call = s.call := rfl
@[simp] theorem setMrValid_held (s : State) (b : Bool) : (setMrValid s b).held = s.held := rfl

/-! ### `setTxfV` -/

@[simp] theorem setTxfV_cfg (s : State) : (setTxfV s).cfg = s.cfg := rfl
@[simp] theorem setTxfV_env (s : State) : (setTxfV s).env = s.env := rfl
@[simp] theorem setTxfV_freeCount (s : State) : (setTxfV s).freeCount = s.freeCount := rfl
@[simp] theorem setTxfV_rdata (s : State) : (setTxfV s).rdata = s.rdata := rfl
@[simp] theorem setTxfV_status_busy (s : State) : (setTxfV s).status.busy = s.status.busy := rfl
@[simp] theorem setTxfV_status_done (s : State) : (setTxfV s).status.done = s.status.done := rfl
@[simp] theorem setTxfV_status_errf (s : State) : (setTxfV s).status.errf = s.status.errf := rfl
@[simp] theorem setTxfV_status_herr (s : State) : (setTxfV s).status.herr = s.status.herr := rfl
@[simp] theorem setTxfV_status_macOk (s : State) : (setTxfV s).status.macOk = s.status.macOk := rfl
@[simp] theorem setTxfV_status_mrValid (s : State) : (setTxfV s).status.mrValid = s.status.mrValid := rfl
@[simp] theorem setTxfV_status_txfV (s : State) : (setTxfV s).status.txfV = true := rfl
@[simp] theorem setTxfV_status_scbkV (s : State) : (setTxfV s).status.scbkV = s.status.scbkV := rfl
@[simp] theorem setTxfV_status_skV (s : State) : (setTxfV s).status.skV = s.status.skV := rfl
@[simp] theorem setTxfV_status_ivcV (s : State) : (setTxfV s).status.ivcV = s.status.ivcV := rfl
@[simp] theorem setTxfV_status_mstate (s : State) : (setTxfV s).status.mstate = s.status.mstate := rfl
@[simp] theorem setTxfV_err (s : State) : (setTxfV s).err = s.err := rfl
@[simp] theorem setTxfV_errOp (s : State) : (setTxfV s).errOp = s.errOp := rfl
@[simp] theorem setTxfV_ctrl (s : State) : (setTxfV s).ctrl = s.ctrl := rfl
@[simp] theorem setTxfV_deadline (s : State) : (setTxfV s).deadline = s.deadline := rfl
@[simp] theorem setTxfV_crcOut (s : State) : (setTxfV s).crcOut = s.crcOut := rfl
@[simp] theorem setTxfV_consumed (s : State) : (setTxfV s).consumed = s.consumed := rfl
@[simp] theorem setTxfV_opbLen (s : State) : (setTxfV s).opbLen = s.opbLen := rfl
@[simp] theorem setTxfV_txfLen (s : State) : (setTxfV s).txfLen = s.txfLen := rfl
@[simp] theorem setTxfV_accLen (s : State) : (setTxfV s).accLen = s.accLen := rfl
@[simp] theorem setTxfV_rxfLen (s : State) : (setTxfV s).rxfLen = s.rxfLen := rfl
@[simp] theorem setTxfV_resLen (s : State) : (setTxfV s).resLen = s.resLen := rfl
@[simp] theorem setTxfV_mt (s : State) : (setTxfV s).mt = s.mt := rfl
@[simp] theorem setTxfV_mr (s : State) : (setTxfV s).mr = s.mr := rfl
@[simp] theorem setTxfV_mem (s : State) : (setTxfV s).mem = s.mem := rfl
@[simp] theorem setTxfV_t0 (s : State) : (setTxfV s).t0 = s.t0 := rfl
@[simp] theorem setTxfV_dl (s : State) : (setTxfV s).dl = s.dl := rfl
@[simp] theorem setTxfV_curCmd (s : State) : (setTxfV s).curCmd = s.curCmd := rfl
@[simp] theorem setTxfV_call (s : State) : (setTxfV s).call = s.call := rfl
@[simp] theorem setTxfV_held (s : State) : (setTxfV s).held = s.held := rfl

/-! ### `setKeyFlags` -/

@[simp] theorem setKeyFlags_cfg (s : State) (a b c : Bool) : (setKeyFlags s a b c).cfg = s.cfg := rfl
@[simp] theorem setKeyFlags_env (s : State) (a b c : Bool) : (setKeyFlags s a b c).env = s.env := rfl
@[simp] theorem setKeyFlags_freeCount (s : State) (a b c : Bool) : (setKeyFlags s a b c).freeCount = s.freeCount := rfl
@[simp] theorem setKeyFlags_rdata (s : State) (a b c : Bool) : (setKeyFlags s a b c).rdata = s.rdata := rfl
@[simp] theorem setKeyFlags_status_busy (s : State) (a b c : Bool) : (setKeyFlags s a b c).status.busy = s.status.busy := rfl
@[simp] theorem setKeyFlags_status_done (s : State) (a b c : Bool) : (setKeyFlags s a b c).status.done = s.status.done := rfl
@[simp] theorem setKeyFlags_status_errf (s : State) (a b c : Bool) : (setKeyFlags s a b c).status.errf = s.status.errf := rfl
@[simp] theorem setKeyFlags_status_herr (s : State) (a b c : Bool) : (setKeyFlags s a b c).status.herr = s.status.herr := rfl
@[simp] theorem setKeyFlags_status_macOk (s : State) (a b c : Bool) : (setKeyFlags s a b c).status.macOk = s.status.macOk := rfl
@[simp] theorem setKeyFlags_status_mrValid (s : State) (a b c : Bool) : (setKeyFlags s a b c).status.mrValid = s.status.mrValid := rfl
@[simp] theorem setKeyFlags_status_txfV (s : State) (a b c : Bool) : (setKeyFlags s a b c).status.txfV = s.status.txfV := rfl
@[simp] theorem setKeyFlags_status_scbkV (s : State) (a b c : Bool) : (setKeyFlags s a b c).status.scbkV = a := rfl
@[simp] theorem setKeyFlags_status_skV (s : State) (a b c : Bool) : (setKeyFlags s a b c).status.skV = b := rfl
@[simp] theorem setKeyFlags_status_ivcV (s : State) (a b c : Bool) : (setKeyFlags s a b c).status.ivcV = c := rfl
@[simp] theorem setKeyFlags_status_mstate (s : State) (a b c : Bool) : (setKeyFlags s a b c).status.mstate = s.status.mstate := rfl
@[simp] theorem setKeyFlags_err (s : State) (a b c : Bool) : (setKeyFlags s a b c).err = s.err := rfl
@[simp] theorem setKeyFlags_errOp (s : State) (a b c : Bool) : (setKeyFlags s a b c).errOp = s.errOp := rfl
@[simp] theorem setKeyFlags_ctrl (s : State) (a b c : Bool) : (setKeyFlags s a b c).ctrl = s.ctrl := rfl
@[simp] theorem setKeyFlags_deadline (s : State) (a b c : Bool) : (setKeyFlags s a b c).deadline = s.deadline := rfl
@[simp] theorem setKeyFlags_crcOut (s : State) (a b c : Bool) : (setKeyFlags s a b c).crcOut = s.crcOut := rfl
@[simp] theorem setKeyFlags_consumed (s : State) (a b c : Bool) : (setKeyFlags s a b c).consumed = s.consumed := rfl
@[simp] theorem setKeyFlags_opbLen (s : State) (a b c : Bool) : (setKeyFlags s a b c).opbLen = s.opbLen := rfl
@[simp] theorem setKeyFlags_txfLen (s : State) (a b c : Bool) : (setKeyFlags s a b c).txfLen = s.txfLen := rfl
@[simp] theorem setKeyFlags_accLen (s : State) (a b c : Bool) : (setKeyFlags s a b c).accLen = s.accLen := rfl
@[simp] theorem setKeyFlags_rxfLen (s : State) (a b c : Bool) : (setKeyFlags s a b c).rxfLen = s.rxfLen := rfl
@[simp] theorem setKeyFlags_resLen (s : State) (a b c : Bool) : (setKeyFlags s a b c).resLen = s.resLen := rfl
@[simp] theorem setKeyFlags_mt (s : State) (a b c : Bool) : (setKeyFlags s a b c).mt = s.mt := rfl
@[simp] theorem setKeyFlags_mr (s : State) (a b c : Bool) : (setKeyFlags s a b c).mr = s.mr := rfl
@[simp] theorem setKeyFlags_mem (s : State) (a b c : Bool) : (setKeyFlags s a b c).mem = s.mem := rfl
@[simp] theorem setKeyFlags_t0 (s : State) (a b c : Bool) : (setKeyFlags s a b c).t0 = s.t0 := rfl
@[simp] theorem setKeyFlags_dl (s : State) (a b c : Bool) : (setKeyFlags s a b c).dl = s.dl := rfl
@[simp] theorem setKeyFlags_curCmd (s : State) (a b c : Bool) : (setKeyFlags s a b c).curCmd = s.curCmd := rfl
@[simp] theorem setKeyFlags_call (s : State) (a b c : Bool) : (setKeyFlags s a b c).call = s.call := rfl
@[simp] theorem setKeyFlags_held (s : State) (a b c : Bool) : (setKeyFlags s a b c).held = s.held := rfl

/-! ### `setMState` -/

@[simp] theorem setMState_cfg (s : State) (m : MState) : (setMState s m).cfg = s.cfg := rfl
@[simp] theorem setMState_env (s : State) (m : MState) : (setMState s m).env = s.env := rfl
@[simp] theorem setMState_freeCount (s : State) (m : MState) : (setMState s m).freeCount = s.freeCount := rfl
@[simp] theorem setMState_rdata (s : State) (m : MState) : (setMState s m).rdata = s.rdata := rfl
@[simp] theorem setMState_status_busy (s : State) (m : MState) : (setMState s m).status.busy = s.status.busy := rfl
@[simp] theorem setMState_status_done (s : State) (m : MState) : (setMState s m).status.done = s.status.done := rfl
@[simp] theorem setMState_status_errf (s : State) (m : MState) : (setMState s m).status.errf = s.status.errf := rfl
@[simp] theorem setMState_status_herr (s : State) (m : MState) : (setMState s m).status.herr = s.status.herr := rfl
@[simp] theorem setMState_status_macOk (s : State) (m : MState) : (setMState s m).status.macOk = s.status.macOk := rfl
@[simp] theorem setMState_status_mrValid (s : State) (m : MState) : (setMState s m).status.mrValid = s.status.mrValid := rfl
@[simp] theorem setMState_status_txfV (s : State) (m : MState) : (setMState s m).status.txfV = s.status.txfV := rfl
@[simp] theorem setMState_status_scbkV (s : State) (m : MState) : (setMState s m).status.scbkV = s.status.scbkV := rfl
@[simp] theorem setMState_status_skV (s : State) (m : MState) : (setMState s m).status.skV = s.status.skV := rfl
@[simp] theorem setMState_status_ivcV (s : State) (m : MState) : (setMState s m).status.ivcV = s.status.ivcV := rfl
@[simp] theorem setMState_status_mstate (s : State) (m : MState) : (setMState s m).status.mstate = m := rfl
@[simp] theorem setMState_err (s : State) (m : MState) : (setMState s m).err = s.err := rfl
@[simp] theorem setMState_errOp (s : State) (m : MState) : (setMState s m).errOp = s.errOp := rfl
@[simp] theorem setMState_ctrl (s : State) (m : MState) : (setMState s m).ctrl = s.ctrl := rfl
@[simp] theorem setMState_deadline (s : State) (m : MState) : (setMState s m).deadline = s.deadline := rfl
@[simp] theorem setMState_crcOut (s : State) (m : MState) : (setMState s m).crcOut = s.crcOut := rfl
@[simp] theorem setMState_consumed (s : State) (m : MState) : (setMState s m).consumed = s.consumed := rfl
@[simp] theorem setMState_opbLen (s : State) (m : MState) : (setMState s m).opbLen = s.opbLen := rfl
@[simp] theorem setMState_txfLen (s : State) (m : MState) : (setMState s m).txfLen = s.txfLen := rfl
@[simp] theorem setMState_accLen (s : State) (m : MState) : (setMState s m).accLen = s.accLen := rfl
@[simp] theorem setMState_rxfLen (s : State) (m : MState) : (setMState s m).rxfLen = s.rxfLen := rfl
@[simp] theorem setMState_resLen (s : State) (m : MState) : (setMState s m).resLen = s.resLen := rfl
@[simp] theorem setMState_mt (s : State) (m : MState) : (setMState s m).mt = s.mt := rfl
@[simp] theorem setMState_mr (s : State) (m : MState) : (setMState s m).mr = s.mr := rfl
@[simp] theorem setMState_mem (s : State) (m : MState) : (setMState s m).mem = s.mem := rfl
@[simp] theorem setMState_t0 (s : State) (m : MState) : (setMState s m).t0 = s.t0 := rfl
@[simp] theorem setMState_dl (s : State) (m : MState) : (setMState s m).dl = s.dl := rfl
@[simp] theorem setMState_curCmd (s : State) (m : MState) : (setMState s m).curCmd = s.curCmd := rfl
@[simp] theorem setMState_call (s : State) (m : MState) : (setMState s m).call = s.call := rfl
@[simp] theorem setMState_held (s : State) (m : MState) : (setMState s m).held = s.held := rfl

/-! ### `setCall` -/

@[simp] theorem setCall_cfg (s : State) (c : TxCall) : (setCall s c).cfg = s.cfg := rfl
@[simp] theorem setCall_env (s : State) (c : TxCall) : (setCall s c).env = s.env := rfl
@[simp] theorem setCall_freeCount (s : State) (c : TxCall) : (setCall s c).freeCount = s.freeCount := rfl
@[simp] theorem setCall_rdata (s : State) (c : TxCall) : (setCall s c).rdata = s.rdata := rfl
@[simp] theorem setCall_status (s : State) (c : TxCall) : (setCall s c).status = s.status := rfl
@[simp] theorem setCall_err (s : State) (c : TxCall) : (setCall s c).err = s.err := rfl
@[simp] theorem setCall_errOp (s : State) (c : TxCall) : (setCall s c).errOp = s.errOp := rfl
@[simp] theorem setCall_ctrl (s : State) (c : TxCall) : (setCall s c).ctrl = s.ctrl := rfl
@[simp] theorem setCall_deadline (s : State) (c : TxCall) : (setCall s c).deadline = s.deadline := rfl
@[simp] theorem setCall_crcOut (s : State) (c : TxCall) : (setCall s c).crcOut = s.crcOut := rfl
@[simp] theorem setCall_consumed (s : State) (c : TxCall) : (setCall s c).consumed = s.consumed := rfl
@[simp] theorem setCall_opbLen (s : State) (c : TxCall) : (setCall s c).opbLen = s.opbLen := rfl
@[simp] theorem setCall_txfLen (s : State) (c : TxCall) : (setCall s c).txfLen = s.txfLen := rfl
@[simp] theorem setCall_accLen (s : State) (c : TxCall) : (setCall s c).accLen = s.accLen := rfl
@[simp] theorem setCall_rxfLen (s : State) (c : TxCall) : (setCall s c).rxfLen = s.rxfLen := rfl
@[simp] theorem setCall_resLen (s : State) (c : TxCall) : (setCall s c).resLen = s.resLen := rfl
@[simp] theorem setCall_mt (s : State) (c : TxCall) : (setCall s c).mt = s.mt := rfl
@[simp] theorem setCall_mr (s : State) (c : TxCall) : (setCall s c).mr = s.mr := rfl
@[simp] theorem setCall_mem (s : State) (c : TxCall) : (setCall s c).mem = s.mem := rfl
@[simp] theorem setCall_t0 (s : State) (c : TxCall) : (setCall s c).t0 = s.t0 := rfl
@[simp] theorem setCall_dl (s : State) (c : TxCall) : (setCall s c).dl = s.dl := rfl
@[simp] theorem setCall_curCmd (s : State) (c : TxCall) : (setCall s c).curCmd = s.curCmd := rfl
@[simp] theorem setCall_call (s : State) (c : TxCall) : (setCall s c).call = c := rfl
@[simp] theorem setCall_held (s : State) (c : TxCall) : (setCall s c).held = s.held := rfl

/-! ### `setBuffer` -/

@[simp] theorem setBuffer_cfg (s : State) (b : Buf) (v : Bytes) : (setBuffer s b v).cfg = s.cfg := rfl
@[simp] theorem setBuffer_env (s : State) (b : Buf) (v : Bytes) : (setBuffer s b v).env = s.env := rfl
@[simp] theorem setBuffer_freeCount (s : State) (b : Buf) (v : Bytes) : (setBuffer s b v).freeCount = s.freeCount := rfl
@[simp] theorem setBuffer_rdata (s : State) (b : Buf) (v : Bytes) : (setBuffer s b v).rdata = s.rdata := rfl
@[simp] theorem setBuffer_status (s : State) (b : Buf) (v : Bytes) : (setBuffer s b v).status = s.status := rfl
@[simp] theorem setBuffer_err (s : State) (b : Buf) (v : Bytes) : (setBuffer s b v).err = s.err := rfl
@[simp] theorem setBuffer_errOp (s : State) (b : Buf) (v : Bytes) : (setBuffer s b v).errOp = s.errOp := rfl
@[simp] theorem setBuffer_ctrl (s : State) (b : Buf) (v : Bytes) : (setBuffer s b v).ctrl = s.ctrl := rfl
@[simp] theorem setBuffer_deadline (s : State) (b : Buf) (v : Bytes) : (setBuffer s b v).deadline = s.deadline := rfl
@[simp] theorem setBuffer_crcOut (s : State) (b : Buf) (v : Bytes) : (setBuffer s b v).crcOut = s.crcOut := rfl
@[simp] theorem setBuffer_consumed (s : State) (b : Buf) (v : Bytes) : (setBuffer s b v).consumed = s.consumed := rfl
@[simp] theorem setBuffer_opbLen (s : State) (b : Buf) (v : Bytes) : (setBuffer s b v).opbLen = s.opbLen := rfl
@[simp] theorem setBuffer_txfLen (s : State) (b : Buf) (v : Bytes) : (setBuffer s b v).txfLen = s.txfLen := rfl
@[simp] theorem setBuffer_accLen (s : State) (b : Buf) (v : Bytes) : (setBuffer s b v).accLen = s.accLen := rfl
@[simp] theorem setBuffer_rxfLen (s : State) (b : Buf) (v : Bytes) : (setBuffer s b v).rxfLen = s.rxfLen := rfl
@[simp] theorem setBuffer_resLen (s : State) (b : Buf) (v : Bytes) : (setBuffer s b v).resLen = s.resLen := rfl
@[simp] theorem setBuffer_mt (s : State) (b : Buf) (v : Bytes) : (setBuffer s b v).mt = s.mt := rfl
@[simp] theorem setBuffer_mr (s : State) (b : Buf) (v : Bytes) : (setBuffer s b v).mr = s.mr := rfl
@[simp] theorem setBuffer_mem (s : State) (b : Buf) (v : Bytes) : (setBuffer s b v).mem = memSplice s.mem (cell b 0) (cell b 0 + bufSpan) v := rfl
@[simp] theorem setBuffer_t0 (s : State) (b : Buf) (v : Bytes) : (setBuffer s b v).t0 = s.t0 := rfl
@[simp] theorem setBuffer_dl (s : State) (b : Buf) (v : Bytes) : (setBuffer s b v).dl = s.dl := rfl
@[simp] theorem setBuffer_curCmd (s : State) (b : Buf) (v : Bytes) : (setBuffer s b v).curCmd = s.curCmd := rfl
@[simp] theorem setBuffer_call (s : State) (b : Buf) (v : Bytes) : (setBuffer s b v).call = s.call := rfl
@[simp] theorem setBuffer_held (s : State) (b : Buf) (v : Bytes) : (setBuffer s b v).held = s.held := rfl

/-! ### `memWrite` -/

@[simp] theorem memWrite_cfg (s : State) (b : Buf) (off : Nat) (v : Bytes) : (memWrite s b off v).cfg = s.cfg := rfl
@[simp] theorem memWrite_env (s : State) (b : Buf) (off : Nat) (v : Bytes) : (memWrite s b off v).env = s.env := rfl
@[simp] theorem memWrite_freeCount (s : State) (b : Buf) (off : Nat) (v : Bytes) : (memWrite s b off v).freeCount = s.freeCount := rfl
@[simp] theorem memWrite_rdata (s : State) (b : Buf) (off : Nat) (v : Bytes) : (memWrite s b off v).rdata = s.rdata := rfl
@[simp] theorem memWrite_status (s : State) (b : Buf) (off : Nat) (v : Bytes) : (memWrite s b off v).status = s.status := rfl
@[simp] theorem memWrite_err (s : State) (b : Buf) (off : Nat) (v : Bytes) : (memWrite s b off v).err = s.err := rfl
@[simp] theorem memWrite_errOp (s : State) (b : Buf) (off : Nat) (v : Bytes) : (memWrite s b off v).errOp = s.errOp := rfl
@[simp] theorem memWrite_ctrl (s : State) (b : Buf) (off : Nat) (v : Bytes) : (memWrite s b off v).ctrl = s.ctrl := rfl
@[simp] theorem memWrite_deadline (s : State) (b : Buf) (off : Nat) (v : Bytes) : (memWrite s b off v).deadline = s.deadline := rfl
@[simp] theorem memWrite_crcOut (s : State) (b : Buf) (off : Nat) (v : Bytes) : (memWrite s b off v).crcOut = s.crcOut := rfl
@[simp] theorem memWrite_consumed (s : State) (b : Buf) (off : Nat) (v : Bytes) : (memWrite s b off v).consumed = s.consumed := rfl
@[simp] theorem memWrite_opbLen (s : State) (b : Buf) (off : Nat) (v : Bytes) : (memWrite s b off v).opbLen = s.opbLen := rfl
@[simp] theorem memWrite_txfLen (s : State) (b : Buf) (off : Nat) (v : Bytes) : (memWrite s b off v).txfLen = s.txfLen := rfl
@[simp] theorem memWrite_accLen (s : State) (b : Buf) (off : Nat) (v : Bytes) : (memWrite s b off v).accLen = s.accLen := rfl
@[simp] theorem memWrite_rxfLen (s : State) (b : Buf) (off : Nat) (v : Bytes) : (memWrite s b off v).rxfLen = s.rxfLen := rfl
@[simp] theorem memWrite_resLen (s : State) (b : Buf) (off : Nat) (v : Bytes) : (memWrite s b off v).resLen = s.resLen := rfl
@[simp] theorem memWrite_mt (s : State) (b : Buf) (off : Nat) (v : Bytes) : (memWrite s b off v).mt = s.mt := rfl
@[simp] theorem memWrite_mr (s : State) (b : Buf) (off : Nat) (v : Bytes) : (memWrite s b off v).mr = s.mr := rfl
@[simp] theorem memWrite_mem (s : State) (b : Buf) (off : Nat) (v : Bytes) : (memWrite s b off v).mem = memSplice s.mem (cell b off) (cell b off + v.length) v := rfl
@[simp] theorem memWrite_t0 (s : State) (b : Buf) (off : Nat) (v : Bytes) : (memWrite s b off v).t0 = s.t0 := rfl
@[simp] theorem memWrite_dl (s : State) (b : Buf) (off : Nat) (v : Bytes) : (memWrite s b off v).dl = s.dl := rfl
@[simp] theorem memWrite_curCmd (s : State) (b : Buf) (off : Nat) (v : Bytes) : (memWrite s b off v).curCmd = s.curCmd := rfl
@[simp] theorem memWrite_call (s : State) (b : Buf) (off : Nat) (v : Bytes) : (memWrite s b off v).call = s.call := rfl
@[simp] theorem memWrite_held (s : State) (b : Buf) (off : Nat) (v : Bytes) : (memWrite s b off v).held = s.held := rfl

/-! ### `sampled` -/

@[simp] theorem sampled_cfg (s : State) : (sampled s).cfg = s.cfg := rfl
@[simp] theorem sampled_env (s : State) : (sampled s).env = { s.env with now := nextNow s, nowQ := s.env.nowQ.tail } := rfl
@[simp] theorem sampled_freeCount (s : State) : (sampled s).freeCount = s.freeCount := rfl
@[simp] theorem sampled_rdata (s : State) : (sampled s).rdata = s.rdata := rfl
@[simp] theorem sampled_status (s : State) : (sampled s).status = s.status := rfl
@[simp] theorem sampled_err (s : State) : (sampled s).err = s.err := rfl
@[simp] theorem sampled_errOp (s : State) : (sampled s).errOp = s.errOp := rfl
@[simp] theorem sampled_ctrl (s : State) : (sampled s).ctrl = s.ctrl := rfl
@[simp] theorem sampled_deadline (s : State) : (sampled s).deadline = s.deadline := rfl
@[simp] theorem sampled_crcOut (s : State) : (sampled s).crcOut = s.crcOut := rfl
@[simp] theorem sampled_consumed (s : State) : (sampled s).consumed = s.consumed := rfl
@[simp] theorem sampled_opbLen (s : State) : (sampled s).opbLen = s.opbLen := rfl
@[simp] theorem sampled_txfLen (s : State) : (sampled s).txfLen = s.txfLen := rfl
@[simp] theorem sampled_accLen (s : State) : (sampled s).accLen = s.accLen := rfl
@[simp] theorem sampled_rxfLen (s : State) : (sampled s).rxfLen = s.rxfLen := rfl
@[simp] theorem sampled_resLen (s : State) : (sampled s).resLen = s.resLen := rfl
@[simp] theorem sampled_mt (s : State) : (sampled s).mt = s.mt := rfl
@[simp] theorem sampled_mr (s : State) : (sampled s).mr = s.mr := rfl
@[simp] theorem sampled_mem (s : State) : (sampled s).mem = s.mem := rfl
@[simp] theorem sampled_t0 (s : State) : (sampled s).t0 = s.t0 := rfl
@[simp] theorem sampled_dl (s : State) : (sampled s).dl = s.dl := rfl
@[simp] theorem sampled_curCmd (s : State) : (sampled s).curCmd = s.curCmd := rfl
@[simp] theorem sampled_call (s : State) : (sampled s).call = s.call := rfl
@[simp] theorem sampled_held (s : State) : (sampled s).held = s.held := rfl

/-! ### `moved` -/

@[simp] theorem moved_cfg (s : State) : (moved s).cfg = s.cfg := rfl
@[simp] theorem moved_env (s : State) : (moved s).env = { s.env with sched := s.env.sched.tail } := rfl
@[simp] theorem moved_freeCount (s : State) : (moved s).freeCount = s.freeCount + 1 := rfl
@[simp] theorem moved_rdata (s : State) : (moved s).rdata = s.rdata := rfl
@[simp] theorem moved_status (s : State) : (moved s).status = s.status := rfl
@[simp] theorem moved_err (s : State) : (moved s).err = s.err := rfl
@[simp] theorem moved_errOp (s : State) : (moved s).errOp = s.errOp := rfl
@[simp] theorem moved_ctrl (s : State) : (moved s).ctrl = s.ctrl := rfl
@[simp] theorem moved_deadline (s : State) : (moved s).deadline = s.deadline := rfl
@[simp] theorem moved_crcOut (s : State) : (moved s).crcOut = s.crcOut := rfl
@[simp] theorem moved_consumed (s : State) : (moved s).consumed = s.consumed := rfl
@[simp] theorem moved_opbLen (s : State) : (moved s).opbLen = s.opbLen := rfl
@[simp] theorem moved_txfLen (s : State) : (moved s).txfLen = s.txfLen := rfl
@[simp] theorem moved_accLen (s : State) : (moved s).accLen = s.accLen := rfl
@[simp] theorem moved_rxfLen (s : State) : (moved s).rxfLen = s.rxfLen := rfl
@[simp] theorem moved_resLen (s : State) : (moved s).resLen = s.resLen := rfl
@[simp] theorem moved_mt (s : State) : (moved s).mt = s.mt := rfl
@[simp] theorem moved_mr (s : State) : (moved s).mr = s.mr := rfl
@[simp] theorem moved_mem (s : State) : (moved s).mem = s.mem := rfl
@[simp] theorem moved_t0 (s : State) : (moved s).t0 = s.t0 := rfl
@[simp] theorem moved_dl (s : State) : (moved s).dl = s.dl := rfl
@[simp] theorem moved_curCmd (s : State) : (moved s).curCmd = s.curCmd := rfl
@[simp] theorem moved_call (s : State) : (moved s).call = s.call := rfl
@[simp] theorem moved_held (s : State) : (moved s).held = s.held := rfl

/-! ### `setTxf` -/

@[simp] theorem setTxf_cfg (s : State) (f : Bytes) : (setTxf s f).cfg = s.cfg := by simp [setTxf]
@[simp] theorem setTxf_env (s : State) (f : Bytes) : (setTxf s f).env = s.env := by simp [setTxf]
@[simp] theorem setTxf_freeCount (s : State) (f : Bytes) : (setTxf s f).freeCount = s.freeCount := by simp [setTxf]
@[simp] theorem setTxf_rdata (s : State) (f : Bytes) : (setTxf s f).rdata = s.rdata := by simp [setTxf]
@[simp] theorem setTxf_status_busy (s : State) (f : Bytes) : (setTxf s f).status.busy = s.status.busy := by simp [setTxf]
@[simp] theorem setTxf_status_done (s : State) (f : Bytes) : (setTxf s f).status.done = s.status.done := by simp [setTxf]
@[simp] theorem setTxf_status_errf (s : State) (f : Bytes) : (setTxf s f).status.errf = s.status.errf := by simp [setTxf]
@[simp] theorem setTxf_status_herr (s : State) (f : Bytes) : (setTxf s f).status.herr = s.status.herr := by simp [setTxf]
@[simp] theorem setTxf_status_macOk (s : State) (f : Bytes) : (setTxf s f).status.macOk = s.status.macOk := by simp [setTxf]
@[simp] theorem setTxf_status_mrValid (s : State) (f : Bytes) : (setTxf s f).status.mrValid = s.status.mrValid := by simp [setTxf]
@[simp] theorem setTxf_status_txfV (s : State) (f : Bytes) : (setTxf s f).status.txfV = true := by simp [setTxf]
@[simp] theorem setTxf_status_scbkV (s : State) (f : Bytes) : (setTxf s f).status.scbkV = s.status.scbkV := by simp [setTxf]
@[simp] theorem setTxf_status_skV (s : State) (f : Bytes) : (setTxf s f).status.skV = s.status.skV := by simp [setTxf]
@[simp] theorem setTxf_status_ivcV (s : State) (f : Bytes) : (setTxf s f).status.ivcV = s.status.ivcV := by simp [setTxf]
@[simp] theorem setTxf_status_mstate (s : State) (f : Bytes) : (setTxf s f).status.mstate = s.status.mstate := by simp [setTxf]
@[simp] theorem setTxf_err (s : State) (f : Bytes) : (setTxf s f).err = s.err := by simp [setTxf]
@[simp] theorem setTxf_errOp (s : State) (f : Bytes) : (setTxf s f).errOp = s.errOp := by simp [setTxf]
@[simp] theorem setTxf_ctrl (s : State) (f : Bytes) : (setTxf s f).ctrl = s.ctrl := by simp [setTxf]
@[simp] theorem setTxf_deadline (s : State) (f : Bytes) : (setTxf s f).deadline = s.deadline := by simp [setTxf]
@[simp] theorem setTxf_crcOut (s : State) (f : Bytes) : (setTxf s f).crcOut = s.crcOut := by simp [setTxf]
@[simp] theorem setTxf_consumed (s : State) (f : Bytes) : (setTxf s f).consumed = s.consumed := by simp [setTxf]
@[simp] theorem setTxf_opbLen (s : State) (f : Bytes) : (setTxf s f).opbLen = s.opbLen := by simp [setTxf]
@[simp] theorem setTxf_txfLen (s : State) (f : Bytes) : (setTxf s f).txfLen = BitVec.ofNat 16 f.length := by simp [setTxf]
@[simp] theorem setTxf_accLen (s : State) (f : Bytes) : (setTxf s f).accLen = s.accLen := by simp [setTxf]
@[simp] theorem setTxf_rxfLen (s : State) (f : Bytes) : (setTxf s f).rxfLen = s.rxfLen := by simp [setTxf]
@[simp] theorem setTxf_resLen (s : State) (f : Bytes) : (setTxf s f).resLen = s.resLen := by simp [setTxf]
@[simp] theorem setTxf_mt (s : State) (f : Bytes) : (setTxf s f).mt = s.mt := by simp [setTxf]
@[simp] theorem setTxf_mr (s : State) (f : Bytes) : (setTxf s f).mr = s.mr := by simp [setTxf]
@[simp] theorem setTxf_mem (s : State) (f : Bytes) : (setTxf s f).mem = memSplice s.mem (cell .txf 0) (cell .txf 0 + bufSpan) f := by simp [setTxf]
@[simp] theorem setTxf_t0 (s : State) (f : Bytes) : (setTxf s f).t0 = s.t0 := by simp [setTxf]
@[simp] theorem setTxf_dl (s : State) (f : Bytes) : (setTxf s f).dl = s.dl := by simp [setTxf]
@[simp] theorem setTxf_curCmd (s : State) (f : Bytes) : (setTxf s f).curCmd = s.curCmd := by simp [setTxf]
@[simp] theorem setTxf_call (s : State) (f : Bytes) : (setTxf s f).call = s.call := by simp [setTxf]
@[simp] theorem setTxf_held (s : State) (f : Bytes) : (setTxf s f).held = s.held := by simp [setTxf]

/-! ### `accAppend` -/

@[simp] theorem accAppend_cfg (s : State) (r : Bytes) : (accAppend s r).cfg = s.cfg := by simp [accAppend]
@[simp] theorem accAppend_env (s : State) (r : Bytes) : (accAppend s r).env = s.env := by simp [accAppend]
@[simp] theorem accAppend_freeCount (s : State) (r : Bytes) : (accAppend s r).freeCount = s.freeCount := by simp [accAppend]
@[simp] theorem accAppend_rdata (s : State) (r : Bytes) : (accAppend s r).rdata = s.rdata := by simp [accAppend]
@[simp] theorem accAppend_status (s : State) (r : Bytes) : (accAppend s r).status = s.status := by simp [accAppend]
@[simp] theorem accAppend_err (s : State) (r : Bytes) : (accAppend s r).err = s.err := by simp [accAppend]
@[simp] theorem accAppend_errOp (s : State) (r : Bytes) : (accAppend s r).errOp = s.errOp := by simp [accAppend]
@[simp] theorem accAppend_ctrl (s : State) (r : Bytes) : (accAppend s r).ctrl = s.ctrl := by simp [accAppend]
@[simp] theorem accAppend_deadline (s : State) (r : Bytes) : (accAppend s r).deadline = s.deadline := by simp [accAppend]
@[simp] theorem accAppend_crcOut (s : State) (r : Bytes) : (accAppend s r).crcOut = s.crcOut := by simp [accAppend]
@[simp] theorem accAppend_consumed (s : State) (r : Bytes) : (accAppend s r).consumed = s.consumed := by simp [accAppend]
@[simp] theorem accAppend_opbLen (s : State) (r : Bytes) : (accAppend s r).opbLen = s.opbLen := by simp [accAppend]
@[simp] theorem accAppend_txfLen (s : State) (r : Bytes) : (accAppend s r).txfLen = s.txfLen := by simp [accAppend]
@[simp] theorem accAppend_accLen (s : State) (r : Bytes) : (accAppend s r).accLen = BitVec.ofNat 32 (s.accLen.toNat + r.length) := by simp [accAppend]
@[simp] theorem accAppend_rxfLen (s : State) (r : Bytes) : (accAppend s r).rxfLen = s.rxfLen := by simp [accAppend]
@[simp] theorem accAppend_resLen (s : State) (r : Bytes) : (accAppend s r).resLen = s.resLen := by simp [accAppend]
@[simp] theorem accAppend_mt (s : State) (r : Bytes) : (accAppend s r).mt = s.mt := by simp [accAppend]
@[simp] theorem accAppend_mr (s : State) (r : Bytes) : (accAppend s r).mr = s.mr := by simp [accAppend]
@[simp] theorem accAppend_mem (s : State) (r : Bytes) : (accAppend s r).mem = memSplice s.mem (cell .acc s.accLen.toNat) (cell .acc s.accLen.toNat + r.length) r := by simp [accAppend]
@[simp] theorem accAppend_t0 (s : State) (r : Bytes) : (accAppend s r).t0 = s.t0 := by simp [accAppend]
@[simp] theorem accAppend_dl (s : State) (r : Bytes) : (accAppend s r).dl = s.dl := by simp [accAppend]
@[simp] theorem accAppend_curCmd (s : State) (r : Bytes) : (accAppend s r).curCmd = s.curCmd := by simp [accAppend]
@[simp] theorem accAppend_call (s : State) (r : Bytes) : (accAppend s r).call = s.call := by simp [accAppend]
@[simp] theorem accAppend_held (s : State) (r : Bytes) : (accAppend s r).held = s.held := by simp [accAppend]

/-! ### `accClear` -/

@[simp] theorem accClear_cfg (s : State) : (accClear s).cfg = s.cfg := by simp [accClear, forget]
@[simp] theorem accClear_env (s : State) : (accClear s).env = s.env := by simp [accClear, forget]
@[simp] theorem accClear_freeCount (s : State) : (accClear s).freeCount = s.freeCount := by simp [accClear, forget]
@[simp] theorem accClear_rdata (s : State) : (accClear s).rdata = s.rdata := by simp [accClear, forget]
@[simp] theorem accClear_status (s : State) : (accClear s).status = s.status := by simp [accClear, forget]
@[simp] theorem accClear_err (s : State) : (accClear s).err = s.err := by simp [accClear, forget]
@[simp] theorem accClear_errOp (s : State) : (accClear s).errOp = s.errOp := by simp [accClear, forget]
@[simp] theorem accClear_ctrl (s : State) : (accClear s).ctrl = s.ctrl := by simp [accClear, forget]
@[simp] theorem accClear_deadline (s : State) : (accClear s).deadline = s.deadline := by simp [accClear, forget]
@[simp] theorem accClear_crcOut (s : State) : (accClear s).crcOut = s.crcOut := by simp [accClear, forget]
@[simp] theorem accClear_consumed (s : State) : (accClear s).consumed = s.consumed := by simp [accClear, forget]
@[simp] theorem accClear_opbLen (s : State) : (accClear s).opbLen = s.opbLen := by simp [accClear, forget]
@[simp] theorem accClear_txfLen (s : State) : (accClear s).txfLen = s.txfLen := by simp [accClear, forget]
@[simp] theorem accClear_accLen (s : State) : (accClear s).accLen = 0 := by simp [accClear, forget]
@[simp] theorem accClear_rxfLen (s : State) : (accClear s).rxfLen = s.rxfLen := by simp [accClear, forget]
@[simp] theorem accClear_resLen (s : State) : (accClear s).resLen = s.resLen := by simp [accClear, forget]
@[simp] theorem accClear_mt (s : State) : (accClear s).mt = s.mt := by simp [accClear, forget]
@[simp] theorem accClear_mr (s : State) : (accClear s).mr = s.mr := by simp [accClear, forget]
@[simp] theorem accClear_mem (s : State) : (accClear s).mem = memSplice s.mem (cell .acc 0) (cell .acc 0 + bufSpan) [] := by simp [accClear, forget]
@[simp] theorem accClear_t0 (s : State) : (accClear s).t0 = s.t0 := by simp [accClear, forget]
@[simp] theorem accClear_dl (s : State) : (accClear s).dl = s.dl := by simp [accClear, forget]
@[simp] theorem accClear_curCmd (s : State) : (accClear s).curCmd = s.curCmd := by simp [accClear, forget]
@[simp] theorem accClear_call (s : State) : (accClear s).call = s.call := by simp [accClear, forget]
@[simp] theorem accClear_held (s : State) : (accClear s).held = s.held := by simp [accClear, forget]

/-! ### `commitBuffers` -/

@[simp] theorem commitBuffers_cfg (f : Frame) (s : State) : (commitBuffers f s).cfg = s.cfg := by simp [commitBuffers]
@[simp] theorem commitBuffers_env (f : Frame) (s : State) : (commitBuffers f s).env = s.env := by simp [commitBuffers]
@[simp] theorem commitBuffers_freeCount (f : Frame) (s : State) : (commitBuffers f s).freeCount = s.freeCount := by simp [commitBuffers]
@[simp] theorem commitBuffers_rdata (f : Frame) (s : State) : (commitBuffers f s).rdata = s.rdata := by simp [commitBuffers]
@[simp] theorem commitBuffers_status (f : Frame) (s : State) : (commitBuffers f s).status = s.status := by simp [commitBuffers]
@[simp] theorem commitBuffers_err (f : Frame) (s : State) : (commitBuffers f s).err = s.err := by simp [commitBuffers]
@[simp] theorem commitBuffers_errOp (f : Frame) (s : State) : (commitBuffers f s).errOp = s.errOp := by simp [commitBuffers]
@[simp] theorem commitBuffers_ctrl (f : Frame) (s : State) : (commitBuffers f s).ctrl = s.ctrl := by simp [commitBuffers]
@[simp] theorem commitBuffers_deadline (f : Frame) (s : State) : (commitBuffers f s).deadline = s.deadline := by simp [commitBuffers]
@[simp] theorem commitBuffers_crcOut (f : Frame) (s : State) : (commitBuffers f s).crcOut = s.crcOut := by simp [commitBuffers]
@[simp] theorem commitBuffers_consumed (f : Frame) (s : State) : (commitBuffers f s).consumed = s.consumed := by simp [commitBuffers]
@[simp] theorem commitBuffers_opbLen (f : Frame) (s : State) : (commitBuffers f s).opbLen = s.opbLen := by simp [commitBuffers]
@[simp] theorem commitBuffers_txfLen (f : Frame) (s : State) : (commitBuffers f s).txfLen = s.txfLen := by simp [commitBuffers]
@[simp] theorem commitBuffers_accLen (f : Frame) (s : State) : (commitBuffers f s).accLen = s.accLen := by simp [commitBuffers]
@[simp] theorem commitBuffers_rxfLen (f : Frame) (s : State) : (commitBuffers f s).rxfLen = s.rxfLen := by simp [commitBuffers]
@[simp] theorem commitBuffers_resLen (f : Frame) (s : State) : (commitBuffers f s).resLen = s.resLen := by simp [commitBuffers]
@[simp] theorem commitBuffers_mt (f : Frame) (s : State) : (commitBuffers f s).mt = s.mt := by simp [commitBuffers]
@[simp] theorem commitBuffers_mr (f : Frame) (s : State) : (commitBuffers f s).mr = s.mr := by simp [commitBuffers]
@[simp] theorem commitBuffers_t0 (f : Frame) (s : State) : (commitBuffers f s).t0 = s.t0 := by simp [commitBuffers]
@[simp] theorem commitBuffers_dl (f : Frame) (s : State) : (commitBuffers f s).dl = s.dl := by simp [commitBuffers]
@[simp] theorem commitBuffers_curCmd (f : Frame) (s : State) : (commitBuffers f s).curCmd = s.curCmd := by simp [commitBuffers]
@[simp] theorem commitBuffers_call (f : Frame) (s : State) : (commitBuffers f s).call = s.call := by simp [commitBuffers]
@[simp] theorem commitBuffers_held (f : Frame) (s : State) : (commitBuffers f s).held = s.held := by simp [commitBuffers]

/-! ### `commit` -/

@[simp] theorem commit_cfg (f : Frame) (s : State) : (commit f s).cfg = s.cfg := by simp [commit]
@[simp] theorem commit_env (f : Frame) (s : State) : (commit f s).env = s.env := by simp [commit]
@[simp] theorem commit_freeCount (f : Frame) (s : State) : (commit f s).freeCount = s.freeCount := by simp [commit]
@[simp] theorem commit_rdata (f : Frame) (s : State) : (commit f s).rdata = s.rdata := by simp [commit]
@[simp] theorem commit_status_busy (f : Frame) (s : State) : (commit f s).status.busy = s.status.busy := by simp [commit]
@[simp] theorem commit_status_done (f : Frame) (s : State) : (commit f s).status.done = s.status.done := by simp [commit]
@[simp] theorem commit_status_errf (f : Frame) (s : State) : (commit f s).status.errf = s.status.errf := by simp [commit]
@[simp] theorem commit_status_herr (f : Frame) (s : State) : (commit f s).status.herr = s.status.herr := by simp [commit]
@[simp] theorem commit_status_macOk (f : Frame) (s : State) : (commit f s).status.macOk = false := by simp [commit]
@[simp] theorem commit_status_mrValid (f : Frame) (s : State) : (commit f s).status.mrValid = true := by simp [commit]
@[simp] theorem commit_status_txfV (f : Frame) (s : State) : (commit f s).status.txfV = s.status.txfV := by simp [commit]
@[simp] theorem commit_status_scbkV (f : Frame) (s : State) : (commit f s).status.scbkV = s.status.scbkV := by simp [commit]
@[simp] theorem commit_status_skV (f : Frame) (s : State) : (commit f s).status.skV = s.status.skV := by simp [commit]
@[simp] theorem commit_status_ivcV (f : Frame) (s : State) : (commit f s).status.ivcV = s.status.ivcV := by simp [commit]
@[simp] theorem commit_status_mstate (f : Frame) (s : State) : (commit f s).status.mstate = s.status.mstate := by simp [commit]
@[simp] theorem commit_err (f : Frame) (s : State) : (commit f s).err = s.err := by simp [commit]
@[simp] theorem commit_errOp (f : Frame) (s : State) : (commit f s).errOp = s.errOp := by simp [commit]
@[simp] theorem commit_ctrl (f : Frame) (s : State) : (commit f s).ctrl = s.ctrl := by simp [commit]
@[simp] theorem commit_deadline (f : Frame) (s : State) : (commit f s).deadline = s.deadline := by simp [commit]
@[simp] theorem commit_crcOut (f : Frame) (s : State) : (commit f s).crcOut = s.crcOut := by simp [commit]
@[simp] theorem commit_consumed (f : Frame) (s : State) : (commit f s).consumed = BitVec.ofNat 32 f.consumed := by simp [commit]
@[simp] theorem commit_opbLen (f : Frame) (s : State) : (commit f s).opbLen = s.opbLen := by simp [commit]
@[simp] theorem commit_txfLen (f : Frame) (s : State) : (commit f s).txfLen = s.txfLen := by simp [commit]
@[simp] theorem commit_accLen (f : Frame) (s : State) : (commit f s).accLen = s.accLen := by simp [commit]
@[simp] theorem commit_rxfLen (f : Frame) (s : State) : (commit f s).rxfLen = BitVec.ofNat 16 f.len := by simp [commit]
@[simp] theorem commit_resLen (f : Frame) (s : State) : (commit f s).resLen = s.resLen := by simp [commit]
@[simp] theorem commit_mt (f : Frame) (s : State) : (commit f s).mt = s.mt := by simp [commit]
@[simp] theorem commit_mr (f : Frame) (s : State) : (commit f s).mr = commitBank f := by simp [commit]
@[simp] theorem commit_mem (f : Frame) (s : State) : (commit f s).mem = (commitBuffers f s).mem := by simp [commit]
@[simp] theorem commit_t0 (f : Frame) (s : State) : (commit f s).t0 = s.t0 := by simp [commit]
@[simp] theorem commit_dl (f : Frame) (s : State) : (commit f s).dl = s.dl := by simp [commit]
@[simp] theorem commit_curCmd (f : Frame) (s : State) : (commit f s).curCmd = s.curCmd := by simp [commit]
@[simp] theorem commit_call (f : Frame) (s : State) : (commit f s).call = s.call := by simp [commit]
@[simp] theorem commit_held (f : Frame) (s : State) : (commit f s).held = s.held := by simp [commit]

/-! ### `setPayload` -/

@[simp] theorem setPayload_cfg (s : State) (m : BankSel) (v : Bytes) : (setPayload s m v).cfg = s.cfg := by
  cases m <;> rfl
@[simp] theorem setPayload_env (s : State) (m : BankSel) (v : Bytes) : (setPayload s m v).env = s.env := by
  cases m <;> rfl
@[simp] theorem setPayload_freeCount (s : State) (m : BankSel) (v : Bytes) : (setPayload s m v).freeCount = s.freeCount := by
  cases m <;> rfl
@[simp] theorem setPayload_rdata (s : State) (m : BankSel) (v : Bytes) : (setPayload s m v).rdata = s.rdata := by
  cases m <;> rfl
@[simp] theorem setPayload_status (s : State) (m : BankSel) (v : Bytes) : (setPayload s m v).status = s.status := by
  cases m <;> rfl
@[simp] theorem setPayload_err (s : State) (m : BankSel) (v : Bytes) : (setPayload s m v).err = s.err := by
  cases m <;> rfl
@[simp] theorem setPayload_errOp (s : State) (m : BankSel) (v : Bytes) : (setPayload s m v).errOp = s.errOp := by
  cases m <;> rfl
@[simp] theorem setPayload_ctrl (s : State) (m : BankSel) (v : Bytes) : (setPayload s m v).ctrl = s.ctrl := by
  cases m <;> rfl
@[simp] theorem setPayload_deadline (s : State) (m : BankSel) (v : Bytes) : (setPayload s m v).deadline = s.deadline := by
  cases m <;> rfl
@[simp] theorem setPayload_crcOut (s : State) (m : BankSel) (v : Bytes) : (setPayload s m v).crcOut = s.crcOut := by
  cases m <;> rfl
@[simp] theorem setPayload_consumed (s : State) (m : BankSel) (v : Bytes) : (setPayload s m v).consumed = s.consumed := by
  cases m <;> rfl
@[simp] theorem setPayload_opbLen (s : State) (m : BankSel) (v : Bytes) : (setPayload s m v).opbLen = s.opbLen := by
  cases m <;> rfl
@[simp] theorem setPayload_txfLen (s : State) (m : BankSel) (v : Bytes) : (setPayload s m v).txfLen = s.txfLen := by
  cases m <;> rfl
@[simp] theorem setPayload_accLen (s : State) (m : BankSel) (v : Bytes) : (setPayload s m v).accLen = s.accLen := by
  cases m <;> rfl
@[simp] theorem setPayload_rxfLen (s : State) (m : BankSel) (v : Bytes) : (setPayload s m v).rxfLen = s.rxfLen := by
  cases m <;> rfl
@[simp] theorem setPayload_resLen (s : State) (m : BankSel) (v : Bytes) : (setPayload s m v).resLen = s.resLen := by
  cases m <;> rfl
@[simp] theorem setPayload_t0 (s : State) (m : BankSel) (v : Bytes) : (setPayload s m v).t0 = s.t0 := by
  cases m <;> rfl
@[simp] theorem setPayload_dl (s : State) (m : BankSel) (v : Bytes) : (setPayload s m v).dl = s.dl := by
  cases m <;> rfl
@[simp] theorem setPayload_curCmd (s : State) (m : BankSel) (v : Bytes) : (setPayload s m v).curCmd = s.curCmd := by
  cases m <;> rfl
@[simp] theorem setPayload_call (s : State) (m : BankSel) (v : Bytes) : (setPayload s m v).call = s.call := by
  cases m <;> rfl
@[simp] theorem setPayload_held (s : State) (m : BankSel) (v : Bytes) : (setPayload s m v).held = s.held := by
  cases m <;> rfl

@[simp] theorem setPayload_mem (s : State) (m : BankSel) (v : Bytes) :
    (setPayload s m v).mem = memSplice s.mem (cell (mselBuf m) 0) (cell (mselBuf m) 0 + bufSpan) v := by
  cases m <;> rfl

@[simp] theorem setPayload_mselLen (s : State) (m : BankSel) (v : Bytes) :
    mselLen (setPayload s m v) m = BitVec.ofNat 16 v.length := by
  cases m <;> rfl

end Sys2Proof.Machine
end

