-- ==== Sys2Proof/Laws/Memory.lean ====
section
/-! SUPPORT. What the memory operations do: each of them once, over cells and over the bytes of buffers, and that each
keeps the canonical form. -/

namespace Sys2Proof.Machine

open Sys2Proof

/-! ### Cells -/

theorem buf_id_lt (b : Buf) : b.id < 16 := by cases b <;> decide

theorem buf_id_inj {b b' : Buf} (h : b.id = b'.id) : b = b' := by
  cases b <;> cases b' <;> first | rfl | (simp [Buf.id] at h)

@[simp] theorem bufOfId_id (b : Buf) : bufOfId (BitVec.ofNat 4 b.id) = b := by cases b <;> rfl

theorem bufOfId_surj (b : Buf) : ∃ n, bufOfId n = b := ⟨BitVec.ofNat 4 b.id, bufOfId_id b⟩

theorem cell_div (b : Buf) {off : Nat} (h : off < bufSpan) : cell b off / bufSpan = b.id := by
  unfold cell bufSpan at *; omega

theorem cell_mod (b : Buf) {off : Nat} (h : off < bufSpan) : cell b off % bufSpan = off := by
  unfold cell bufSpan at *; omega

theorem cell_add (b : Buf) (off k : Nat) : cell b (off + k) = cell b off + k := by
  unfold cell; omega

/-- A cell outside another buffer's span. -/
theorem cell_outside {b b' : Buf} (hb : b' ≠ b) {off : Nat} (h : off < bufSpan) :
    cell b' off < cell b 0 ∨ cell b 0 + bufSpan ≤ cell b' off := by
  have hi : b'.id ≠ b.id := fun e => hb (buf_id_inj e)
  unfold cell bufSpan at *; omega

theorem cell_inj {b b' : Buf} {off off' : Nat} (h : off < bufSpan) (h' : off' < bufSpan) :
    cell b off = cell b' off' ↔ b = b' ∧ off = off' := by
  constructor
  · intro e
    have hd := congrArg (· / bufSpan) e
    have hm := congrArg (· % bufSpan) e
    simp only [cell_div b h, cell_div b' h', cell_mod b h, cell_mod b' h'] at hd hm
    exact ⟨buf_id_inj hd, hm⟩
  · rintro ⟨rfl, rfl⟩; rfl

theorem cellExists_cell (c : Config) (b : Buf) {off : Nat} (h : off < bufSpan) :
    cellExists c (cell b off) ↔ off < b.cap c := by
  simp [cellExists, cell_div b h, cell_mod b h, buf_id_lt]

/-- Every capacity of a legal configuration fits a buffer's cells. -/
theorem cap_lt_span {c : Config} (h : c.Legal) (b : Buf) : b.cap c < bufSpan := by
  obtain ⟨⟨_, h1⟩, ⟨_, h2⟩, ⟨_, h3⟩, _⟩ := h
  cases b <;> simp [Buf.cap, bufSpan, payCap, macLen, keyLen, ivLen] <;> omega

/-! ### Lists of cells -/

theorem lookup_filter_fst (p : Nat → Bool) (m : Memory) (a : Nat) :
    (m.filter (fun c => p c.1)).lookup a = if p a then m.lookup a else none := by
  induction m with
  | nil => simp
  | cons x xs ih =>
    obtain ⟨k, v⟩ := x
    by_cases hk : a = k
    · subst hk; cases hp : p a <;> simp [hp, ih]
    · have hb : (a == k) = false := by simp [hk]
      cases hp : p k <;> simp [hp, ih, List.lookup_cons, hb]

theorem lookup_append_cells (m m' : Memory) (a : Nat) :
    (m ++ m').lookup a = match m.lookup a with
      | some b => some b
      | none => m'.lookup a := by
  induction m with
  | nil => rfl
  | cons x xs ih =>
    obtain ⟨k, v⟩ := x
    simp only [List.cons_append, List.lookup_cons]
    cases a == k <;> simp [ih]

theorem runCells_cons (k : Nat) (b : Byte) (bs : Bytes) : runCells k (b :: bs) =
    if unlisted k = some b then runCells (k + 1) bs else (k, b) :: runCells (k + 1) bs := rfl

theorem runCells_bounds {k : Nat} {s : Bytes} {x : Host.Cell} (h : x ∈ runCells k s) :
    k ≤ x.1 ∧ x.1 < k + s.length ∧ unlisted x.1 ≠ some x.2 := by
  induction s generalizing k with
  | nil => simp [runCells] at h
  | cons b bs ih =>
    have hl : (b :: bs).length = bs.length + 1 := rfl
    rw [runCells_cons] at h
    split at h
    · have := ih h; exact ⟨by omega, by omega, this.2.2⟩
    · rename_i hu
      rcases List.mem_cons.mp h with rfl | h
      · exact ⟨le_refl _, by simp, hu⟩
      · have := ih h; exact ⟨by omega, by omega, this.2.2⟩

theorem runCells_rising (k : Nat) (s : Bytes) : (runCells k s).Pairwise (fun x y => x.1 < y.1) := by
  induction s generalizing k with
  | nil => simp [runCells]
  | cons b bs ih =>
    rw [runCells_cons]
    split
    · exact ih _
    · refine List.pairwise_cons.mpr ⟨fun y hy => ?_, ih _⟩
      have := runCells_bounds hy
      omega

/-- What a run of cells reads as inside its span. -/
theorem memGet_runCells (k : Nat) (s : Bytes) (a : Nat) :
    memGet (runCells k s) a = if k ≤ a then (match s[a - k]? with | some b => some b | none => unlisted a)
      else unlisted a := by
  induction s generalizing k with
  | nil => simp [runCells, memGet]
  | cons b bs ih =>
    by_cases ha : a = k
    · subst ha
      simp only [le_refl, if_true, Nat.sub_self, List.getElem?_cons_zero]
      rw [runCells_cons]
      split
      · rename_i hu
        rw [ih, if_neg (by omega), hu]
      · simp [memGet]
    · have hstep : memGet (runCells k (b :: bs)) a = memGet (runCells (k + 1) bs) a := by
        rw [runCells_cons]
        split
        · rfl
        · have hb : (a == k) = false := by simp [ha]
          simp [memGet, List.lookup_cons, hb]
      rw [hstep, ih]
      by_cases hle : k + 1 ≤ a
      · rw [if_pos hle, if_pos (by omega)]
        obtain ⟨n, rfl⟩ : ∃ n, a = k + 1 + n := ⟨a - (k + 1), by omega⟩
        rw [show k + 1 + n - (k + 1) = n by omega, show k + 1 + n - k = n + 1 by omega,
          List.getElem?_cons_succ]
      · rw [if_neg hle, if_neg (by omega)]

/-! ### `memSplice` -/

/-- Everything a splice does to what a cell reads as. -/
theorem memGet_splice (m : Memory) {lo hi : Nat} (hle : lo ≤ hi) (s : Bytes) (a : Nat) :
    memGet (memSplice m lo hi s) a =
      if lo ≤ a ∧ a < hi then (match s[a - lo]? with | some b => some b | none => unlisted a) else memGet m a := by
  have hrun : memGet (runCells lo (s.take (hi - lo))) a = if lo ≤ a ∧ a < hi then
      (match s[a - lo]? with | some b => some b | none => unlisted a) else unlisted a := by
    rw [memGet_runCells]
    by_cases h1 : lo ≤ a
    · by_cases h2 : a < hi
      · rw [if_pos h1, if_pos ⟨h1, h2⟩, List.getElem?_take, if_pos (by omega)]
      · rw [if_pos h1, if_neg (by omega), List.getElem?_take, if_neg (by omega)]
    · rw [if_neg h1, if_neg (by omega)]
  have hout : ¬ (lo ≤ a ∧ a < hi) → (runCells lo (s.take (hi - lo))).lookup a = none := by
    intro hn
    rw [List.lookup_eq_none_iff]
    intro x hx
    have hb := runCells_bounds hx
    have hl := List.length_take_le (hi - lo) s
    simp only [bne_iff_ne, ne_eq]
    intro e; omega
  unfold memGet at hrun ⊢
  unfold memSplice
  rw [lookup_append_cells, lookup_append_cells, lookup_filter_fst (fun k => decide (k < lo)),
    lookup_filter_fst (fun k => decide (hi ≤ k))]
  by_cases hin : lo ≤ a ∧ a < hi
  · rw [if_pos hin]
    rw [if_pos hin] at hrun
    have h1 : ¬ a < lo := by omega
    have h2 : ¬ hi ≤ a := by omega
    simp only [h1, h2, decide_false, Bool.false_eq_true, if_false]
    rw [← hrun]
    cases (runCells lo (s.take (hi - lo))).lookup a <;> rfl
  · rw [if_neg hin, hout hin]
    by_cases h1 : a < lo
    · have h2 : ¬ hi ≤ a := by omega
      simp only [h1, h2, decide_true, decide_false, if_true, Bool.false_eq_true, if_false]
      cases m.lookup a <;> rfl
    · have h2 : hi ≤ a := by omega
      simp only [h1, h2, decide_true, decide_false, if_true, Bool.false_eq_true, if_false]

/-- A splice keeps the canonical form. -/
theorem memory_wf_splice {m : Memory} (h : m.wf) {lo hi : Nat} (hle : lo ≤ hi) (s : Bytes) :
    (memSplice m lo hi s).wf := by
  have hb : ∀ x ∈ runCells lo (s.take (hi - lo)), lo ≤ x.1 ∧ x.1 < hi ∧ unlisted x.1 ≠ some x.2 := by
    intro x hx
    have hb := runCells_bounds hx
    have hl := List.length_take_le (hi - lo) s
    exact ⟨hb.1, by omega, hb.2.2⟩
  refine ⟨?_, ?_⟩
  · unfold memSplice
    refine List.pairwise_append.mpr ⟨List.pairwise_append.mpr ⟨h.1.filter _, runCells_rising _ _, ?_⟩,
      h.1.filter _, ?_⟩
    · intro x hx y hy
      have hx' := (List.mem_filter.mp hx).2
      have := hb y hy
      simp only [decide_eq_true_eq] at hx'
      omega
    · intro x hx y hy
      have hy' := (List.mem_filter.mp hy).2
      simp only [decide_eq_true_eq] at hy'
      rcases List.mem_append.mp hx with hx | hx
      · have hx' := (List.mem_filter.mp hx).2
        simp only [decide_eq_true_eq] at hx'
        omega
      · have := hb x hx; omega
  · intro x hx
    unfold memSplice at hx
    rcases List.mem_append.mp hx with hx | hx
    · rcases List.mem_append.mp hx with hx | hx
      · exact h.2 x (List.mem_filter.mp hx).1
      · exact (hb x hx).2.2
    · exact h.2 x (List.mem_filter.mp hx).1

/-- A splice of bytes that exist lists only bytes that exist. -/
theorem memory_inside_splice {c : Config} {m : Memory} (h : m.inside c) {lo hi : Nat} {s : Bytes}
    (hs : ∀ i < s.length, cellExists c (lo + i)) : (memSplice m lo hi s).inside c := by
  intro x hx
  unfold memSplice at hx
  rcases List.mem_append.mp hx with hx | hx
  · rcases List.mem_append.mp hx with hx | hx
    · exact h x (List.mem_filter.mp hx).1
    · have hb := runCells_bounds hx
      have hl := List.length_take_le' (hi - lo) s
      have := hs (x.1 - lo) (by omega)
      rwa [show lo + (x.1 - lo) = x.1 by omega] at this
  · exact h x (List.mem_filter.mp hx).1

/-! ### Writes keep the canonical form -/

theorem setBuffer_wf {s : State} (h : s.mem.wf) (b : Buf) (v : Bytes) : (setBuffer s b v).mem.wf :=
  memory_wf_splice h (Nat.le_add_right _ _) v

theorem memWrite_wf {s : State} (h : s.mem.wf) (b : Buf) (off : Nat) (v : Bytes) : (memWrite s b off v).mem.wf :=
  memory_wf_splice h (Nat.le_add_right _ _) v

theorem setBuffer_inside {s : State} {c : Config} (hc : c.Legal) (h : s.mem.inside c) {b : Buf} {v : Bytes}
    (hv : v.length ≤ b.cap c) : (setBuffer s b v).mem.inside c := by
  refine memory_inside_splice h fun i hi => ?_
  have := cap_lt_span hc b
  rw [← cell_add, Nat.zero_add, cellExists_cell c b (by omega)]
  omega

theorem memWrite_inside {s : State} {c : Config} (hc : c.Legal) (h : s.mem.inside c) {b : Buf} {off : Nat}
    {v : Bytes} (hv : off + v.length ≤ b.cap c) : (memWrite s b off v).mem.inside c := by
  refine memory_inside_splice h fun i hi => ?_
  have := cap_lt_span hc b
  rw [← cell_add, cellExists_cell c b (by omega)]
  omega

theorem reset_memory_wf : State.reset.mem.wf := by decide

theorem reset_memory_inside : State.reset.mem.inside State.reset.cfg := by decide

/-! ### Reads after writes -/

theorem readByte_congr {s t : State} (hm : t.mem = s.mem) (hf : t.freeCount = s.freeCount) (b : Buf) (off : Nat) :
    readByte t b off = readByte s b off := by
  unfold readByte; rw [hm, hf]

theorem memRead_congr {s t : State} (hm : t.mem = s.mem) (hf : t.freeCount = s.freeCount) (b : Buf) (off n : Nat) :
    memRead t b off n = memRead s b off n := by
  unfold memRead
  exact List.map_congr_left fun i _ => readByte_congr hm hf b (off + i)

@[simp] theorem length_memRead (s : State) (b : Buf) (off n : Nat) : (memRead s b off n).length = n := by
  simp [memRead]

theorem getElem?_memRead (s : State) (b : Buf) (off n i : Nat) (h : i < n) :
    (memRead s b off n)[i]? = some (readByte s b (off + i)) := by
  simp [memRead, h]

/-- The bytes of the buffer written, below the new length. -/
theorem readByte_setBuffer_same (s : State) (b : Buf) (v : Bytes) {off : Nat} (h : off < v.length)
    (hs : off < bufSpan) : readByte (setBuffer s b v) b off = v[off] := by
  have hg : memGet (setBuffer s b v).mem (cell b off) = some v[off] := by
    rw [setBuffer_mem, memGet_splice _ (Nat.le_add_right _ _)]
    have hc := cell_add b 0 off
    rw [Nat.zero_add] at hc
    rw [if_pos (by omega), show cell b off - cell b 0 = off by omega, List.getElem?_eq_getElem h]
  unfold readByte
  rw [hg]

/-- Every other buffer. -/
theorem readByte_setBuffer_other (s : State) {b b' : Buf} (hb : b' ≠ b) (v : Bytes) {off : Nat}
    (h : off < bufSpan) : readByte (setBuffer s b v) b' off = readByte s b' off := by
  have hg : memGet (setBuffer s b v).mem (cell b' off) = memGet s.mem (cell b' off) := by
    rw [setBuffer_mem, memGet_splice _ (Nat.le_add_right _ _), if_neg]
    have := cell_outside hb h
    omega
  unfold readByte
  rw [hg]
  rfl

theorem memRead_setBuffer_same (s : State) (b : Buf) (v : Bytes) (h : v.length ≤ bufSpan) :
    memRead (setBuffer s b v) b 0 v.length = v := by
  refine List.ext_getElem (by simp) fun i h1 h2 => ?_
  simp only [memRead, List.getElem_map, List.getElem_range, Nat.zero_add]
  exact readByte_setBuffer_same s b v h2 (by omega)

theorem memRead_setBuffer_other (s : State) {b b' : Buf} (hb : b' ≠ b) (v : Bytes) {off n : Nat}
    (h : off + n ≤ bufSpan) : memRead (setBuffer s b v) b' off n = memRead s b' off n := by
  unfold memRead
  refine List.map_congr_left fun i hi => ?_
  exact readByte_setBuffer_other s hb v (by have := List.mem_range.mp hi; omega)

/-- The bytes written. -/
theorem readByte_memWrite_inside (s : State) (b : Buf) (off : Nat) (v : Bytes) {i : Nat} (h : i < v.length) :
    readByte (memWrite s b off v) b (off + i) = v[i] := by
  have hg : memGet (memWrite s b off v).mem (cell b (off + i)) = some v[i] := by
    rw [memWrite_mem, memGet_splice _ (Nat.le_add_right _ _), cell_add]
    rw [if_pos (by omega), show cell b off + i - cell b off = i by omega, List.getElem?_eq_getElem h]
  unfold readByte
  rw [hg]

/-- Every byte not written, of the same or another buffer. -/
theorem readByte_memWrite_outside (s : State) {b b' : Buf} {off off' : Nat} (v : Bytes)
    (hspan : off + v.length ≤ bufSpan) (hoff : off' < bufSpan)
    (h : b' ≠ b ∨ off' < off ∨ off + v.length ≤ off') :
    readByte (memWrite s b off v) b' off' = readByte s b' off' := by
  have hg : memGet (memWrite s b off v).mem (cell b' off') = memGet s.mem (cell b' off') := by
    rw [memWrite_mem, memGet_splice _ (Nat.le_add_right _ _), if_neg]
    intro hc
    by_cases hb : b' = b
    · subst hb
      unfold cell at hc
      rcases h with h | h | h
      · exact h rfl
      · omega
      · omega
    · have ho := cell_outside hb hoff
      unfold cell at hc ho
      omega
  unfold readByte
  rw [hg]
  rfl

theorem memRead_memWrite_same (s : State) (b : Buf) (off : Nat) (v : Bytes) :
    memRead (memWrite s b off v) b off v.length = v := by
  refine List.ext_getElem (by simp) fun i h1 h2 => ?_
  simp only [memRead, List.getElem_map, List.getElem_range]
  exact readByte_memWrite_inside s b off v h2

theorem memRead_memWrite_other (s : State) {b b' : Buf} (hb : b' ≠ b) {off : Nat} (v : Bytes)
    (hspan : off + v.length ≤ bufSpan) {off' n : Nat} (h : off' + n ≤ bufSpan) :
    memRead (memWrite s b off v) b' off' n = memRead s b' off' n := by
  unfold memRead
  refine List.map_congr_left fun i hi => ?_
  exact readByte_memWrite_outside s v hspan (by have := List.mem_range.mp hi; omega) (Or.inl hb)

/-- An append: what stood below the write stays, the bytes written follow. -/
theorem memRead_memWrite_append (s : State) (b : Buf) (n : Nat) (v : Bytes) (h : n + v.length ≤ bufSpan) :
    memRead (memWrite s b n v) b 0 (n + v.length) = memRead s b 0 n ++ v := by
  refine List.ext_getElem (by simp) fun i h1 h2 => ?_
  simp only [length_memRead] at h1
  by_cases hi : i < n
  · rw [List.getElem_append_left (by simpa using hi)]
    simp only [memRead, List.getElem_map, List.getElem_range, Nat.zero_add]
    exact readByte_memWrite_outside s v h (by omega) (Or.inr (Or.inl hi))
  · rw [List.getElem_append_right (by simpa using hi)]
    simp only [memRead, List.getElem_map, List.getElem_range, Nat.zero_add]
    obtain ⟨k, rfl⟩ : ∃ k, i = n + k := ⟨i - n, by omega⟩
    simp only [List.length_map, List.length_range, Nat.add_sub_cancel_left]
    exact readByte_memWrite_inside s b n v (by omega)

/-! ### Updates that leave the bytes alone -/

@[simp] theorem memRead_complete (o : Code) (s : State) (b : Buf) (off n : Nat) :
    memRead (complete o s) b off n = memRead s b off n := memRead_congr rfl rfl b off n

@[simp] theorem memRead_accept (s : State) (w : BitVec 16) (b : Buf) (off n : Nat) :
    memRead (accept s w) b off n = memRead s b off n := memRead_congr rfl rfl b off n

@[simp] theorem memRead_setMacOk (s : State) (v : Bool) (b : Buf) (off n : Nat) :
    memRead (setMacOk s v) b off n = memRead s b off n := memRead_congr rfl rfl b off n

@[simp] theorem memRead_setMrValid (s : State) (v : Bool) (b : Buf) (off n : Nat) :
    memRead (setMrValid s v) b off n = memRead s b off n := memRead_congr rfl rfl b off n

@[simp] theorem memRead_setTxfV (s : State) (b : Buf) (off n : Nat) :
    memRead (setTxfV s) b off n = memRead s b off n := memRead_congr rfl rfl b off n

@[simp] theorem memRead_setKeyFlags (s : State) (x y z : Bool) (b : Buf) (off n : Nat) :
    memRead (setKeyFlags s x y z) b off n = memRead s b off n := memRead_congr rfl rfl b off n

@[simp] theorem memRead_setMState (s : State) (m : MState) (b : Buf) (off n : Nat) :
    memRead (setMState s m) b off n = memRead s b off n := memRead_congr rfl rfl b off n

@[simp] theorem memRead_setCall (s : State) (c : TxCall) (b : Buf) (off n : Nat) :
    memRead (setCall s c) b off n = memRead s b off n := memRead_congr rfl rfl b off n

@[simp] theorem memRead_sampled (s : State) (b : Buf) (off n : Nat) :
    memRead (sampled s) b off n = memRead s b off n := memRead_congr rfl rfl b off n

@[simp] theorem readByte_complete (o : Code) (s : State) (b : Buf) (off : Nat) :
    readByte (complete o s) b off = readByte s b off := readByte_congr rfl rfl b off

@[simp] theorem readByte_accept (s : State) (w : BitVec 16) (b : Buf) (off : Nat) :
    readByte (accept s w) b off = readByte s b off := readByte_congr rfl rfl b off

@[simp] theorem readByte_setMacOk (s : State) (v : Bool) (b : Buf) (off : Nat) :
    readByte (setMacOk s v) b off = readByte s b off := readByte_congr rfl rfl b off

@[simp] theorem readByte_setMrValid (s : State) (v : Bool) (b : Buf) (off : Nat) :
    readByte (setMrValid s v) b off = readByte s b off := readByte_congr rfl rfl b off

@[simp] theorem readByte_setTxfV (s : State) (b : Buf) (off : Nat) :
    readByte (setTxfV s) b off = readByte s b off := readByte_congr rfl rfl b off

@[simp] theorem readByte_setKeyFlags (s : State) (x y z : Bool) (b : Buf) (off : Nat) :
    readByte (setKeyFlags s x y z) b off = readByte s b off := readByte_congr rfl rfl b off

@[simp] theorem readByte_setMState (s : State) (m : MState) (b : Buf) (off : Nat) :
    readByte (setMState s m) b off = readByte s b off := readByte_congr rfl rfl b off

@[simp] theorem readByte_setCall (s : State) (c : TxCall) (b : Buf) (off : Nat) :
    readByte (setCall s c) b off = readByte s b off := readByte_congr rfl rfl b off

@[simp] theorem readByte_sampled (s : State) (b : Buf) (off : Nat) :
    readByte (sampled s) b off = readByte s b off := readByte_congr rfl rfl b off

/-- `TXF := f` reads back. -/
theorem txfFrame_setTxf (s : State) {f : Bytes} (h : f.length ≤ 65535) : txfFrame (setTxf s f) = f := by
  have hl : (BitVec.ofNat 16 f.length).toNat = f.length := by simp; omega
  have := memRead_setBuffer_same s .txf f (by unfold bufSpan; omega)
  unfold txfFrame
  rw [setTxf_txfLen, hl]
  exact (memRead_congr (s := setBuffer s .txf f) rfl rfl .txf 0 f.length).trans this

/-- `P := v` reads back. -/
theorem payload_setPayload (s : State) (m : BankSel) {v : Bytes} (h : v.length ≤ 65535) :
    payload (setPayload s m v) m = v := by
  have hl : (BitVec.ofNat 16 v.length).toNat = v.length := by simp; omega
  have := memRead_setBuffer_same s (mselBuf m) v (by unfold bufSpan; omega)
  unfold payload
  rw [setPayload_mselLen, hl]
  refine (memRead_congr (s := setBuffer s (mselBuf m) v) ?_ ?_ _ 0 v.length).trans this
  · rw [setPayload_mem, setBuffer_mem]
  · rw [setPayload_freeCount, setBuffer_freeCount]

end Sys2Proof.Machine
end

