-- ==== Sys2Proof/Laws/Outcomes.lean ====
section
/-! SUPPORT. Outcome codes, the completion sequence, and the frames of Safety.lean: how each named update keeps them. -/

namespace Sys2Proof.Machine

open Sys2Proof

/-! ### Codes -/

@[simp] theorem code_number_eq_zero (o : Code) : o.number = 0#8 ↔ o = .ok := by cases o <;> decide

theorem code_number_inj {o o' : Code} (h : o.number = o'.number) : o = o' := by
  cases o <;> cases o' <;> first | rfl | (simp [Code.number] at h)

theorem code_number_bne_zero (o : Code) : (o.number != 0#8) = decide (o ≠ .ok) := by cases o <;> decide

/-! ### Completion -/

theorem completed_complete {o : Code} {s u : State} (h : u.curCmd = s.curCmd) : Completed o s (complete o u) :=
  ⟨rfl, h, code_number_bne_zero o, rfl, rfl⟩

theorem undoCompletion_complete (o : Code) (s : State) : undoCompletion s (complete o s) = s := rfl

theorem onlyCompleted_complete (o : Code) (s : State) : OnlyCompleted o s (complete o s) :=
  ⟨completed_complete rfl, undoCompletion_complete o s⟩

theorem raises_of_exec {i : Instr} {o : Code} {s u : State} (h : exec i s = .next (complete o u)) :
    Raises i o s u := ⟨_, h, onlyCompleted_complete o u⟩

/-- How an operation built on `finish` ends. -/
theorem finish_cases (s : State) (r : Except Code State) :
    (∃ t, r = .ok t ∧ finish s r = complete .ok t) ∨ (∃ e, r = .error e ∧ finish s r = complete e s) := by
  cases r with
  | ok t => exact .inl ⟨t, rfl, rfl⟩
  | error e => exact .inr ⟨e, rfl, rfl⟩

/-- Completing with a code that is not OK is seen in ERR. -/
theorem complete_err_eq_zero {o : Code} {s : State} : (complete o s).err = 0#8 ↔ o = .ok :=
  code_number_eq_zero o

/-! ### Bytes kept -/

theorem sameBytes_refl (b : Buf) (s : State) : SameBytes b s s := fun _ _ => rfl

theorem sameBytes_trans {b : Buf} {s t u : State} (h : SameBytes b s t) (h' : SameBytes b t u) : SameBytes b s u :=
  fun off ho => (h' off ho).trans (h off ho)

theorem sameBytes_of_mem {b : Buf} {s t : State} (hm : t.mem = s.mem) (hf : t.freeCount = s.freeCount) :
    SameBytes b s t := fun off _ => readByte_congr hm hf b off

theorem sameBytes_setBuffer {b b' : Buf} {s t : State} (h : SameBytes b s t) (hb : b ≠ b') (v : Bytes) :
    SameBytes b s (setBuffer t b' v) :=
  fun off ho => (readByte_setBuffer_other t hb v ho).trans (h off ho)

theorem sameBytes_memWrite {b b' : Buf} {s t : State} (h : SameBytes b s t) (hb : b ≠ b') {off : Nat} {v : Bytes}
    (hs : off + v.length ≤ bufSpan) : SameBytes b s (memWrite t b' off v) :=
  fun off' ho => (readByte_memWrite_outside t v hs ho (Or.inl hb)).trans (h off' ho)

/-- Bytes kept carry over to a state with the same memory. -/
theorem sameBytes_congr {b : Buf} {s t u : State} (h : SameBytes b s t) (hm : u.mem = t.mem)
    (hf : u.freeCount = t.freeCount) : SameBytes b s u :=
  sameBytes_trans h (sameBytes_of_mem hm hf)

theorem sameBytesBut_of_mem {bs : List Buf} {s t : State} (hm : t.mem = s.mem) (hf : t.freeCount = s.freeCount) :
    SameBytesBut bs s t := fun _ _ => sameBytes_of_mem hm hf

theorem sameBytesBut_congr {bs : List Buf} {s t u : State} (h : SameBytesBut bs s t) (hm : u.mem = t.mem)
    (hf : u.freeCount = t.freeCount) : SameBytesBut bs s u := fun b hb => sameBytes_congr (h b hb) hm hf

theorem sameBytesBut_setBuffer {bs : List Buf} {s t : State} (h : SameBytesBut bs s t) {b : Buf} (hb : b ∈ bs)
    (v : Bytes) : SameBytesBut bs s (setBuffer t b v) :=
  fun b' hb' => sameBytes_setBuffer (h b' hb') (fun e => hb' (e ▸ hb)) v

theorem sameBytesBut_memWrite {bs : List Buf} {s t : State} (h : SameBytesBut bs s t) {b : Buf} (hb : b ∈ bs)
    {off : Nat} {v : Bytes} (hs : off + v.length ≤ bufSpan) : SameBytesBut bs s (memWrite t b off v) :=
  fun b' hb' => sameBytes_memWrite (h b' hb') (fun e => hb' (e ▸ hb)) hs

theorem sameBytesBut_mono {bs bs' : List Buf} {s t : State} (h : SameBytesBut bs s t) (hs : ∀ b ∈ bs, b ∈ bs') :
    SameBytesBut bs' s t := fun b hb => h b (fun e => hb (hs b e))

theorem memRead_sameBytes {b : Buf} {s t : State} (h : SameBytes b s t) {off n : Nat} (hs : off + n ≤ bufSpan) :
    memRead t b off n = memRead s b off n := by
  unfold memRead
  exact List.map_congr_left fun i hi => h _ (by have := List.mem_range.mp hi; omega)

theorem keyBytes_congr {s t : State} (hm : t.mem = s.mem) (hf : t.freeCount = s.freeCount) (b : Buf) :
    keyBytes t b = keyBytes s b := memRead_congr hm hf b 0 keyLen

@[simp] theorem length_keyBytes (s : State) (b : Buf) : (keyBytes s b).length = 16 := length_memRead s b 0 keyLen

theorem keyBytes_setBuffer_same (s : State) (b : Buf) {v : Bytes} (h : v.length = 16) :
    keyBytes (setBuffer s b v) b = v := by
  have := memRead_setBuffer_same s b v (by unfold bufSpan; omega)
  rwa [h] at this

theorem keyBytes_setBuffer_other (s : State) {b b' : Buf} (hb : b' ≠ b) (v : Bytes) :
    keyBytes (setBuffer s b v) b' = keyBytes s b' :=
  memRead_setBuffer_other s hb v (by unfold bufSpan keyLen; omega)

/-! ### Operands -/

@[simp] theorem length_opbOperand (s : State) : (opbOperand s).length = s.opbLen.toNat := length_memRead ..

@[simp] theorem length_accBytes (s : State) : (accBytes s).length = s.accLen.toNat := length_memRead ..

@[simp] theorem length_payload (s : State) (m : BankSel) : (payload s m).length = (mselLen s m).toNat := length_memRead ..

/-- What was received so far, then what is appended. -/
theorem accBytes_accAppend (s : State) (r : Bytes) (h : s.accLen.toNat + r.length < bufSpan) :
    accBytes (accAppend s r) = accBytes s ++ r := by
  have hl : (accAppend s r).accLen.toNat = s.accLen.toNat + r.length := by
    rw [accAppend_accLen, BitVec.toNat_ofNat]
    unfold bufSpan at h
    omega
  unfold accBytes
  rw [hl, ← memRead_memWrite_append s .acc s.accLen.toNat r (by omega)]
  exact memRead_congr rfl rfl _ _ _

/-! ### Refusal -/

theorem refused_refuse (s : State) : Refused s (refuse s) := rfl

theorem turnedAway_of_exec {i : Instr} {s : State} (h : exec i s = .next (refuse s)) : TurnedAway i s :=
  ⟨_, h, refused_refuse s⟩

end Sys2Proof.Machine
end

