-- ==== Sys2Proof/Laws/Cases.lean ====
section
/-! SUPPORT. Everything an execution of each operation can be: one lemma per instruction and per shared body, with the
condition of each case, so that no later proof unfolds a meaning. -/

namespace Sys2Proof.Machine

open Sys2Proof

/-! ### Bodies -/

/-- What `mtCheck` can answer: never AddressOutOfRange (41_codec.md R152). -/
theorem mtCheck_cases (s : State) :
    (mtCheck s = some .invalidSequenceNumber ∧ 3 < s.mt.seq.toNat) ∨
    (mtCheck s = some .secureBlockTooLarge ∧ s.mt.seq.toNat ≤ 3 ∧ mtSecured s = true ∧ 253 < s.mt.sblen.toNat) ∨
    (mtCheck s = some .invalidSecureBlockType ∧ s.mt.seq.toNat ≤ 3 ∧ mtSecured s = true ∧ s.mt.sblen.toNat ≤ 253 ∧
      (s.mt.sbtype.toNat < 0x11 ∨ 0x18 < s.mt.sbtype.toNat)) ∨
    (mtCheck s = none ∧ s.mt.seq.toNat ≤ 3 ∧ (mtSecured s = true →
      s.mt.sblen.toNat ≤ 253 ∧ 0x11 ≤ s.mt.sbtype.toNat ∧ s.mt.sbtype.toNat ≤ 0x18)) := by
  have ha : ¬ 127 < (s.mt.addr &&& addrMask).toNat := by
    have : (s.mt.addr &&& addrMask).toNat ≤ 127 := by
      rw [BitVec.toNat_and]; exact Nat.and_le_right
    omega
  unfold mtCheck
  rw [if_neg ha]
  unfold seqMax sbDataMax scsMin scsMax
  by_cases h1 : 3 < s.mt.seq.toNat
  · exact .inl ⟨if_pos h1, h1⟩
  · rw [if_neg h1]
    by_cases h2 : mtSecured s = true
    · rw [if_pos h2]
      by_cases h3 : 0xFD < s.mt.sblen.toNat
      · exact .inr (.inl ⟨if_pos h3, by omega, h2, by omega⟩)
      · rw [if_neg h3]
        by_cases h4 : s.mt.sbtype.toNat < 0x11 ∨ 0x18 < s.mt.sbtype.toNat
        · exact .inr (.inr (.inl ⟨if_pos h4, by omega, h2, by omega, h4⟩))
        · exact .inr (.inr (.inr ⟨if_neg h4, by omega, fun _ => ⟨by omega, by omega, by omega⟩⟩))
    · rw [if_neg h2]
      exact .inr (.inr (.inr ⟨rfl, by omega, fun h => absurd h h2⟩))

/-- The frame `encode_mt` builds, or the error it raises. -/
theorem encodeMt_cases (s : State) :
    (∃ e, encodeMt s = .error e ∧
      e ∈ [Code.invalidSequenceNumber, .secureBlockTooLarge, .invalidSecureBlockType, .invalidLength]) ∨
    (encodeMt s = .ok (withCrc (mtFront s ++ zeros (macField (mtMacBearing s)))) ∧ mtTotal s ≤ s.cfg.frameMax ∧
      mtCheck s = none) := by
  unfold encodeMt
  rcases mtCheck_cases s with ⟨h, _⟩ | ⟨h, _⟩ | ⟨h, _⟩ | ⟨h, _⟩ <;> rw [h]
  · exact .inl ⟨_, rfl, by simp⟩
  · exact .inl ⟨_, rfl, by simp⟩
  · exact .inl ⟨_, rfl, by simp⟩
  · by_cases hl : s.cfg.frameMax < mtTotal s
    · exact .inl ⟨_, if_pos hl, by simp⟩
    · exact .inr ⟨if_neg hl, by omega, rfl⟩

theorem encodeMt_error {s : State} {e : Code} (h : encodeMt s = .error e) :
    e ∈ [Code.invalidSequenceNumber, .secureBlockTooLarge, .invalidSecureBlockType, .invalidLength] := by
  rcases encodeMt_cases s with ⟨e', h', hm⟩ | ⟨h', _⟩ <;> rw [h] at h'
  · cases h'; exact hm
  · cases h'

theorem encodeMt_ok {s : State} {f : Bytes} (h : encodeMt s = .ok f) :
    f = withCrc (mtFront s ++ zeros (macField (mtMacBearing s))) ∧ mtTotal s ≤ s.cfg.frameMax ∧ mtCheck s = none := by
  rcases encodeMt_cases s with ⟨e', h', hm⟩ | ⟨h', hl⟩ <;> rw [h] at h'
  · cases h'
  · cases h'; exact ⟨rfl, hl⟩

theorem length_le16 (v : BitVec 16) : (le16 v).length = 2 := rfl

theorem length_withCrc (s : Bytes) : (withCrc s).length = s.length + 2 := by simp [withCrc, length_le16]

/-- LEN is the length of the frame (30_encoding.md R103). -/
theorem length_encodeMt {s : State} {f : Bytes} (h : encodeMt s = .ok f) : f.length = mtTotal s := by
  rw [(encodeMt_ok h).1, length_withCrc]
  simp only [mtFront, mtTotal, List.length_append, List.length_cons, List.length_nil, length_le16, length_payload,
    zeros, List.length_replicate, crcLen, mselLen]

theorem encodeBody_cases (s : State) :
    (∃ e, encodeBody s = .error e ∧ encodeMt s = .error e) ∨
    (∃ f, encodeBody s = .ok (setTxf s f) ∧ encodeMt s = .ok f) := by
  unfold encodeBody
  cases h : encodeMt s with
  | error e => exact .inl ⟨e, rfl, rfl⟩
  | ok f => exact .inr ⟨f, rfl, rfl⟩

theorem genMacBody_cases (s : State) :
    (genMacBody s = .error .notSecureMessage ∧ mtMacBearing s = false) ∨
    (genMacBody s = .error .invalidKeyLength ∧ mtMacBearing s = true ∧ s.status.skV = false) ∨
    (genMacBody s = .error .invalidIVLength ∧ mtMacBearing s = true ∧ s.status.skV = true ∧ s.status.ivcV = false) ∨
    (mtMacBearing s = true ∧ s.status.skV = true ∧ s.status.ivcV = true ∧
      ((∃ e, genMacBody s = .error e ∧ encodeMt s = .error e) ∨
       (∃ f, genMacBody s = .ok (macedFrame s f) ∧ encodeMt s = .ok f))) := by
  unfold genMacBody
  cases hm : mtMacBearing s
  · simp
  · cases hk : s.status.skV
    · simp
    · cases hi : s.status.ivcV
      · simp
      · cases he : encodeMt s with
        | error e => simp
        | ok f => simp

/-! ### One lemma per operation -/

theorem execCrc16_cases (s : State) :
    exec .crc16 s = .next (complete .ok { s with crcOut := crc16 (opbOperand s) }) := rfl

theorem execEncode_cases (s : State) :
    (∃ e, exec .encode s = .next (complete e s) ∧ encodeMt s = .error e) ∨
    (∃ f, exec .encode s = .next (complete .ok (setTxf s f)) ∧ encodeMt s = .ok f) := by
  simp only [exec, execEncode]
  rcases encodeBody_cases s with ⟨e, h, he⟩ | ⟨f, h, hf⟩ <;> rw [h]
  · exact .inl ⟨e, rfl, he⟩
  · exact .inr ⟨f, rfl, hf⟩

theorem execDecode_cases (s : State) :
    (∃ e, exec .decode s = .next (complete e (setMrValid s false)) ∧ decodeFrame (opbOperand s) = .error e) ∨
    (∃ f, exec .decode s = .next (complete .ok (commit f s)) ∧ decodeFrame (opbOperand s) = .ok f) := by
  simp only [exec, execDecode]
  cases h : decodeFrame (opbOperand s) with
  | error e => exact .inl ⟨e, rfl, rfl⟩
  | ok f => exact .inr ⟨f, rfl, rfl⟩

theorem execLoadScbk_cases (s : State) :
    (exec .loadScbk s = .next (complete .invalidKeyLength s) ∧ s.opbLen.toNat ≠ 16) ∨
    (exec .loadScbk s = .next (complete .ok (setKeyFlags (forget (forget (forget (forget
      (setBuffer s .scbk (memRead s .opb 0 16)) .sEnc) .sMac1) .sMac2) .ivc) true false false)) ∧
      s.opbLen.toNat = 16) := by
  simp only [exec, execLoadScbk, loadScbkBody]
  by_cases h : s.opbLen.toNat ≠ keyLen
  · rw [if_pos h]; exact .inl ⟨rfl, h⟩
  · rw [if_neg h]; exact .inr ⟨rfl, not_not.mp h⟩

theorem execLoadIv_cases (s : State) :
    (exec .loadIv s = .next (complete .invalidIVLength s) ∧ s.opbLen.toNat ≠ 16) ∨
    (exec .loadIv s = .next (complete .ok
      (setKeyFlags (setBuffer s .ivc (memRead s .opb 0 16)) s.status.scbkV s.status.skV true)) ∧
      s.opbLen.toNat = 16) := by
  simp only [exec, execLoadIv, loadIvBody]
  by_cases h : s.opbLen.toNat ≠ ivLen
  · rw [if_pos h]; exact .inl ⟨rfl, h⟩
  · rw [if_neg h]; exact .inr ⟨rfl, not_not.mp h⟩

/-- The three session keys of a challenge, before the IV is forgotten (43_secure_channel.md R203). -/
theorem execDeriveKeys_cases (s : State) :
    (exec .deriveKeys s = .next (complete .invalidKeyLength s) ∧ s.status.scbkV = false) ∨
    (exec .deriveKeys s = .next (complete .invalidChallengeLength s) ∧ s.status.scbkV = true ∧ s.opbLen.toNat ≠ 8) ∨
    (exec .deriveKeys s = .next (complete .ok (setKeyFlags (forget (setBuffer (setBuffer (setBuffer s
        .sEnc (aesE (keyBytes s .scbk) (keyTemplate 0x01#8 0x82#8 (memRead s .opb 0 8))))
        .sMac1 (aesE (keyBytes s .scbk) (keyTemplate 0x01#8 0x01#8 (memRead s .opb 0 8))))
        .sMac2 (aesE (keyBytes s .scbk) (keyTemplate 0x01#8 0x02#8 (memRead s .opb 0 8))))
      .ivc) s.status.scbkV true false)) ∧ s.status.scbkV = true ∧ s.opbLen.toNat = 8) := by
  simp only [exec, execDeriveKeys, deriveKeysBody]
  cases hk : s.status.scbkV
  · exact .inl ⟨rfl, rfl⟩
  · rw [if_neg (by simp)]
    by_cases h : s.opbLen.toNat ≠ chalLen
    · rw [if_pos h]; exact .inr (.inl ⟨rfl, rfl, h⟩)
    · rw [if_neg h]; exact .inr (.inr ⟨rfl, rfl, not_not.mp h⟩)

theorem execCryptogram_cases (s : State) :
    (exec .cryptogram s = .next (complete .invalidKeyLength s) ∧ s.status.skV = false) ∨
    (exec .cryptogram s = .next (complete .invalidChallengeLength s) ∧ s.status.skV = true ∧ s.opbLen.toNat ≠ 16) ∨
    (exec .cryptogram s = .next (complete .ok { setBuffer s .res
        (aesE (keyBytes s .sEnc) (memRead s .opb 0 16)) with resLen := 16#8 }) ∧ s.status.skV = true ∧
      s.opbLen.toNat = 16) := by
  simp only [exec, execCryptogram, cryptogramBody]
  cases hk : s.status.skV
  · exact .inl ⟨rfl, rfl⟩
  · rw [if_neg (by simp)]
    by_cases h : s.opbLen.toNat ≠ blockLen
    · rw [if_pos h]; exact .inr (.inl ⟨rfl, rfl, h⟩)
    · rw [if_neg h]; exact .inr (.inr ⟨rfl, rfl, not_not.mp h⟩)

theorem execGenMac_cases (s : State) :
    (∃ e, genMacBody s = .error e ∧ exec .genMac s = .next (complete e s)) ∨
    (∃ f, genMacBody s = .ok (macedFrame s f) ∧ encodeMt s = .ok f ∧
      exec .genMac s = .next (complete .ok (macedFrame s f))) := by
  simp only [exec, execGenMac]
  rcases genMacBody_cases s with ⟨h, _⟩ | ⟨h, _⟩ | ⟨h, _⟩ | ⟨_, _, _, ⟨e, h, _⟩ | ⟨f, h, hf⟩⟩ <;> rw [h]
  case inr.inr.inr.inr => exact .inr ⟨f, rfl, hf, rfl⟩
  all_goals exact .inl ⟨_, rfl, rfl⟩

/-- The checks of VERIFY_MAC in their order; MAC_OK is clear in every state but the last. -/
theorem execVerifyMac_cases (s : State) (mac last : Bytes)
    (hm : (mac, last) = sessionMac s (memRead s .rxf 0 (s.rxfLen.toNat - 6))) :
    (∃ e, e ∈ [Code.illegalState, .notSecureMessage, .invalidKeyLength, .invalidIVLength, .macMismatch] ∧
      exec .verifyMac s = .next (complete e (setMacOk s false))) ∨
    (exec .verifyMac s = .next (complete .ok (setBuffer (setMacOk s true) .ivc last)) ∧ s.status.mrValid = true ∧
      s.mr.secure = 1#1 ∧ s.mr.macv = 1#1 ∧ s.status.skV = true ∧ s.status.ivcV = true ∧
      mac = memRead s .mrMac 0 4) := by
  have hs : sessionMac (setMacOk s false) (memRead (setMacOk s false) .rxf 0 (s.rxfLen.toNat - (macLen + crcLen))) =
      (mac, last) := by
    rw [hm]; rfl
  simp only [exec, execVerifyMac, verifyMacBody, setMacOk_rxfLen, setMacOk_mr, setMacOk_status_mrValid,
    setMacOk_status_skV, setMacOk_status_ivcV, hs]
  cases h1 : s.status.mrValid
  · exact .inl ⟨_, by simp, rfl⟩
  · rw [if_neg (by simp)]
    by_cases h2 : s.mr.secure = 0#1 ∨ s.mr.macv = 0#1
    · rw [if_pos h2]; exact .inl ⟨_, by simp, rfl⟩
    · rw [if_neg h2]
      cases h3 : s.status.skV
      · exact .inl ⟨_, by simp, rfl⟩
      · rw [if_neg (by simp)]
        cases h4 : s.status.ivcV
        · exact .inl ⟨_, by simp, rfl⟩
        · rw [if_neg (by simp)]
          by_cases h5 : mac ≠ memRead (setMacOk s false) .mrMac 0 macLen
          · rw [if_pos h5]; exact .inl ⟨_, by simp, rfl⟩
          · rw [if_neg h5]
            have hb : ∀ b : BitVec 1, b ≠ 0#1 → b = 1#1 := by decide
            exact .inr ⟨rfl, rfl, hb _ (fun e => h2 (.inl e)), hb _ (fun e => h2 (.inr e)), rfl, rfl, not_not.mp h5⟩

theorem execEncrypt_cases (k : KeySel) (m : BankSel) (s : State) :
    (∃ e, e ∈ [Code.invalidKeyLength, .invalidIVLength, .invalidLength] ∧
      exec (.encrypt k m) s = .next (complete e s)) ∨
    (kselFlag s k = true ∧ s.status.ivcV = true ∧ (pad16 (payload s m)).length ≤ 65535 ∧
      ∃ c v, (c, v) = cbcEncrypt (keyBytes s (kselBuf k)) (keyBytes s .ivc) (pad16 (payload s m)) ∧
        exec (.encrypt k m) s = .next (complete .ok (setBuffer (setPayload s m c) .ivc v))) := by
  simp only [exec, execEncrypt, encryptBody]
  cases h1 : kselFlag s k
  · exact .inl ⟨_, by simp, rfl⟩
  · rw [if_neg (by simp)]
    cases h2 : s.status.ivcV
    · exact .inl ⟨_, by simp, rfl⟩
    · rw [if_neg (by simp)]
      by_cases h3 : payCap < (pad16 (payload s m)).length
      · rw [if_pos h3]; exact .inl ⟨_, by simp, rfl⟩
      · rw [if_neg h3]
        exact .inr ⟨rfl, rfl, by unfold payCap at h3; omega, _, _, rfl, rfl⟩

theorem execDecrypt_cases (k : KeySel) (m : BankSel) (s : State) :
    (∃ e, e ∈ [Code.invalidKeyLength, .invalidIVLength, .unpaddedCiphertext] ∧
      exec (.decrypt k m) s = .next (complete e s)) ∨
    (kselFlag s k = true ∧ s.status.ivcV = true ∧ (mselLen s m).toNat % 16 = 0 ∧ (mselLen s m).toNat ≠ 0 ∧
      ∃ q v u, (q, v) = cbcDecrypt (keyBytes s (kselBuf k)) (keyBytes s .ivc) (payload s m) ∧ unpad16 q = some u ∧
        exec (.decrypt k m) s = .next (complete .ok (setBuffer (setPayload s m u) .ivc v))) := by
  simp only [exec, execDecrypt, decryptBody]
  cases h1 : kselFlag s k
  · exact .inl ⟨_, by simp, rfl⟩
  · rw [if_neg (by simp)]
    cases h2 : s.status.ivcV
    · exact .inl ⟨_, by simp, rfl⟩
    · rw [if_neg (by simp)]
      by_cases h3 : (mselLen s m).toNat % blockLen ≠ 0 ∨ (mselLen s m).toNat = 0
      · rw [if_pos h3]; exact .inl ⟨_, by simp, rfl⟩
      · rw [if_neg h3]
        cases h4 : unpad16 (cbcDecrypt (keyBytes s (kselBuf k)) (keyBytes s .ivc) (payload s m)).1 with
        | none => exact .inl ⟨_, by simp, rfl⟩
        | some u => exact .inr ⟨rfl, rfl, by unfold blockLen at h3; omega, by omega, _, _, u, rfl, h4, rfl⟩

/-! ### The messenger -/

theorem sendBody_cases (s : State) :
    (∃ e, sendBody s = .error e) ∨ (∃ f, encodeMt s = .ok f ∧ sendBody s = .ok (setTxf s f)) ∨
    (∃ f, encodeMt s = .ok f ∧ mtMacBearing s = true ∧ s.status.ivcV = true ∧ sendBody s = .ok (macedFrame s f)) := by
  unfold sendBody
  cases hp : sendMacPath s
  · rcases encodeBody_cases s with ⟨e, h, _⟩ | ⟨f, h, hf⟩
    · exact .inl ⟨e, by simpa using h⟩
    · exact .inr (.inl ⟨f, hf, by simpa using h⟩)
  · rcases genMacBody_cases s with ⟨h, _⟩ | ⟨h, _⟩ | ⟨h, _⟩ | ⟨hm, _, hi, ⟨e, h, _⟩ | ⟨f, h, hf⟩⟩
    case inr.inr.inr.inr => exact .inr (.inr ⟨f, hf, hm, hi, by simpa using h⟩)
    all_goals exact .inl ⟨_, by simpa using h⟩

/-- The errors of frame assembly inside SEND; NotSecureMessage is excluded by the path (44_messenger.md R245). -/
theorem sendBody_error {s : State} {e : Code} (h : sendBody s = .error e) :
    e ∈ [Code.invalidSequenceNumber, .secureBlockTooLarge, .invalidSecureBlockType, .invalidLength,
      .invalidKeyLength, .invalidIVLength] := by
  have key : encodeMt s = .error e → e ∈ [Code.invalidSequenceNumber, .secureBlockTooLarge,
      .invalidSecureBlockType, .invalidLength, .invalidKeyLength, .invalidIVLength] := by
    intro he
    have := encodeMt_error he
    simp only [List.mem_cons, List.not_mem_nil, or_false] at this ⊢
    tauto
  unfold sendBody at h
  cases hp : sendMacPath s
  · rw [hp, if_neg (by simp)] at h
    rcases encodeBody_cases s with ⟨e', h', he⟩ | ⟨f, h', _⟩ <;> rw [h] at h'
    · cases h'; exact key he
    · cases h'
  · rw [hp, if_pos rfl] at h
    have hm : mtMacBearing s = true := by
      unfold sendMacPath at hp; revert hp; cases mtMacBearing s <;> simp
    rcases genMacBody_cases s with ⟨_, h'⟩ | ⟨h', _⟩ | ⟨h', _⟩ | ⟨_, _, _, ⟨e', h', he⟩ | ⟨f, h', _⟩⟩
    · rw [hm] at h'; cases h'
    · rw [h] at h'; cases h'; simp
    · rw [h] at h'; cases h'; simp
    · rw [h] at h'; cases h'; exact key he
    · rw [h] at h'; cases h'

/-- SEND before its call (44_messenger.md R240, R245). -/
theorem sendStart_cases (s : State) :
    (sendStart s = complete .illegalState s ∧ s.status.mstate = .awaitingResponse) ∨
    (s.status.mstate ≠ .awaitingResponse ∧
      ((∃ e, sendBody (setMState s .sending) = .error e ∧ sendStart s = complete e (setMState s .failed)) ∨
       (∃ t, sendBody (setMState s .sending) = .ok t ∧ sendStart s = setCall t (.transmit (txfFrame t))))) := by
  unfold sendStart
  by_cases h : s.status.mstate = .awaitingResponse
  · rw [if_pos h]; exact .inl ⟨rfl, h⟩
  · rw [if_neg h]
    refine .inr ⟨h, ?_⟩
    cases hb : sendBody (setMState s .sending) with
    | error e => exact .inl ⟨e, rfl, rfl⟩
    | ok t => exact .inr ⟨t, rfl, rfl⟩

theorem execSend_cases (s : State) :
    (s.call = .none ∧ exec .send s = .next (sendStart s)) ∨
    (∃ f, s.call = .transmit f ∧
      ((s.env.transmitQ = [] ∧ exec .send s = .next s) ∨
       (∃ rest, s.env.transmitQ = .ok :: rest ∧ exec .send s = .next (complete .ok (setMState
          (setCall { s with env := { s.env with transmitQ := rest } } .none) .awaitingResponse))) ∨
       (∃ rest, s.env.transmitQ = .transmitError :: rest ∧ exec .send s = .next (complete .transmitError (setMState
          (setCall { s with env := { s.env with transmitQ := rest } } .none) .failed))))) ∨
    ((s.call = .receive ∨ s.call = .reset) ∧ exec .send s = .next s) := by
  simp only [exec, execSend]
  cases hc : s.call with
  | none => exact .inl ⟨rfl, rfl⟩
  | transmit f =>
    refine .inr (.inl ⟨f, rfl, ?_⟩)
    simp only [sendAnswer]
    cases hq : s.env.transmitQ with
    | nil => exact .inl ⟨rfl, rfl⟩
    | cons a rest =>
      cases a
      · exact .inr (.inl ⟨rest, rfl, rfl⟩)
      · exact .inr (.inr ⟨rest, rfl, rfl⟩)
  | receive => exact .inr (.inr ⟨.inl rfl, rfl⟩)
  | reset => exact .inr (.inr ⟨.inr rfl, rfl⟩)

/-- One turn of the loop's head (44_messenger.md R252). -/
theorem receiveTurn_cases (s : State) :
    (s.dl.toNat ≤ elapsed s.cfg (nextNow s) s.t0 ∧
      receiveTurn s = setCall (setMState (accClear (sampled s)) .timedOut) .reset) ∨
    (elapsed s.cfg (nextNow s) s.t0 < s.dl.toNat ∧ receiveTurn s = setCall (sampled s) .receive) := by
  unfold receiveTurn
  by_cases h : s.dl.toNat ≤ elapsed s.cfg (nextNow s) s.t0
  · rw [if_pos h]; exact .inl ⟨h, rfl⟩
  · rw [if_neg h]; exact .inr ⟨by omega, rfl⟩

theorem receiveStart_cases (s : State) :
    (receiveStart s = complete .illegalState s ∧ s.status.mstate ≠ .awaitingResponse) ∨
    (s.status.mstate = .awaitingResponse ∧
      receiveStart s = receiveTurn { sampled (setMrValid s false) with t0 := nextNow s, dl := s.deadline }) := by
  unfold receiveStart
  by_cases h : s.status.mstate ≠ .awaitingResponse
  · rw [if_pos h]; exact .inl ⟨rfl, h⟩
  · rw [if_neg h]; exact .inr ⟨not_not.mp h, rfl⟩

/-- The end of one pass through the loop's body (44_messenger.md R250). -/
theorem receiveDecode_cases (s : State) :
    (decodeFrame (accBytes s) = .error .incomplete ∧ receiveDecode s = receiveTurn s) ∨
    (∃ e, e ≠ .incomplete ∧ decodeFrame (accBytes s) = .error e ∧
      receiveDecode s = complete e (setMState (accClear s) .failed)) ∨
    (∃ f, decodeFrame (accBytes s) = .ok f ∧
      receiveDecode s = complete .ok (setMState (accClear (commit f s)) .complete)) := by
  unfold receiveDecode
  cases h : decodeFrame (accBytes s) with
  | ok f => exact .inr (.inr ⟨f, rfl, rfl⟩)
  | error e =>
    by_cases he : e = .incomplete
    · subst he; exact .inl ⟨rfl, rfl⟩
    · refine .inr (.inl ⟨e, he, rfl, ?_⟩)
      cases e <;> first | rfl | (exact absurd rfl he)

/-- `s` with the head of its receive answers consumed and no call in flight. -/
abbrev received (s : State) (rest : List ReceiveAnswer) : State :=
  setCall { s with env := { s.env with receiveQ := rest } } .none

theorem execReceive_cases (s : State) :
    (s.call = .none ∧ exec .receive s = .next (receiveStart s)) ∨
    (s.call = .receive ∧
      ((s.env.receiveQ = [] ∧ exec .receive s = .next s) ∨
       (∃ rest, s.env.receiveQ = .receiveError :: rest ∧
          exec .receive s = .next (complete .receiveError (setMState (accClear (received s rest)) .failed))) ∨
       (∃ r rest, s.env.receiveQ = .bytes r :: rest ∧
         ((s.cfg.accCap < s.accLen.toNat + r.length ∧
            exec .receive s = .next (complete .accumulatorOverflow (setMState (accClear (received s rest)) .failed))) ∨
          (s.accLen.toNat + r.length ≤ s.cfg.accCap ∧
            exec .receive s = .next (receiveDecode (accAppend (received s rest) r))))))) ∨
    (s.call = .reset ∧
      ((s.env.resetQ = [] ∧ exec .receive s = .next s) ∨
       (∃ rest, s.env.resetQ = .ok :: rest ∧ exec .receive s = .next (complete .receiveTimeout
          (setCall { s with env := { s.env with resetQ := rest } } .none))) ∨
       (∃ rest, s.env.resetQ = .resetError :: rest ∧ exec .receive s = .next (complete .resetError
          (setCall { s with env := { s.env with resetQ := rest } } .none))))) ∨
    (∃ f, s.call = .transmit f ∧ exec .receive s = .next s) := by
  simp only [exec, execReceive]
  cases hc : s.call with
  | none => exact .inl ⟨rfl, rfl⟩
  | receive =>
    refine .inr (.inl ⟨rfl, ?_⟩)
    simp only [receiveAnswer]
    cases hq : s.env.receiveQ with
    | nil => exact .inl ⟨rfl, rfl⟩
    | cons a rest =>
      cases a with
      | receiveError => exact .inr (.inl ⟨rest, rfl, rfl⟩)
      | bytes r =>
        refine .inr (.inr ⟨r, rest, rfl, ?_⟩)
        by_cases h : s.cfg.accCap < s.accLen.toNat + r.length
        · exact .inl ⟨h, congrArg Host.Outcome.next (if_pos h)⟩
        · exact .inr ⟨by omega, congrArg Host.Outcome.next (if_neg h)⟩
  | reset =>
    refine .inr (.inr (.inl ⟨rfl, ?_⟩))
    simp only [resetAnswer]
    cases hq : s.env.resetQ with
    | nil => exact .inl ⟨rfl, rfl⟩
    | cons a rest =>
      cases a
      · exact .inr (.inl ⟨rest, rfl, rfl⟩)
      · exact .inr (.inr ⟨rest, rfl, rfl⟩)
  | transmit f => exact .inr (.inr (.inr ⟨f, rfl, rfl⟩))

theorem execMclear_cases (s : State) :
    exec .mclear s = .next (complete .ok (setMState (setMrValid (accClear s) false) .idle)) := rfl

/-! ### Host transactions -/

theorem execRegrd_cases (sel : BitVec 8) (s : State) :
    (exec (.regrd sel) s = .next (refuse s) ∧ ((s.status.busy = true ∧ sel ≠ 0x01#8) ∨ regValue s sel = none)) ∨
    (∃ v, regValue s sel = some v ∧ exec (.regrd sel) s = .next { s with rdata := v } ∧
      (s.status.busy = true → sel = 0x01#8)) := by
  simp only [exec, execRegrd]
  by_cases hb : s.status.busy = true ∧ sel ≠ 0x01#8
  · exact .inl ⟨if_pos hb, .inl hb⟩
  · rw [if_neg hb]
    cases h : regValue s sel with
    | none => exact .inl ⟨rfl, .inr rfl⟩
    | some v => exact .inr ⟨v, rfl, rfl, fun h' => not_not.mp fun h'' => hb ⟨h', h''⟩⟩

/-- What a REGWR that is not refused can write (45_host_access.md R271, R273, R277). -/
theorem regWritten_cases {s t : State} {sel : BitVec 8} {v : BitVec 64} (h : regWritten s sel v = some t) :
    (sel = 0x00#8 ∧ t = accept s (v.setWidth 16)) ∨ (sel = 0x01#8 ∧ t = acknowledge s (v.setWidth 16)) ∨
    (sel = 0x04#8 ∧ t = { s with ctrl := v.setWidth 2 }) ∨
    (sel = 0x05#8 ∧ t = { s with deadline := maskTick s.cfg v }) ∨
    (sel = 0x08#8 ∧ (v.setWidth 16).toNat ≤ s.cfg.opbCap ∧ t = { s with opbLen := v.setWidth 16 }) ∨
    (0x10 ≤ sel.toNat ∧ sel.toNat ≤ 0x17 ∧ ∃ b, t = { s with mt := b }) := by
  have hs : ∀ {n : Nat}, sel.toNat = n → sel = BitVec.ofNat 8 n := fun e => by rw [← e, BitVec.ofNat_toNat]; simp
  unfold regWritten at h
  split at h
  · rename_i e; exact .inl ⟨hs e, (Option.some.inj h).symm⟩
  · rename_i e; exact .inr (.inl ⟨hs e, (Option.some.inj h).symm⟩)
  · rename_i e; exact .inr (.inr (.inl ⟨hs e, (Option.some.inj h).symm⟩))
  · rename_i e; exact .inr (.inr (.inr (.inl ⟨hs e, (Option.some.inj h).symm⟩)))
  · rename_i e
    split at h
    · cases h
    · rename_i hc
      exact .inr (.inr (.inr (.inr (.inl ⟨hs e, Nat.le_of_not_lt hc, (Option.some.inj h).symm⟩))))
  all_goals first
    | (rename_i e
       exact .inr (.inr (.inr (.inr (.inr ⟨by omega, by omega, _, (Option.some.inj h).symm⟩)))))
    | cases h

theorem execRegwr_cases (sel : BitVec 8) (v : BitVec 64) (s : State) :
    (exec (.regwr sel v) s = .next (refuse s) ∧ (s.status.busy = true ∨ regWritten s sel v = none)) ∨
    (s.status.busy = false ∧ ∃ t, regWritten s sel v = some t ∧ exec (.regwr sel v) s = .next { t with rdata := 0 }) := by
  simp only [exec, execRegwr]
  cases hb : s.status.busy
  · rw [if_neg (by simp)]
    cases h : regWritten s sel v with
    | none => exact .inl ⟨rfl, .inr rfl⟩
    | some t => exact .inr ⟨rfl, t, rfl, rfl⟩
  · exact .inl ⟨rfl, .inl rfl⟩

theorem selRefused_eq_false {s : State} {sel : BitVec 8} {off : BitVec 32} :
    selRefused s sel off = false ↔ sel.extractLsb' 4 4 = 0#4 ∧ off.toNat < (selBuf sel).cap s.cfg := by
  simp [selRefused]

theorem execBufrd_cases (sel : BitVec 8) (off : BitVec 32) (s : State) :
    (exec (.bufrd sel off) s = .next (refuse s) ∧ (s.status.busy = true ∨ selRefused s sel off = true)) ∨
    (exec (.bufrd sel off) s = .next { s with rdata := (readByte s (selBuf sel) off.toNat).setWidth 64 } ∧
      s.status.busy = false ∧ selRefused s sel off = false) := by
  simp only [exec, execBufrd]
  by_cases h : s.status.busy = true ∨ selRefused s sel off = true
  · exact .inl ⟨if_pos h, h⟩
  · refine .inr ⟨if_neg h, ?_⟩
    simpa using h

theorem execBufwr_cases (sel : BitVec 8) (off : BitVec 32) (w : BitVec 64) (s : State) :
    (exec (.bufwr sel off w) s = .next (refuse s) ∧
      (s.status.busy = true ∨ selRefused s sel off = true ∨ (selBuf sel).hostWritable = false)) ∨
    (exec (.bufwr sel off w) s = .next { memWrite s (selBuf sel) off.toNat [w.setWidth 8] with rdata := 0 } ∧
      s.status.busy = false ∧ selRefused s sel off = false ∧ (selBuf sel).hostWritable = true) := by
  simp only [exec, execBufwr]
  by_cases h : s.status.busy = true ∨ selRefused s sel off = true ∨ (selBuf sel).hostWritable = false
  · exact .inl ⟨if_pos h, h⟩
  · refine .inr ⟨if_neg h, ?_⟩
    simpa using h

/-! ### The step -/

/-- Everything a step can be (00_scope.md R9). -/
theorem step_cases (s : State) :
    (mover s = .rst ∧ step s = .next (assertRst (moved s))) ∨
    (mover s = .sequencer ∧ s.status.busy = false ∧ step s = .next (moved s)) ∨
    (mover s = .sequencer ∧ s.status.busy = true ∧
      ((∃ e, decodeCommand s.curCmd = .error e ∧ step s = .next (complete .illegalOperation (moved s))) ∨
       (∃ i, decodeCommand s.curCmd = .ok i ∧ step s = exec i (moved s)))) ∨
    (mover s = .host ∧
      ((s.env.hostQ = [] ∧ step s = .next (moved s)) ∨
       (∃ w rest, s.env.hostQ = w :: rest ∧ step s =
          exec (decodeTransaction w) { moved s with env := { (moved s).env with hostQ := rest } }))) := by
  have hb : (moved s).status.busy = s.status.busy := rfl
  have hc : (moved s).curCmd = s.curCmd := rfl
  have hq : (moved s).env.hostQ = s.env.hostQ := rfl
  unfold step fetch
  cases hm : mover s with
  | rst => exact .inl ⟨rfl, rfl⟩
  | sequencer =>
    simp only [fetchCommand, hb, hc]
    cases h1 : s.status.busy
    · exact .inr (.inl ⟨trivial, rfl, rfl⟩)
    · refine .inr (.inr (.inl ⟨trivial, rfl, ?_⟩))
      cases h2 : decodeCommand s.curCmd with
      | error e => exact .inl ⟨e, rfl, rfl⟩
      | ok i => exact .inr ⟨i, rfl, rfl⟩
  | host =>
    refine .inr (.inr (.inr ⟨rfl, ?_⟩))
    simp only [fetchTransaction, hq]
    cases h1 : s.env.hostQ with
    | nil => exact .inl ⟨rfl, rfl⟩
    | cons w rest => exact .inr ⟨w, rest, rfl, rfl⟩

end Sys2Proof.Machine
end

