-- ==== Sys2Proof/Laws/Codec.lean ====
section
/-! SUPPORT. The decoder's scan, its checks, and what it reads from a frame laid out as 30_encoding.md R100 says. -/

namespace Sys2Proof.Machine

open Sys2Proof

/-! ### Bytes of a string -/

theorem byteAt_append_left {f g : Bytes} {i : Nat} (h : i < f.length) : byteAt (f ++ g) i = byteAt f i := by
  unfold byteAt
  rw [List.getD_eq_getElem?_getD, List.getD_eq_getElem?_getD, List.getElem?_append_left h]

theorem slice_append_left {f g : Bytes} {a n : Nat} (h : a + n ≤ f.length) : slice (f ++ g) a n = slice f a n := by
  unfold slice
  rw [List.drop_append_of_le_length (by omega), List.take_append_of_le_length (by simp; omega)]

theorem slice_middle (x y z : Bytes) : slice (x ++ y ++ z) x.length y.length = y := by
  unfold slice
  rw [List.append_assoc, List.drop_left, List.take_left]

theorem byteAt_middle (x z : Bytes) (b : Byte) : byteAt (x ++ b :: z) x.length = b := by
  unfold byteAt
  rw [List.getD_eq_getElem?_getD, List.getElem?_append_right (le_refl _)]
  simp

theorem length_slice {f : Bytes} {a n : Nat} (h : a + n ≤ f.length) : (slice f a n).length = n := by
  unfold slice; simp; omega

theorem le16_fromLe16 (b0 b1 : Byte) : le16 (BitVec.ofNat 16 (fromLe16 b0 b1)) = [b0, b1] := by
  have h0 := b0.isLt
  have h1 := b1.isLt
  unfold le16 fromLe16
  congr 1
  · apply BitVec.eq_of_toNat_eq
    rw [BitVec.extractLsb'_toNat, BitVec.toNat_ofNat, Nat.shiftRight_zero]
    omega
  · congr 1
    apply BitVec.eq_of_toNat_eq
    rw [BitVec.extractLsb'_toNat, BitVec.toNat_ofNat, Nat.shiftRight_eq_div_pow]
    omega

theorem fromLe16_le16 (v : BitVec 16) : fromLe16 (v.extractLsb' 0 8) (v.extractLsb' 8 8) = v.toNat := by
  have := v.isLt
  unfold fromLe16
  rw [BitVec.extractLsb'_toNat, BitVec.extractLsb'_toNat, Nat.shiftRight_zero, Nat.shiftRight_eq_div_pow]
  omega

theorem fromLe16_lt (b0 b1 : Byte) : fromLe16 b0 b1 < 65536 := by
  have h0 := b0.isLt
  have h1 := b1.isLt
  unfold fromLe16; omega

/-! ### The marker scan -/

theorem markerIndex_of_not_mem {b : Bytes} (h : som ∉ b) : markerIndex b = 0 := by
  unfold markerIndex
  have : b.findIdx? (fun x => x == som) = none := by
    rw [List.findIdx?_eq_none_iff]
    intro x hx
    simp only [beq_eq_false_iff_ne, ne_eq]
    rintro rfl; exact h hx
  rw [this]

theorem markerIndex_noise {noise : Bytes} (h : som ∉ noise) (rest : Bytes) :
    markerIndex (noise ++ som :: rest) = noise.length := by
  unfold markerIndex
  have : (noise ++ som :: rest).findIdx? (fun x => x == som) = some noise.length := by
    induction noise with
    | nil => rfl
    | cons x xs ih =>
      have hx : (x == som) = false := by
        simp only [beq_eq_false_iff_ne, ne_eq]; rintro rfl; simp at h
      rw [List.cons_append, List.findIdx?_cons, hx, ih (fun hm => h (List.mem_cons_of_mem _ hm))]
      rfl
  rw [this]

/-- Either no marker, or noise without one and then the first. -/
theorem marker_split (b : Bytes) :
    som ∉ b ∨ ∃ noise rest, som ∉ noise ∧ b = noise ++ som :: rest := by
  induction b with
  | nil => simp
  | cons x xs ih =>
    by_cases hx : x = som
    · exact .inr ⟨[], xs, by simp, by rw [hx]; rfl⟩
    · rcases ih with h | ⟨noise, rest, hn, he⟩
      · exact .inl (by simp [h, Ne.symm hx])
      · exact .inr ⟨x :: noise, rest, by simp [hn, Ne.symm hx], by rw [he]; rfl⟩

/-- `decode` behind noise (41_codec.md R162). -/
theorem decodeFrame_noise {noise : Bytes} (h : som ∉ noise) (f : Bytes) :
    decodeFrame (noise ++ som :: f) = match frameCheck (som :: f) with
      | some e => .error e
      | none => .ok (frameFields noise.length (som :: f)) := by
  unfold decodeFrame
  rewrite [markerIndex_noise h, List.drop_left]
  cases frameCheck (som :: f) <;> rfl

/-- `decode` with no marker in the buffer (41_codec.md R162, R163). -/
theorem decodeFrame_no_marker {b : Bytes} (h : som ∉ b) :
    decodeFrame b = .error (if b.length < 8 then .incomplete else .invalidStartOfMessage) := by
  unfold decodeFrame
  rw [markerIndex_of_not_mem h, List.drop_zero]
  unfold frameCheck minFrame
  by_cases h8 : b.length < 8
  · rw [if_pos h8, if_pos h8]
  · rw [if_neg h8, if_neg h8]
    have : byteAt b 0 ≠ som := by
      intro he
      apply h
      rw [← he]
      cases b with
      | nil => simp at h8
      | cons x xs => simp [byteAt]
    rw [if_pos this]

/-! ### The checks -/

theorem addr_mask_le (a : Byte) : ¬ 127 < (a &&& addrMask).toNat := by
  have : (a &&& addrMask).toNat ≤ 127 := by rw [BitVec.toNat_and]; exact Nat.and_le_right
  omega

theorem frameNeed_ge (f : Bytes) : 8 ≤ frameNeed f := by
  unfold frameNeed frameCodeAt crcLen; split <;> omega

theorem frameLen_lt (f : Bytes) : frameLen f < 65536 := fromLe16_lt _ _

/-- The checks from step 5 on, for a string that begins with the marker and has 8 bytes. -/
theorem frameCheck_eq {f : Bytes} (h8 : 8 ≤ f.length) (h0 : byteAt f 0 = som) :
    frameCheck f =
      if f.length < frameLen f then some .incomplete
      else if (frameSecured f ∧ (byteAt f 5).toNat < 2) ∨ frameLen f < frameNeed f then some .invalidLength
      else if crc16 (slice f 0 (frameLen f - 2)) ≠
        BitVec.ofNat 16 (fromLe16 (byteAt f (frameLen f - 2)) (byteAt f (frameLen f - 1)))
        then some .checksumFailed
      else none := by
  unfold frameCheck
  rw [if_neg (by unfold minFrame; omega), if_neg (by simp [h0]), if_neg (addr_mask_le _)]
  by_cases h1 : f.length < frameLen f
  · rw [if_pos h1, if_pos h1]
  · rw [if_neg h1, if_neg h1]
    by_cases h2 : frameSecured f ∧ (byteAt f 5).toNat < 2
    · rw [if_pos h2, if_pos (.inl h2)]
    · rw [if_neg h2]
      by_cases h3 : frameLen f < frameNeed f
      · rw [if_pos h3, if_pos (.inr h3)]
      · have h23 : ¬((frameSecured f ∧ (byteAt f 5).toNat < 2) ∨ frameLen f < frameNeed f) := by tauto
        rw [if_neg h3, if_neg h23]; rfl

/-- What a string that passes every check satisfies. -/
theorem frameCheck_none {f : Bytes} (h : frameCheck f = none) :
    8 ≤ f.length ∧ byteAt f 0 = som ∧ frameLen f ≤ f.length ∧ frameNeed f ≤ frameLen f ∧
      (frameSecured f = true → 2 ≤ (byteAt f 5).toNat) ∧
      crc16 (slice f 0 (frameLen f - 2)) =
        BitVec.ofNat 16 (fromLe16 (byteAt f (frameLen f - 2)) (byteAt f (frameLen f - 1))) := by
  have h8 : 8 ≤ f.length := by
    by_contra hc
    unfold frameCheck at h
    rw [if_pos (by unfold minFrame; omega)] at h; cases h
  have h0 : byteAt f 0 = som := by
    by_contra hc
    unfold frameCheck at h
    rw [if_neg (by unfold minFrame; omega), if_pos hc] at h; cases h
  rw [frameCheck_eq h8 h0] at h
  split at h
  · cases h
  · rename_i h1
    split at h
    · cases h
    · rename_i h2
      split at h
      · cases h
      · rename_i h3
        refine ⟨h8, h0, by omega, by omega, fun hs => ?_, not_not.mp h3⟩
        by_contra hc
        exact h2 (.inl ⟨hs, by omega⟩)

/-- The errors of `decode`. -/
theorem decodeFrame_error {b : Bytes} {e : Code} (h : decodeFrame b = .error e) :
    e ∈ [Code.incomplete, .invalidStartOfMessage, .invalidLength, .checksumFailed] := by
  rcases marker_split b with hn | ⟨noise, rest, hn, rfl⟩
  · rw [decodeFrame_no_marker hn] at h
    cases h; split <;> simp
  · rw [decodeFrame_noise hn] at h
    by_cases h8 : 8 ≤ (som :: rest).length
    · rw [frameCheck_eq h8 rfl] at h
      split at h
      · rename_i e' he
        cases h
        split at he
        · cases he; simp
        · split at he
          · cases he; simp
          · split at he
            · cases he; simp
            · cases he
      · cases h
    · unfold frameCheck at h
      rw [if_pos (by unfold minFrame; omega)] at h
      cases h; simp

/-- A decoded frame lies behind noise without a marker and passed every check. -/
theorem decodeFrame_ok {b : Bytes} {r : Frame} (h : decodeFrame b = .ok r) :
    ∃ noise rest, som ∉ noise ∧ b = noise ++ som :: rest ∧ frameCheck (som :: rest) = none ∧
      r = frameFields noise.length (som :: rest) := by
  rcases marker_split b with hn | ⟨noise, rest, hn, rfl⟩
  · rw [decodeFrame_no_marker hn] at h; cases h
  · rw [decodeFrame_noise hn] at h
    split at h
    · cases h
    · rename_i hc
      exact ⟨noise, rest, hn, rfl, hc, (Except.ok.inj h).symm⟩

/-! ### Appending bytes -/

theorem frameHead_append {f : Bytes} (h8 : 8 ≤ f.length) (g : Bytes) :
    frameSecured (f ++ g) = frameSecured f ∧ byteAt (f ++ g) 5 = byteAt f 5 ∧ frameLen (f ++ g) = frameLen f ∧
      frameNeed (f ++ g) = frameNeed f ∧ frameCodeAt (f ++ g) = frameCodeAt f ∧
      frameMacBearing (f ++ g) = frameMacBearing f := by
  have hb : ∀ i, i < 8 → byteAt (f ++ g) i = byteAt f i := fun i hi => byteAt_append_left (by omega)
  unfold frameNeed frameMacBearing frameCodeAt frameSecured frameLen
  simp only [hb 2 (by omega), hb 3 (by omega), hb 4 (by omega), hb 5 (by omega), hb 6 (by omega), and_self]

theorem frameCheck_append {f : Bytes} (h8 : 8 ≤ f.length) (h0 : byteAt f 0 = som) (hl : frameLen f ≤ f.length)
    (g : Bytes) : frameCheck (f ++ g) = frameCheck f := by
  obtain ⟨e1, e2, e3, e4, _, _⟩ := frameHead_append h8 g
  have n1 : ¬ (f ++ g).length < frameLen f := by rw [List.length_append]; omega
  have n2 : ¬ f.length < frameLen f := by omega
  rw [frameCheck_eq (by simp; omega) ((byteAt_append_left (by omega)).trans h0), frameCheck_eq h8 h0, e1, e2, e3, e4,
    if_neg n1, if_neg n2]
  by_cases hn : (frameSecured f ∧ (byteAt f 5).toNat < 2) ∨ frameLen f < frameNeed f
  · rw [if_pos hn, if_pos hn]
  · rw [if_neg hn, if_neg hn]
    have hneed := frameNeed_ge f
    have hlen : 8 ≤ frameLen f := by
      by_contra hc; exact hn (.inr (by omega))
    rw [slice_append_left (by omega), byteAt_append_left (by omega), byteAt_append_left (by omega)]

theorem frameFields_append {f : Bytes} (h : frameCheck f = none) (p : Nat) (g : Bytes) :
    frameFields p (f ++ g) = frameFields p f := by
  obtain ⟨h8, h0, hl, hneed, hs, _⟩ := frameCheck_none h
  obtain ⟨e1, e2, e3, e4, e5, e6⟩ := frameHead_append h8 g
  have hb : ∀ i, i < f.length → byteAt (f ++ g) i = byteAt f i := fun i hi => byteAt_append_left hi
  have hcode : frameCodeAt f < f.length := by unfold frameNeed crcLen at hneed; omega
  have hpay : frameCodeAt f + 1 + (frameLen f - frameNeed f) ≤ f.length := by unfold frameNeed crcLen at *; omega
  unfold frameFields
  rw [e1, e2, e3, e4, e5, e6, hb 1 (by omega), hb 4 (by omega), hb 6 (by omega), hb _ hcode,
    slice_append_left hpay, slice_append_left (a := 0) (by omega)]
  congr 1
  · split
    · rename_i hsec
      refine slice_append_left ?_
      have := hs hsec
      unfold frameNeed frameCodeAt crcLen at hneed
      rw [if_pos hsec] at hneed
      omega
    · rfl
  · split
    · refine slice_append_left ?_
      unfold macLen
      have := frameNeed_ge f
      omega
    · rfl

/-! ### A frame as laid out -/

/-- The frame of 30_encoding.md R100 up to its CRC: `l` is LEN, `sb` the secure block, `mac` the MAC field. -/
abbrev layout (a : Byte) (l : BitVec 16) (ctrl : Byte) (sb : Bytes) (code : Byte) (pl mac : Bytes) : Bytes :=
  [som, a] ++ le16 l ++ [ctrl] ++ sb ++ [code] ++ pl ++ mac

/-- A frame as laid out, with the trailer `[x, y]`, is refused for its CRC or not at all. -/
theorem frameCheck_layout {a ctrl code : Byte} {l : BitVec 16} {sb pl mac data : Bytes} {ty : Byte}
    (hsb : if ctrl.getLsbD 3 = true then sb = [BitVec.ofNat 8 (2 + data.length), ty] ++ data ∧ data.length ≤ 253
      else sb = [] ∧ data = [] ∧ ty = 0#8)
    (hmac : mac.length = macField (ctrl.getLsbD 3 && decide (scsMacThreshold < ty.toNat)))
    (hlen : l.toNat = (layout a l ctrl sb code pl mac).length + 2) (x y : Byte) :
    frameCheck (layout a l ctrl sb code pl mac ++ [x, y]) =
      if [x, y] = le16 (crc16 (layout a l ctrl sb code pl mac)) then none else some .checksumFailed := by
  set body := layout a l ctrl sb code pl mac with hbody
  have hcons : body ++ [x, y] = som :: a :: l.extractLsb' 0 8 :: l.extractLsb' 8 8 :: ctrl ::
      (sb ++ code :: (pl ++ mac ++ [x, y])) := by
    rw [hbody]; simp [le16]
  have hbl : body.length = 5 + sb.length + 1 + pl.length + mac.length := by
    rw [hbody]; simp [le16]; omega
  have h8 : 8 ≤ (body ++ [x, y]).length := by rw [List.length_append]; simp; omega
  have hL : frameLen (body ++ [x, y]) = l.toNat := by
    unfold frameLen; rw [hcons]; exact fromLe16_le16 l
  have hsec : frameSecured (body ++ [x, y]) = ctrl.getLsbD 3 := by unfold frameSecured; rw [hcons]; rfl
  have h5 : ctrl.getLsbD 3 = true → byteAt (body ++ [x, y]) 5 = BitVec.ofNat 8 (2 + data.length) ∧
      byteAt (body ++ [x, y]) 6 = ty := by
    intro hs; rw [if_pos hs] at hsb; rw [hcons, hsb.1]; exact ⟨rfl, rfl⟩
  have hneed : frameNeed (body ++ [x, y]) = 5 + sb.length + 1 + mac.length + 2 := by
    unfold frameNeed frameCodeAt frameMacBearing; rw [hsec, hmac]
    cases hs : ctrl.getLsbD 3
    · rw [hs, if_neg Bool.false_ne_true] at hsb; simp [hsb.1, crcLen]
    · rw [if_pos hs] at hsb
      rw [if_pos rfl, (h5 hs).1, (h5 hs).2, hsb.1]
      have := hsb.2
      simp [crcLen]; omega
  have e : l.toNat - 2 = body.length := by omega
  have e' : l.toNat - 1 = (body ++ [x]).length := by simp; omega
  have hx : byteAt (body ++ [x, y]) (l.toNat - 2) = x := by rw [e]; exact byteAt_middle _ _ _
  have hy : byteAt (body ++ [x, y]) (l.toNat - 1) = y := by
    rw [e', show body ++ [x, y] = (body ++ [x]) ++ y :: [] by simp]; exact byteAt_middle _ _ _
  have hs : slice (body ++ [x, y]) 0 (l.toNat - 2) = body := by
    rw [e]; unfold slice; rw [List.drop_zero, List.take_left]
  rw [frameCheck_eq h8 (by rw [hcons]; rfl), hL, if_neg (by rw [List.length_append]; simp; omega), if_neg, hx, hy, hs]
  · by_cases hc : [x, y] = le16 (crc16 body)
    · have hxy : x = (crc16 body).extractLsb' 0 8 ∧ y = (crc16 body).extractLsb' 8 8 := by simpa [le16] using hc
      rw [if_pos hc, hxy.1, hxy.2, fromLe16_le16]; simp
    · rw [if_neg hc, if_pos]
      intro he
      exact hc (by rw [he, le16_fromLe16])
  · rintro (⟨hs, h2⟩ | h2)
    · rw [hsec] at hs
      rw [if_pos hs] at hsb
      rw [(h5 hs).1] at h2
      have := hsb.2
      simp at h2; omega
    · omega

/-- What the decoder reads from a frame as laid out, whatever its MAC field holds and whatever follows it. -/
theorem decode_layout {a ctrl code : Byte} {l : BitVec 16} {sb pl mac data : Bytes} {ty : Byte}
    (hsb : if ctrl.getLsbD 3 = true then sb = [BitVec.ofNat 8 (2 + data.length), ty] ++ data ∧ data.length ≤ 253
      else sb = [] ∧ data = [] ∧ ty = 0#8)
    (hmac : mac.length = macField (ctrl.getLsbD 3 && decide (scsMacThreshold < ty.toNat)))
    (hlen : l.toNat = (layout a l ctrl sb code pl mac).length + 2) (p : Nat) (rest : Bytes) :
    frameCheck (withCrc (layout a l ctrl sb code pl mac) ++ rest) = none ∧
    frameFields p (withCrc (layout a l ctrl sb code pl mac) ++ rest) =
      { addr := a &&& addrMask, len := l.toNat, ctrl := ctrl, sqn := ctrl.extractLsb' 0 2,
        crcf := ctrl.extractLsb' 2 1, scb := ctrl.extractLsb' 3 1, sbtype := ty, sbdata := data, code := code,
        payload := pl, macv := ctrl.getLsbD 3 && decide (scsMacThreshold < ty.toNat),
        mac := if ctrl.getLsbD 3 && decide (scsMacThreshold < ty.toNat) then mac else zeros macLen,
        raw := withCrc (layout a l ctrl sb code pl mac), consumed := p + l.toNat } := by
  set body := layout a l ctrl sb code pl mac with hbody
  set F := withCrc body with hF
  have hcons : F = som :: a :: l.extractLsb' 0 8 :: l.extractLsb' 8 8 :: ctrl ::
      (sb ++ code :: (pl ++ mac ++ le16 (crc16 body))) := by
    rw [hF, withCrc, hbody]; simp [le16]
  have hFlen : F.length = l.toNat := by rw [hF, length_withCrc, hlen]
  have hbl : body.length = 5 + sb.length + 1 + pl.length + mac.length := by
    rw [hbody]; simp [le16]; omega
  have h8 : 8 ≤ F.length := by rw [hF, length_withCrc]; omega
  have hL : frameLen F = l.toNat := by
    unfold frameLen; rw [hcons]; exact fromLe16_le16 l
  have hsec : frameSecured F = ctrl.getLsbD 3 := by unfold frameSecured; rw [hcons]; rfl
  have h5 : ctrl.getLsbD 3 = true → byteAt F 5 = BitVec.ofNat 8 (2 + data.length) ∧ byteAt F 6 = ty := by
    intro hs; rw [if_pos hs] at hsb; rw [hcons, hsb.1]; exact ⟨rfl, rfl⟩
  have hcodeAt : frameCodeAt F = 5 + sb.length := by
    unfold frameCodeAt; rw [hsec]
    cases hs : ctrl.getLsbD 3
    · rw [hs, if_neg Bool.false_ne_true] at hsb; simp [hsb.1]
    · rw [if_pos hs] at hsb
      rw [if_pos rfl, (h5 hs).1, hsb.1]
      have := hsb.2
      simp; omega
  have hmb : frameMacBearing F = (ctrl.getLsbD 3 && decide (scsMacThreshold < ty.toNat)) := by
    unfold frameMacBearing; rw [hsec]
    cases hs : ctrl.getLsbD 3
    · rfl
    · rw [(h5 hs).2]
  have hneed : frameNeed F = 5 + sb.length + 1 + mac.length + 2 := by
    unfold frameNeed; rw [hcodeAt, hmb, hmac]; rfl
  have hcheckF : frameCheck F = none := (frameCheck_layout hsb hmac hlen _ _).trans (if_pos rfl)
  refine ⟨?_, ?_⟩
  · rw [frameCheck_append h8 (by rw [hcons]; rfl) (by omega)]; exact hcheckF
  · rw [frameFields_append hcheckF]
    unfold frameFields
    have hpay : slice F (5 + sb.length + 1) (l.toNat - (5 + sb.length + 1 + mac.length + 2)) = pl := by
      rw [show l.toNat - (5 + sb.length + 1 + mac.length + 2) = pl.length by omega]
      have e : F = (som :: a :: l.extractLsb' 0 8 :: l.extractLsb' 8 8 :: ctrl :: (sb ++ [code])) ++ pl ++
          (mac ++ le16 (crc16 body)) := by rw [hcons]; simp
      have := slice_middle (som :: a :: l.extractLsb' 0 8 :: l.extractLsb' 8 8 :: ctrl :: (sb ++ [code])) pl
        (mac ++ le16 (crc16 body))
      rw [← e] at this
      rwa [show 5 + sb.length + 1 = (som :: a :: l.extractLsb' 0 8 :: l.extractLsb' 8 8 :: ctrl ::
        (sb ++ [code])).length by simp; omega]
    have hcode : byteAt F (5 + sb.length) = code := by
      have := byteAt_middle (som :: a :: l.extractLsb' 0 8 :: l.extractLsb' 8 8 :: ctrl :: sb)
        (pl ++ mac ++ le16 (crc16 body)) code
      rw [show 5 + sb.length = (som :: a :: l.extractLsb' 0 8 :: l.extractLsb' 8 8 :: ctrl :: sb).length by
        simp; omega]
      rw [hcons]; exact this
    have hmacs : ctrl.getLsbD 3 && decide (scsMacThreshold < ty.toNat) →
        slice F (l.toNat - 6) macLen = mac := by
      intro hm
      have hm4 : mac.length = 4 := by rw [hmac, hm]; rfl
      have e : F = (som :: a :: l.extractLsb' 0 8 :: l.extractLsb' 8 8 :: ctrl :: (sb ++ code :: pl)) ++ mac ++
          le16 (crc16 body) := by rw [hcons]; simp
      have := slice_middle (som :: a :: l.extractLsb' 0 8 :: l.extractLsb' 8 8 :: ctrl :: (sb ++ code :: pl)) mac
        (le16 (crc16 body))
      rw [← e, hm4] at this
      rwa [show l.toNat - 6 = (som :: a :: l.extractLsb' 0 8 :: l.extractLsb' 8 8 :: ctrl ::
        (sb ++ code :: pl)).length by simp; omega]
    have hraw : slice F 0 l.toNat = F := by unfold slice; rw [List.drop_zero, ← hFlen, List.take_length]
    rw [hL, hsec, hcodeAt, hmb, hneed, hpay, hcode, hraw]
    have hb1 : byteAt F 1 = a := by rw [hcons]; rfl
    have hb4 : byteAt F 4 = ctrl := by rw [hcons]; rfl
    rw [hb1, hb4]
    congr 1
    · cases hs : ctrl.getLsbD 3
      · rw [hs, if_neg Bool.false_ne_true] at hsb; simp [hsb.2.2]
      · simp [(h5 hs).2]
    · cases hs : ctrl.getLsbD 3
      · rw [hs, if_neg Bool.false_ne_true] at hsb; simp [hsb.2.1]
      · rw [if_pos hs] at hsb
        rw [if_pos rfl, (h5 hs).1]
        have hd := hsb.2
        rw [show (BitVec.ofNat 8 (2 + data.length)).toNat - 2 = data.length by simp; omega]
        have e : F = (som :: a :: l.extractLsb' 0 8 :: l.extractLsb' 8 8 :: ctrl ::
            [BitVec.ofNat 8 (2 + data.length), ty]) ++ data ++ (code :: (pl ++ mac ++ le16 (crc16 body))) := by
          rw [hcons, hsb.1]; simp
        rw [e]
        exact slice_middle _ _ _
    · split
      · rename_i hm; exact hmacs hm
      · rfl

/-- The frame of bank MT is laid out as R100 says. -/
theorem mtFront_layout (s : State) (mac : Bytes) :
    mtFront s ++ mac = layout (s.mt.addr &&& addrMask) (BitVec.ofNat 16 (mtTotal s)) (mtCtrl s) (mtSecureBlock s)
      s.mt.code (payload s .mt) mac := rfl

/-- The control byte the encoder writes (30_encoding.md R105). -/
theorem mtCtrl_fields {s : State} (h : s.mt.seq.toNat ≤ 3) :
    (mtCtrl s).getLsbD 3 = mtSecured s ∧ ((mtCtrl s).extractLsb' 0 2).toNat = s.mt.seq.toNat ∧
      (mtCtrl s).extractLsb' 2 1 = 1#1 ∧ (mtCtrl s).extractLsb' 3 1 = s.mt.secure := by
  have hb : ∀ b : BitVec 1, b = 0#1 ∨ b = 1#1 := by decide
  unfold mtCtrl mtSecured
  have hq : s.mt.seq.toNat = 0 ∨ s.mt.seq.toNat = 1 ∨ s.mt.seq.toNat = 2 ∨ s.mt.seq.toNat = 3 := by omega
  rcases hb s.mt.secure with hs | hs <;> rcases hq with hq | hq | hq | hq <;> rw [hs, hq] <;> decide

/-- Step 5 reads LEN as the encoder wrote it (30_encoding.md R103). -/
theorem encodeMt_head {s : State} {f : Bytes} (hc : s.cfg.frameMax ≤ 65535) (h : encodeMt s = .ok f) :
    8 ≤ f.length ∧ f.length < 65536 ∧ (∃ g, f = som :: g) ∧ frameLen f = f.length := by
  obtain ⟨hf, htot, _⟩ := encodeMt_ok h
  have hl := length_encodeMt h
  have h8 : 8 ≤ mtTotal s := by unfold mtTotal crcLen; omega
  refine ⟨by omega, by omega, ⟨_, hf⟩, ?_⟩
  have hL : frameLen f = (BitVec.ofNat 16 (mtTotal s)).toNat := by
    rw [hf]; exact fromLe16_le16 (BitVec.ofNat 16 (mtTotal s))
  rw [hL, hl, BitVec.toNat_ofNat]
  omega

end Sys2Proof.Machine
end

