-- ==== Sys2Proof/Laws/Cipher.lean ====
section
/-! SUPPORT. The parts of the cipher: each layer of a round is undone by its inverse layer, every block and round key has
16 bytes, and what padding and chaining do (42_aes128.md). -/

namespace Sys2Proof.Machine

open Sys2Proof

/-! ### Bytes -/

/-- A property of bytes holds of all when it holds of the 256 numerals. -/
theorem forall_byte {p : Byte → Bool} (h : (List.range 256).all (fun n => p (BitVec.ofNat 8 n)) = true) (a : Byte) :
    p a = true := by
  have := List.all_eq_true.mp h a.toNat (List.mem_range.mpr a.isLt)
  simpa using this

theorem invSbox_sbox (a : Byte) : invSbox (sbox a) = a := by
  have := forall_byte (p := fun a => decide (invSbox (sbox a) = a)) (by decide +kernel) a
  exact of_decide_eq_true this

theorem sbox_invSbox (a : Byte) : sbox (invSbox a) = a := by
  have := forall_byte (p := fun a => decide (sbox (invSbox a) = a)) (by decide +kernel) a
  exact of_decide_eq_true this

theorem xtime_xor (a b : Byte) : xtime (a ^^^ b) = xtime a ^^^ xtime b := by
  have key : ∀ c : Byte, xtime c = (c <<< 1) ^^^ (if c.getLsbD 7 then 0x1B#8 else 0#8) := by
    intro c
    unfold xtime
    cases c.getLsbD 7 <;> simp
  have hs : (a ^^^ b) <<< 1 = (a <<< 1) ^^^ (b <<< 1) := by
    refine BitVec.eq_of_getLsbD_eq fun i hi => ?_
    simp only [BitVec.getLsbD_shiftLeft, BitVec.getLsbD_xor]
    cases decide (i < 8) <;> cases decide (i < 1) <;> simp
  have h1 : ∀ x y z w : Byte, (x ^^^ y) ^^^ (z ^^^ w) = (x ^^^ z) ^^^ (y ^^^ w) := fun x y z w => by
    rw [BitVec.xor_assoc, BitVec.xor_assoc, ← BitVec.xor_assoc y, BitVec.xor_comm y z, BitVec.xor_assoc z]
  rw [key, key a, key b, hs, BitVec.getLsbD_xor, h1]
  congr 1
  cases a.getLsbD 7 <;> cases b.getLsbD 7 <;> decide

theorem xtimes_xor (n : Nat) (a b : Byte) : xtimes n (a ^^^ b) = xtimes n a ^^^ xtimes n b := by
  induction n with
  | zero => rfl
  | succ n ih => simp only [xtimes, ih, xtime_xor]

theorem xor_xor_comm (x y z w : Byte) : (x ^^^ y) ^^^ (z ^^^ w) = (x ^^^ z) ^^^ (y ^^^ w) := by
  rw [BitVec.xor_assoc, BitVec.xor_assoc, ← BitVec.xor_assoc y, BitVec.xor_comm y z, BitVec.xor_assoc z]

/-- Field multiplication by a constant is linear (42_aes128.md R182). -/
theorem gmul_xor (a b : Byte) (c : Nat) : gmul (a ^^^ b) c = gmul a c ^^^ gmul b c := by
  have h : ∀ (t : Bool) (f : Byte → Byte), (∀ x y, f (x ^^^ y) = f x ^^^ f y) →
      (if t then f (a ^^^ b) else 0#8) = (if t then f a else 0#8) ^^^ (if t then f b else 0#8) := by
    intro t f hf; cases t <;> simp [hf]
  unfold gmul
  rw [h (c.testBit 0) (fun x => x) (fun _ _ => rfl), h (c.testBit 1) (xtimes 1) (xtimes_xor 1),
    h (c.testBit 2) (xtimes 2) (xtimes_xor 2), h (c.testBit 3) (xtimes 3) (xtimes_xor 3)]
  ac_rfl

/-! ### Layers of a round -/

/-- A block, byte by byte. -/
theorem block_eq {s : Bytes} (h : s.length = 16) : ∃ a0 a1 a2 a3 a4 a5 a6 a7 a8 a9 a10 a11 a12 a13 a14 a15,
    s = [a0, a1, a2, a3, a4, a5, a6, a7, a8, a9, a10, a11, a12, a13, a14, a15] := by
  match s, h with
  | [a0, a1, a2, a3, a4, a5, a6, a7, a8, a9, a10, a11, a12, a13, a14, a15], _ =>
    exact ⟨a0, a1, a2, a3, a4, a5, a6, a7, a8, a9, a10, a11, a12, a13, a14, a15, rfl⟩

@[simp] theorem length_xorBytes (a b : Bytes) : (xorBytes a b).length = min a.length b.length := by
  unfold xorBytes; simp

@[simp] theorem length_subBytes (s : Bytes) : (subBytes s).length = s.length := by unfold subBytes; simp
@[simp] theorem length_invSubBytes (s : Bytes) : (invSubBytes s).length = s.length := by unfold invSubBytes; simp
@[simp] theorem length_shiftRows (s : Bytes) : (shiftRows s).length = 16 := by unfold shiftRows; simp
@[simp] theorem length_invShiftRows (s : Bytes) : (invShiftRows s).length = 16 := by unfold invShiftRows; simp
@[simp] theorem length_mixColumns (s : Bytes) : (mixColumns s).length = 16 := rfl
@[simp] theorem length_invMixColumns (s : Bytes) : (invMixColumns s).length = 16 := rfl

theorem xorBytes_cancel {a k : Bytes} (h : a.length ≤ k.length) : xorBytes (xorBytes a k) k = a := by
  unfold xorBytes
  induction a generalizing k with
  | nil => simp
  | cons x xs ih =>
    cases k with
    | nil => simp at h
    | cons y ys =>
      simp only [List.zipWith_cons_cons]
      rw [ih (by simpa using h), BitVec.xor_assoc, BitVec.xor_self, BitVec.xor_zero]

theorem invSubBytes_subBytes (s : Bytes) : invSubBytes (subBytes s) = s := by
  unfold invSubBytes subBytes
  rw [List.map_map]
  exact (List.map_congr_left fun a _ => invSbox_sbox a).trans (List.map_id _)

theorem subBytes_invSubBytes (s : Bytes) : subBytes (invSubBytes s) = s := by
  unfold invSubBytes subBytes
  rw [List.map_map]
  exact (List.map_congr_left fun a _ => sbox_invSbox a).trans (List.map_id _)

theorem invShiftRows_shiftRows {s : Bytes} (h : s.length = 16) : invShiftRows (shiftRows s) = s := by
  obtain ⟨_, _, _, _, _, _, _, _, _, _, _, _, _, _, _, _, rfl⟩ := block_eq h
  rfl

theorem shiftRows_invShiftRows {s : Bytes} (h : s.length = 16) : shiftRows (invShiftRows s) = s := by
  obtain ⟨_, _, _, _, _, _, _, _, _, _, _, _, _, _, _, _, rfl⟩ := block_eq h
  rfl

/-- Substitution is bytewise, the shift only moves bytes: they commute. -/
theorem invSubBytes_invShiftRows {s : Bytes} (h : s.length = 16) :
    invSubBytes (invShiftRows s) = invShiftRows (invSubBytes s) := by
  obtain ⟨_, _, _, _, _, _, _, _, _, _, _, _, _, _, _, _, rfl⟩ := block_eq h
  rfl

/-- The sixteen products behind the two mixing matrices, one per coefficient pattern. -/
theorem mix_coefficients (a : Byte) :
    (gmul (gmul a 2) 14 ^^^ gmul a 11 ^^^ gmul a 13 ^^^ gmul (gmul a 3) 9 = a ∧
     gmul (gmul a 3) 14 ^^^ gmul (gmul a 2) 11 ^^^ gmul a 13 ^^^ gmul a 9 = 0#8 ∧
     gmul a 14 ^^^ gmul (gmul a 3) 11 ^^^ gmul (gmul a 2) 13 ^^^ gmul a 9 = 0#8 ∧
     gmul a 14 ^^^ gmul a 11 ^^^ gmul (gmul a 3) 13 ^^^ gmul (gmul a 2) 9 = 0#8) ∧
    (gmul (gmul a 14) 2 ^^^ gmul (gmul a 9) 3 ^^^ gmul a 13 ^^^ gmul a 11 = a ∧
     gmul (gmul a 11) 2 ^^^ gmul (gmul a 14) 3 ^^^ gmul a 9 ^^^ gmul a 13 = 0#8 ∧
     gmul (gmul a 13) 2 ^^^ gmul (gmul a 11) 3 ^^^ gmul a 14 ^^^ gmul a 9 = 0#8 ∧
     gmul (gmul a 9) 2 ^^^ gmul (gmul a 13) 3 ^^^ gmul a 11 ^^^ gmul a 14 = 0#8) := by
  have := forall_byte (p := fun a => decide (
    (gmul (gmul a 2) 14 ^^^ gmul a 11 ^^^ gmul a 13 ^^^ gmul (gmul a 3) 9 = a ∧
     gmul (gmul a 3) 14 ^^^ gmul (gmul a 2) 11 ^^^ gmul a 13 ^^^ gmul a 9 = 0#8 ∧
     gmul a 14 ^^^ gmul (gmul a 3) 11 ^^^ gmul (gmul a 2) 13 ^^^ gmul a 9 = 0#8 ∧
     gmul a 14 ^^^ gmul a 11 ^^^ gmul (gmul a 3) 13 ^^^ gmul (gmul a 2) 9 = 0#8) ∧
    (gmul (gmul a 14) 2 ^^^ gmul (gmul a 9) 3 ^^^ gmul a 13 ^^^ gmul a 11 = a ∧
     gmul (gmul a 11) 2 ^^^ gmul (gmul a 14) 3 ^^^ gmul a 9 ^^^ gmul a 13 = 0#8 ∧
     gmul (gmul a 13) 2 ^^^ gmul (gmul a 11) 3 ^^^ gmul a 14 ^^^ gmul a 9 = 0#8 ∧
     gmul (gmul a 9) 2 ^^^ gmul (gmul a 13) 3 ^^^ gmul a 11 ^^^ gmul a 14 = 0#8)))
    (by decide +kernel) a
  exact of_decide_eq_true this

/-- Mixing a column back (42_aes128.md R181, R190). -/
theorem invMixColumn_mixColumn (a b c d : Byte) :
    invMixColumn (gmul a 2 ^^^ gmul b 3 ^^^ c ^^^ d) (a ^^^ gmul b 2 ^^^ gmul c 3 ^^^ d)
      (a ^^^ b ^^^ gmul c 2 ^^^ gmul d 3) (gmul a 3 ^^^ b ^^^ c ^^^ gmul d 2) = [a, b, c, d] := by
  obtain ⟨a0, a1, a2, a3⟩ := (mix_coefficients a).1
  obtain ⟨b0, b1, b2, b3⟩ := (mix_coefficients b).1
  obtain ⟨c0, c1, c2, c3⟩ := (mix_coefficients c).1
  obtain ⟨d0, d1, d2, d3⟩ := (mix_coefficients d).1
  unfold invMixColumn
  simp only [gmul_xor]
  refine (List.cons_eq_cons.mpr ⟨?_, List.cons_eq_cons.mpr ⟨?_, List.cons_eq_cons.mpr ⟨?_,
    List.cons_eq_cons.mpr ⟨?_, rfl⟩⟩⟩⟩)
  · trans (gmul (gmul a 2) 14 ^^^ gmul a 11 ^^^ gmul a 13 ^^^ gmul (gmul a 3) 9) ^^^
      (gmul (gmul b 3) 14 ^^^ gmul (gmul b 2) 11 ^^^ gmul b 13 ^^^ gmul b 9) ^^^
      (gmul c 14 ^^^ gmul (gmul c 3) 11 ^^^ gmul (gmul c 2) 13 ^^^ gmul c 9) ^^^
      (gmul d 14 ^^^ gmul d 11 ^^^ gmul (gmul d 3) 13 ^^^ gmul (gmul d 2) 9)
    · ac_rfl
    · rw [a0, b1, c2, d3]; simp
  · trans (gmul a 14 ^^^ gmul a 11 ^^^ gmul (gmul a 3) 13 ^^^ gmul (gmul a 2) 9) ^^^
      (gmul (gmul b 2) 14 ^^^ gmul b 11 ^^^ gmul b 13 ^^^ gmul (gmul b 3) 9) ^^^
      (gmul (gmul c 3) 14 ^^^ gmul (gmul c 2) 11 ^^^ gmul c 13 ^^^ gmul c 9) ^^^
      (gmul d 14 ^^^ gmul (gmul d 3) 11 ^^^ gmul (gmul d 2) 13 ^^^ gmul d 9)
    · ac_rfl
    · rw [a3, b0, c1, d2]; simp
  · trans (gmul a 14 ^^^ gmul (gmul a 3) 11 ^^^ gmul (gmul a 2) 13 ^^^ gmul a 9) ^^^
      (gmul b 14 ^^^ gmul b 11 ^^^ gmul (gmul b 3) 13 ^^^ gmul (gmul b 2) 9) ^^^
      (gmul (gmul c 2) 14 ^^^ gmul c 11 ^^^ gmul c 13 ^^^ gmul (gmul c 3) 9) ^^^
      (gmul (gmul d 3) 14 ^^^ gmul (gmul d 2) 11 ^^^ gmul d 13 ^^^ gmul d 9)
    · ac_rfl
    · rw [a2, b3, c0, d1]; simp
  · trans (gmul (gmul a 3) 14 ^^^ gmul (gmul a 2) 11 ^^^ gmul a 13 ^^^ gmul a 9) ^^^
      (gmul b 14 ^^^ gmul (gmul b 3) 11 ^^^ gmul (gmul b 2) 13 ^^^ gmul b 9) ^^^
      (gmul c 14 ^^^ gmul c 11 ^^^ gmul (gmul c 3) 13 ^^^ gmul (gmul c 2) 9) ^^^
      (gmul (gmul d 2) 14 ^^^ gmul d 11 ^^^ gmul d 13 ^^^ gmul (gmul d 3) 9)
    · ac_rfl
    · rw [a1, b2, c3, d0]; simp

/-- Mixing a column forth (42_aes128.md R181, R190). -/
theorem mixColumn_invMixColumn (a b c d : Byte) :
    mixColumn (gmul a 14 ^^^ gmul b 11 ^^^ gmul c 13 ^^^ gmul d 9)
      (gmul a 9 ^^^ gmul b 14 ^^^ gmul c 11 ^^^ gmul d 13) (gmul a 13 ^^^ gmul b 9 ^^^ gmul c 14 ^^^ gmul d 11)
      (gmul a 11 ^^^ gmul b 13 ^^^ gmul c 9 ^^^ gmul d 14) = [a, b, c, d] := by
  obtain ⟨a0, a1, a2, a3⟩ := (mix_coefficients a).2
  obtain ⟨b0, b1, b2, b3⟩ := (mix_coefficients b).2
  obtain ⟨c0, c1, c2, c3⟩ := (mix_coefficients c).2
  obtain ⟨d0, d1, d2, d3⟩ := (mix_coefficients d).2
  unfold mixColumn
  simp only [gmul_xor]
  refine (List.cons_eq_cons.mpr ⟨?_, List.cons_eq_cons.mpr ⟨?_, List.cons_eq_cons.mpr ⟨?_,
    List.cons_eq_cons.mpr ⟨?_, rfl⟩⟩⟩⟩)
  · trans (gmul (gmul a 14) 2 ^^^ gmul (gmul a 9) 3 ^^^ gmul a 13 ^^^ gmul a 11) ^^^
      (gmul (gmul b 11) 2 ^^^ gmul (gmul b 14) 3 ^^^ gmul b 9 ^^^ gmul b 13) ^^^
      (gmul (gmul c 13) 2 ^^^ gmul (gmul c 11) 3 ^^^ gmul c 14 ^^^ gmul c 9) ^^^
      (gmul (gmul d 9) 2 ^^^ gmul (gmul d 13) 3 ^^^ gmul d 11 ^^^ gmul d 14)
    · ac_rfl
    · rw [a0, b1, c2, d3]; simp
  · trans (gmul (gmul a 9) 2 ^^^ gmul (gmul a 13) 3 ^^^ gmul a 11 ^^^ gmul a 14) ^^^
      (gmul (gmul b 14) 2 ^^^ gmul (gmul b 9) 3 ^^^ gmul b 13 ^^^ gmul b 11) ^^^
      (gmul (gmul c 11) 2 ^^^ gmul (gmul c 14) 3 ^^^ gmul c 9 ^^^ gmul c 13) ^^^
      (gmul (gmul d 13) 2 ^^^ gmul (gmul d 11) 3 ^^^ gmul d 14 ^^^ gmul d 9)
    · ac_rfl
    · rw [a3, b0, c1, d2]; simp
  · trans (gmul (gmul a 13) 2 ^^^ gmul (gmul a 11) 3 ^^^ gmul a 14 ^^^ gmul a 9) ^^^
      (gmul (gmul b 9) 2 ^^^ gmul (gmul b 13) 3 ^^^ gmul b 11 ^^^ gmul b 14) ^^^
      (gmul (gmul c 14) 2 ^^^ gmul (gmul c 9) 3 ^^^ gmul c 13 ^^^ gmul c 11) ^^^
      (gmul (gmul d 11) 2 ^^^ gmul (gmul d 14) 3 ^^^ gmul d 9 ^^^ gmul d 13)
    · ac_rfl
    · rw [a2, b3, c0, d1]; simp
  · trans (gmul (gmul a 11) 2 ^^^ gmul (gmul a 14) 3 ^^^ gmul a 9 ^^^ gmul a 13) ^^^
      (gmul (gmul b 13) 2 ^^^ gmul (gmul b 11) 3 ^^^ gmul b 14 ^^^ gmul b 9) ^^^
      (gmul (gmul c 9) 2 ^^^ gmul (gmul c 13) 3 ^^^ gmul c 11 ^^^ gmul c 14) ^^^
      (gmul (gmul d 14) 2 ^^^ gmul (gmul d 9) 3 ^^^ gmul d 13 ^^^ gmul d 11)
    · ac_rfl
    · rw [a1, b2, c3, d0]; simp

theorem invMixColumns_mixColumns {s : Bytes} (h : s.length = 16) : invMixColumns (mixColumns s) = s := by
  obtain ⟨a0, a1, a2, a3, a4, a5, a6, a7, a8, a9, a10, a11, a12, a13, a14, a15, rfl⟩ := block_eq h
  exact congrArg₂ (· ++ ·) (invMixColumn_mixColumn a0 a1 a2 a3) (congrArg₂ (· ++ ·)
    (invMixColumn_mixColumn a4 a5 a6 a7) (congrArg₂ (· ++ ·) (invMixColumn_mixColumn a8 a9 a10 a11)
    (congrArg (· ++ []) (invMixColumn_mixColumn a12 a13 a14 a15))))

theorem mixColumns_invMixColumns {s : Bytes} (h : s.length = 16) : mixColumns (invMixColumns s) = s := by
  obtain ⟨a0, a1, a2, a3, a4, a5, a6, a7, a8, a9, a10, a11, a12, a13, a14, a15, rfl⟩ := block_eq h
  exact congrArg₂ (· ++ ·) (mixColumn_invMixColumn a0 a1 a2 a3) (congrArg₂ (· ++ ·)
    (mixColumn_invMixColumn a4 a5 a6 a7) (congrArg₂ (· ++ ·) (mixColumn_invMixColumn a8 a9 a10 a11)
    (congrArg (· ++ []) (mixColumn_invMixColumn a12 a13 a14 a15))))

/-! ### Keys -/

theorem length_keyCore (rc : Byte) (w : Bytes) : (keyCore rc w).length = 4 := rfl

theorem length_nextRoundKey {rk : Bytes} (h : rk.length = 16) (rc : Byte) : (nextRoundKey rk rc).length = 16 := by
  obtain ⟨_, _, _, _, _, _, _, _, _, _, _, _, _, _, _, _, rfl⟩ := block_eq h
  rfl

/-- The key schedule: one round key per constant and one more, each of 16 bytes (42_aes128.md R185). -/
theorem length_expandFrom {rk : Bytes} (h : rk.length = 16) (rcs : Bytes) :
    (expandFrom rk rcs).length = rcs.length + 1 ∧ ∀ k ∈ expandFrom rk rcs, k.length = 16 := by
  induction rcs generalizing rk with
  | nil => simp [expandFrom, h]
  | cons rc rest ih =>
    obtain ⟨h1, h2⟩ := ih (length_nextRoundKey h rc)
    refine ⟨by simp [expandFrom, h1], ?_⟩
    intro k hk
    simp only [expandFrom, List.mem_cons] at hk
    rcases hk with rfl | hk
    · exact h
    · exact h2 k hk

/-- The eleven round keys, one by one. -/
theorem expandKey_eq {k : Bytes} (h : k.length = 16) : ∃ k1 k2 k3 k4 k5 k6 k7 k8 k9 k10,
    expandKey k = [k, k1, k2, k3, k4, k5, k6, k7, k8, k9, k10] ∧
    ∀ x ∈ [k, k1, k2, k3, k4, k5, k6, k7, k8, k9, k10], x.length = 16 :=
  ⟨_, _, _, _, _, _, _, _, _, _, rfl, (length_expandFrom h rcon).2⟩

theorem length_encRounds {s : Bytes} {ks : List Bytes} (hs : s.length = 16) (hk : ∀ k ∈ ks, k.length = 16) :
    (encRounds s ks).length = 16 := by
  induction ks generalizing s with
  | nil => exact hs
  | cons k ks ih =>
    have h1 := hk k (by simp)
    cases ks with
    | nil => simp [encRounds, h1]
    | cons k' ks => exact ih (by simp [h1]) (fun x hx => hk x (List.mem_cons_of_mem _ hx))

/-- `AES_E` gives a block. -/
theorem length_aesE {k b : Bytes} (hk : k.length = 16) (hb : b.length = 16) : (aesE k b).length = 16 := by
  have := length_expandFrom hk rcon
  unfold aesE expandKey rcon expandFrom encWithKeys
  refine length_encRounds (by simp [hk, hb]) fun x hx => ?_
  exact this.2 x (List.mem_cons_of_mem _ hx)

/-! ### Rounds -/

theorem round_undone {s : Bytes} (h : s.length = 16) :
    invSubBytes (invShiftRows (shiftRows (subBytes s))) = s := by
  rw [invShiftRows_shiftRows (by simpa using h), invSubBytes_subBytes]

theorem round_redone {s : Bytes} (h : s.length = 16) :
    shiftRows (subBytes (invSubBytes (invShiftRows s))) = s := by
  rw [subBytes_invSubBytes, shiftRows_invShiftRows h]

theorem mix_undone {s k : Bytes} (h : s.length = 16) (hk : k.length = 16) :
    invMixColumns (xorBytes (xorBytes (mixColumns s) k) k) = s := by
  rw [xorBytes_cancel (by simp [hk]), invMixColumns_mixColumns h]

theorem mix_redone {s k : Bytes} (h : s.length = 16) (hk : k.length = 16) :
    xorBytes (mixColumns (invMixColumns (xorBytes s k))) k = s := by
  rw [mixColumns_invMixColumns (by simp [h, hk]), xorBytes_cancel (by simp [h, hk])]

/-! ### Padding and blocks -/

theorem length_pad16 (s : Bytes) : (pad16 s).length = 16 * (s.length / 16 + 1) := by
  simp only [pad16, zeros, List.length_append, List.length_cons, List.length_nil, List.length_replicate]
  omega

theorem unpad16_marked (u : Bytes) (z : Nat) : unpad16 (u ++ padMark :: List.replicate z 0#8) = some u := by
  have h : (u ++ padMark :: List.replicate z 0#8).reverse.dropWhile (· == 0#8) = padMark :: u.reverse := by
    rw [List.reverse_append, List.reverse_cons, List.reverse_replicate]
    induction z with
    | zero => simp [padMark]
    | succ n ih => rw [List.replicate_succ]; simpa using ih
  unfold unpad16
  rw [h]
  simp

theorem unpad16_eq_some {q u : Bytes} (h : unpad16 q = some u) : ∃ z, q = u ++ padMark :: List.replicate z 0#8 := by
  unfold unpad16 at h
  have hz : ∀ l : Bytes, ∃ z, l = List.replicate z 0#8 ++ l.dropWhile (· == 0#8) := by
    intro l
    induction l with
    | nil => exact ⟨0, rfl⟩
    | cons x xs ih =>
      by_cases hx : x = 0#8
      · obtain ⟨z, hz⟩ := ih
        exact ⟨z + 1, by subst hx; simpa [List.replicate_succ] using hz⟩
      · exact ⟨0, by simp [hx]⟩
  obtain ⟨z, hq⟩ := hz q.reverse
  split at h
  · cases h
  · rename_i b rest hd
    split at h
    · rename_i hb
      refine ⟨z, ?_⟩
      rw [hd, hb] at hq
      have := congrArg List.reverse hq
      cases h
      simpa using this
    · cases h

/-- The blocks of a block followed by more. -/
theorem blocks_append {b s : Bytes} (h : b.length = 16) : blocks (b ++ s) = b :: blocks s := by
  unfold blocks blockLen
  rw [List.length_append, h, show (16 + s.length) / 16 = s.length / 16 + 1 by omega, List.range_succ_eq_map,
    List.map_cons, List.map_map]
  congr 1
  · unfold slice; rw [Nat.mul_zero, List.drop_zero, ← h, List.take_left]
  · refine List.map_congr_left fun i _ => ?_
    simp only [Function.comp, slice]
    rw [show 16 * (i + 1) = b.length + 16 * i by omega, List.drop_append,
      List.drop_eq_nil_of_le (by omega)]
    simp

theorem blocks_nil : blocks [] = [] := rfl

/-- The chained value is a block, and the ciphertext is as long as the blocks. -/
theorem length_cbcEncBlocks {k v : Bytes} {bs : List Bytes} (hk : k.length = 16) (hv : v.length = 16)
    (hb : ∀ b ∈ bs, b.length = 16) :
    (cbcEncBlocks k v bs).1.length = 16 * bs.length ∧ (cbcEncBlocks k v bs).2.length = 16 := by
  induction bs generalizing v with
  | nil => exact ⟨rfl, hv⟩
  | cons b bs ih =>
    have hc := length_aesE hk (b := xorBytes b v) (by simp [hb b (by simp), hv])
    obtain ⟨h1, h2⟩ := ih hc (fun x hx => hb x (List.mem_cons_of_mem _ hx))
    simp only [cbcEncBlocks, List.length_append, List.length_cons, h1, hc]
    exact ⟨by omega, h2⟩

theorem length_of_mem_blocks {s b : Bytes} (h : b ∈ blocks s) : b.length = 16 := by
  unfold blocks at h
  obtain ⟨i, hi, rfl⟩ := List.mem_map.mp h
  have := List.mem_range.mp hi
  unfold blockLen at *
  exact length_slice (by omega)

theorem length_cbcEncrypt {k iv : Bytes} (hk : k.length = 16) (hiv : iv.length = 16) (s : Bytes) :
    (cbcEncrypt k iv s).1.length = 16 * (s.length / 16) ∧ (cbcEncrypt k iv s).2.length = 16 := by
  have := length_cbcEncBlocks hk hiv (bs := blocks s) fun b hb => length_of_mem_blocks hb
  rwa [show (blocks s).length = s.length / 16 by simp [blocks, blockLen]] at this

/-- The value `cbc_decrypt` hands on is a block. -/
theorem length_cbcDecBlocks {k v : Bytes} {bs : List Bytes} (hv : v.length = 16) (hb : ∀ b ∈ bs, b.length = 16) :
    (cbcDecBlocks k v bs).2.length = 16 := by
  induction bs generalizing v with
  | nil => exact hv
  | cons b bs ih => exact ih (hb b (by simp)) (fun x hx => hb x (List.mem_cons_of_mem _ hx))

theorem length_cbcDecrypt {k iv : Bytes} (hiv : iv.length = 16) (c : Bytes) : (cbcDecrypt k iv c).2.length = 16 :=
  length_cbcDecBlocks hiv fun _ hb => length_of_mem_blocks hb

/-- The MAC has 4 bytes and the block it is cut from 16 (43_secure_channel.md R209). -/
theorem length_macOf {k1 k2 iv : Bytes} (h1 : k1.length = 16) (h2 : k2.length = 16) (hiv : iv.length = 16) (s : Bytes) :
    (macOf k1 k2 s iv).1.length = 4 ∧ (macOf k1 k2 s iv).2.length = 16 ∧
      (macOf k1 k2 s iv).1 = (macOf k1 k2 s iv).2.take 4 := by
  have hv := (length_cbcEncrypt h1 hiv (slice (pad16 s) 0 (blockLen * ((pad16 s).length / blockLen - 1)))).2
  have hs : (slice (pad16 s) (blockLen * ((pad16 s).length / blockLen - 1)) blockLen).length = 16 := by
    have := length_pad16 s
    rw [length_slice] <;> unfold blockLen <;> omega
  simp only [macOf]
  generalize (cbcEncrypt k1 iv (slice (pad16 s) 0 (blockLen * ((pad16 s).length / blockLen - 1)))).2 = v at hv ⊢
  generalize slice (pad16 s) (blockLen * ((pad16 s).length / blockLen - 1)) blockLen = q at hs ⊢
  have hl := length_aesE h2 (b := xorBytes q v) (by rw [length_xorBytes, hs, hv]; rfl)
  generalize aesE k2 (xorBytes q v) = last at hl ⊢
  exact ⟨by rw [List.length_take, hl]; rfl, hl, rfl⟩

end Sys2Proof.Machine
end

