-- ==== Sys2Proof/Laws/Crc.lean ====
section
/-! SUPPORT. The CRC register's step is injective in the register and in the byte (40_crc.md R141). -/

namespace Sys2Proof.Machine

open Sys2Proof

/-- The bits of one shift: the dropped bit goes to positions 0, 5 and 12. -/
theorem getLsbD_crcShift (c : BitVec 16) {i : Nat} (hi : i < 16) :
    (crcShift c).getLsbD i = ((decide (0 < i) && c.getLsbD (i - 1)) ^^
      (c.getLsbD 15 && (decide (i = 0) || decide (i = 5) || decide (i = 12)))) := by
  have hp : ∀ j : Fin 16, crcPoly.getLsbD j.val =
      (decide (j.val = 0) || decide (j.val = 5) || decide (j.val = 12)) := by decide
  unfold crcShift
  cases hc : c.getLsbD 15
  · rw [if_neg (by simp), BitVec.getLsbD_shiftLeft]
    rcases Nat.eq_zero_or_pos i with rfl | h
    · simp
    · simp [hi, h, show ¬ i < 1 by omega]
  · rw [if_pos rfl, BitVec.getLsbD_xor, BitVec.getLsbD_shiftLeft, hp ⟨i, hi⟩]
    rcases Nat.eq_zero_or_pos i with rfl | h
    · simp
    · simp [hi, h, show ¬ i < 1 by omega]

theorem crcShift_inj {c d : BitVec 16} (h : crcShift c = crcShift d) : c = d := by
  have hb : ∀ i, i < 16 → (crcShift c).getLsbD i = (crcShift d).getLsbD i := fun i _ => by rw [h]
  have h0 := hb 0 (by omega)
  rw [getLsbD_crcShift c (by omega), getLsbD_crcShift d (by omega)] at h0
  have h15 : c.getLsbD 15 = d.getLsbD 15 := by simpa using h0
  refine BitVec.eq_of_getLsbD_eq fun i hi => ?_
  rcases Nat.lt_or_ge i 15 with hlt | hge
  · have h1 := hb (i + 1) (by omega)
    rw [getLsbD_crcShift c (by omega), getLsbD_crcShift d (by omega), h15] at h1
    simpa using h1
  · rw [show i = 15 by omega]; exact h15

/-- Eight shifts are injective. -/
theorem crcByte_inj {c d : BitVec 16} {x y : Byte} (h : crcByte c x = crcByte d y) :
    c ^^^ (x.setWidth 16 <<< 8) = d ^^^ (y.setWidth 16 <<< 8) := by
  unfold crcByte at h
  exact crcShift_inj (crcShift_inj (crcShift_inj (crcShift_inj (crcShift_inj (crcShift_inj
    (crcShift_inj (crcShift_inj h)))))))

theorem crcByte_inj_register {c d : BitVec 16} {b : Byte} (h : crcByte c b = crcByte d b) : c = d := by
  have := congrArg (fun v => v ^^^ (b.setWidth 16 <<< 8)) (crcByte_inj h)
  simpa [BitVec.xor_assoc] using this

theorem crcByte_inj_byte {c : BitVec 16} {x y : Byte} (h : crcByte c x = crcByte c y) : x = y := by
  have hx : x.setWidth 16 <<< 8 = y.setWidth 16 <<< 8 := by
    have := congrArg (fun v => c ^^^ v) (crcByte_inj h)
    simpa [← BitVec.xor_assoc] using this
  refine BitVec.eq_of_getLsbD_eq fun i hi => ?_
  have := congrArg (fun v => BitVec.getLsbD v (i + 8)) hx
  simpa [show i + 8 < 16 by omega, show i < 16 by omega] using this

theorem crcFrom_append (c : BitVec 16) (a b : Bytes) : crcFrom c (a ++ b) = crcFrom (crcFrom c a) b :=
  List.foldl_append

theorem crcFrom_cons (c : BitVec 16) (x : Byte) (b : Bytes) : crcFrom c (x :: b) = crcFrom (crcByte c x) b := rfl

theorem crcFrom_inj {c d : BitVec 16} {b : Bytes} (h : crcFrom c b = crcFrom d b) : c = d := by
  induction b generalizing c d with
  | nil => exact h
  | cons x xs ih => exact crcByte_inj_register (ih h)

end Sys2Proof.Machine
end

