-- ==== Sys2Proof/Laws/PerInstr.lean ====
section
/-! SUPPORT. Per-instruction family `TableRow`: the word of an instruction is one its row of spec/opcode_table.json
matches. -/

namespace Sys2Proof.Laws

open Sys2Proof

/-- The bits of a word, numbered as spec/opcode_table.json numbers them. -/
def TableRow.bits : Encoded → Nat
  | .command w => w.toNat
  | .transaction w => w.toNat

/-- The mask and the match of the row of an instruction (30_encoding.md R120, R130). -/
def TableRow.row : Instr → Nat × Nat
  | .crc16 => (0xFFFF, 0x0001)
  | .encode => (0xFFFF, 0x0002)
  | .decode => (0xFFFF, 0x0003)
  | .loadScbk => (0xFFFF, 0x0004)
  | .loadIv => (0xFFFF, 0x0005)
  | .deriveKeys => (0xFFFF, 0x0006)
  | .cryptogram => (0xFFFF, 0x0007)
  | .genMac => (0xFFFF, 0x0008)
  | .verifyMac => (0xFFFF, 0x0009)
  | .encrypt _ _ => (0xF8FF, 0x000A)
  | .decrypt _ _ => (0xF8FF, 0x000B)
  | .send => (0xFFFF, 0x000C)
  | .receive => (0xFFFF, 0x000D)
  | .mclear => (0xFFFF, 0x000E)
  | .regrd _ => (0x3, 0x0)
  | .regwr _ _ => (0x3, 0x1)
  | .bufrd _ _ => (0x3, 0x2)
  | .bufwr _ _ _ => (0x3, 0x3)

/-- The encoder's word, under the mask of the row, is the row's match. -/
def TableRow.Statement (i : Instr) : Prop :=
  TableRow.bits (Sys2Proof.encode i) &&& (TableRow.row i).1 = (TableRow.row i).2

theorem TableRow.crc16 : TableRow.Statement .crc16 := rfl
theorem TableRow.encode : TableRow.Statement .encode := rfl
theorem TableRow.decode : TableRow.Statement .decode := rfl
theorem TableRow.loadScbk : TableRow.Statement .loadScbk := rfl
theorem TableRow.loadIv : TableRow.Statement .loadIv := rfl
theorem TableRow.deriveKeys : TableRow.Statement .deriveKeys := rfl
theorem TableRow.cryptogram : TableRow.Statement .cryptogram := rfl
theorem TableRow.genMac : TableRow.Statement .genMac := rfl
theorem TableRow.verifyMac : TableRow.Statement .verifyMac := rfl

theorem TableRow.encrypt (ksel : KeySel) (msel : BankSel) : TableRow.Statement (.encrypt ksel msel) := by
  cases ksel <;> cases msel <;> rfl

theorem TableRow.decrypt (ksel : KeySel) (msel : BankSel) : TableRow.Statement (.decrypt ksel msel) := by
  cases ksel <;> cases msel <;> rfl

theorem TableRow.send : TableRow.Statement .send := rfl
theorem TableRow.receive : TableRow.Statement .receive := rfl
theorem TableRow.mclear : TableRow.Statement .mclear := rfl

/-- The low two bits of a packed transaction are its KIND. -/
theorem TableRow.bits_packTransaction (k : BitVec 2) (sel : BitVec 8) (off : BitVec 32) (w : BitVec 64) :
    TableRow.bits (.transaction (packTransaction k sel off w)) &&& 0x3 = k.toNat := by
  have h := congrArg BitVec.toNat (txKind_packTransaction k sel off w)
  rw [txKind, BitVec.extractLsb'_toNat, Nat.shiftRight_zero] at h
  rw [TableRow.bits, ← h]
  exact Nat.and_two_pow_sub_one_eq_mod _ 2

theorem TableRow.regrd (sel : BitVec 8) : TableRow.Statement (.regrd sel) :=
  TableRow.bits_packTransaction 0#2 sel 0#32 0#64

theorem TableRow.regwr (sel : BitVec 8) (wdata : BitVec 64) : TableRow.Statement (.regwr sel wdata) :=
  TableRow.bits_packTransaction 1#2 sel 0#32 wdata

theorem TableRow.bufrd (sel : BitVec 8) (off : BitVec 32) : TableRow.Statement (.bufrd sel off) :=
  TableRow.bits_packTransaction 2#2 sel off 0#64

theorem TableRow.bufwr (sel : BitVec 8) (off : BitVec 32) (wdata : BitVec 64) :
    TableRow.Statement (.bufwr sel off wdata) :=
  TableRow.bits_packTransaction 3#2 sel off wdata

end Sys2Proof.Laws
end

