-- ==== Sys2Proof/Tests/Slice0.lean ====
section
/-! SUPPORT. Tests on small states: the well-formedness smoke, one decode per constructor from a word written out from
the spec, one or two steps per instruction against the vectors of 95_test_vectors.md (named in each
comment), and for every obligation with hypotheses a state that meets them. -/

namespace Sys2Proof.Tests

-- One theorem at a time: many kernel evaluations side by side exhaust the memory.
set_option Elab.async false

open Sys2Proof Sys2Proof.Machine

/-! ### Well-formedness: each check refuses an ill-formed term (30_encoding.md R130) -/

theorem test_wellFormed_bufrd_high_nibble : (Instr.bufrd 0x10#8 0#32).wellFormed = false := by decide
theorem test_wellFormed_bufwr_high_nibble : (Instr.bufwr 0x82#8 0#32 1#64).wellFormed = false := by decide
theorem test_wellFormed_bufrd : (Instr.bufrd 0x0F#8 0#32).wellFormed = true := by decide
theorem test_wellFormed_bufwr : (Instr.bufwr 0x02#8 0#32 1#64).wellFormed = true := by decide

/-! ### Decoding: words written out bit by bit from 30_encoding.md R119 to R122 (reserved, M, KK, OP) and R130
(WDATA, OFF, SEL, KIND) -/

theorem test_decode_crc16 : decodeCommand 0b00000_0_00_00000001#16 = .ok .crc16 := by decide
theorem test_decode_encode : decodeCommand 0b00000_0_00_00000010#16 = .ok .encode := by decide
theorem test_decode_decode : decodeCommand 0b00000_0_00_00000011#16 = .ok .decode := by decide
theorem test_decode_loadScbk : decodeCommand 0b00000_0_00_00000100#16 = .ok .loadScbk := by decide
theorem test_decode_loadIv : decodeCommand 0b00000_0_00_00000101#16 = .ok .loadIv := by decide
theorem test_decode_deriveKeys : decodeCommand 0b00000_0_00_00000110#16 = .ok .deriveKeys := by decide
theorem test_decode_cryptogram : decodeCommand 0b00000_0_00_00000111#16 = .ok .cryptogram := by decide
theorem test_decode_genMac : decodeCommand 0b00000_0_00_00001000#16 = .ok .genMac := by decide
theorem test_decode_verifyMac : decodeCommand 0b00000_0_00_00001001#16 = .ok .verifyMac := by decide
theorem test_decode_encrypt : decodeCommand 0b00000_0_01_00001010#16 = .ok (.encrypt .sEnc .mt) := by decide
theorem test_decode_encrypt_mac2_mr : decodeCommand 0b00000_1_11_00001010#16 = .ok (.encrypt .sMac2 .mr) := by decide
theorem test_decode_decrypt : decodeCommand 0b00000_1_01_00001011#16 = .ok (.decrypt .sEnc .mr) := by decide
theorem test_decode_decrypt_mac1 : decodeCommand 0b00000_0_10_00001011#16 = .ok (.decrypt .sMac1 .mt) := by decide
theorem test_decode_send : decodeCommand 0b00000_0_00_00001100#16 = .ok .send := by decide
theorem test_decode_receive : decodeCommand 0b00000_0_00_00001101#16 = .ok .receive := by decide
theorem test_decode_mclear : decodeCommand 0b00000_0_00_00001110#16 = .ok .mclear := by decide

/-- REGRD of DEADLINE. -/
theorem test_decode_regrd : decodeTransaction 0b00000101_00#106 = .regrd 0x05#8 := by decide
/-- REGWR of CTRL with WDATA 3. -/
theorem test_decode_regwr : decodeTransaction
    0b11_00000000000000000000000000000000_00000100_01#106 = .regwr 0x04#8 3#64 := by decide
/-- BUFRD of ACC at offset 5. -/
theorem test_decode_bufrd : decodeTransaction 0b101_00001001_10#106 = .bufrd 0x09#8 5#32 := by decide
/-- BUFWR of MT_SBDATA at offset 2, WDATA 1. -/
theorem test_decode_bufwr : decodeTransaction
    0b1_00000000000000000000000000000010_00000010_11#106 = .bufwr 0x02#8 2#32 1#64 := by decide

/-- The illegal words of 95_test_vectors.md section 9. -/
theorem test_decode_illegal : [0x0000#16, 0x000F#16, 0x00FF#16, 0x0801#16, 0x8002#16, 0x0101#16, 0x040C#16].map
    decodeCommand = [.error .noSuchOperation, .error .noSuchOperation, .error .noSuchOperation,
      .error .reservedBits, .error .reservedBits, .error .unusedField, .error .unusedField] := by decide

/-! ### Helpers -/

/-- The state after an instruction. -/
def after (i : Instr) (s : State) : State :=
  match exec i s with
  | .next t => t
  | .fault _ => s
  | .refused _ => s

/-- `LOAD OPB, v` (30_encoding.md R135). -/
def withOpb (v : Bytes) (s : State) : State :=
  { memWrite s .opb 0 v with opbLen := BitVec.ofNat 16 v.length }

def reset : State := State.reset

/-- `n` rising bytes from `b`. -/
def rising (b : Byte) (n : Nat) : Bytes := (List.range n).map (fun i => b + BitVec.ofNat 8 i)

def scbk : Bytes := rising 0x30#8 16
def iv : Bytes := rising 0xC0#8 16
/-- The session keys of 95_test_vectors.md section 5. -/
def sEnc : Bytes := [0xBF#8, 0x8D#8, 0xC2#8, 0xA8#8, 0x32#8, 0x9A#8, 0xCB#8, 0x8C#8, 0x67#8, 0xC6#8, 0xD0#8, 0xCD#8,
  0x9A#8, 0x45#8, 0x16#8, 0x82#8]
def sMac1 : Bytes := [0x5E#8, 0x86#8, 0xC6#8, 0x76#8, 0x60#8, 0x3B#8, 0xDE#8, 0xE2#8, 0xD8#8, 0xBE#8, 0xAF#8, 0xE1#8,
  0x78#8, 0x63#8, 0x73#8, 0x32#8]
def sMac2 : Bytes := [0x6F#8, 0xDA#8, 0x86#8, 0xE8#8, 0x57#8, 0x77#8, 0x7E#8, 0x81#8, 0x13#8, 0x20#8, 0x35#8, 0x75#8,
  0x82#8, 0x39#8, 0x17#8, 0x2E#8]

/-- Reset, then the five keys and all flags (95_test_vectors.md section 5, vector K, and LOAD_IV). -/
def keyed : State :=
  setKeyFlags (memWrite (memWrite (memWrite (memWrite (memWrite reset .scbk 0 scbk) .sEnc 0 sEnc) .sMac1 0 sMac1)
    .sMac2 0 sMac2) .ivc 0 iv) true true true

/-- Bank MT of vector E8: a secure message of type 0x15 without data. -/
def e8Bank : MTBank :=
  { code := 0x60, addr := 1, seq := 2, secure := 1, sbtype := 0x15, sblen := 0, plen := 0, retries := 0 }

/-- The frame of vector M1. -/
def m1Frame : Bytes := [0x53#8, 0x01#8, 0x0E#8, 0x00#8, 0x0E#8, 0x02#8, 0x15#8, 0x60#8, 0xFD#8, 0x6C#8, 0xD7#8,
  0x5E#8, 0xB9#8, 0x66#8]

/-- The frame of example T1, and of vector E1. -/
def t1Frame : Bytes := [0x53#8, 0x00#8, 0x08#8, 0x00#8, 0x04#8, 0x40#8, 0x89#8, 0x8E#8]
def e1Frame : Bytes := [0x53#8, 0x00#8, 0x08#8, 0x00#8, 0x04#8, 0x00#8, 0x4D#8, 0xC6#8]

/-- The payload DE AD BE EF in bank MT, with the keys. -/
def keyedPayload : State := { memWrite keyed .mtPayload 0 [0xDE#8, 0xAD#8, 0xBE#8, 0xEF#8] with
  mt := { e8Bank with plen := 4 } }

/-- The block in a state of the messenger, BUSY with SEND or RECEIVE. -/
def running (w : BitVec 16) (m : MState) (s : State) : State := setMState (accept s w) m

/-- RECEIVE waiting for an answer, deadline 100, with the answers `q` to come. -/
def receiving (q : List ReceiveAnswer) : State :=
  { setCall (running 0x000D#16 .awaitingResponse reset) .receive with
    dl := 100, env := { Env.quiet with receiveQ := q } }

/-! ### Known answers -/

/-- 95_test_vectors.md section 2. -/
theorem test_crc16_check_string : crc16 (rising 0x31#8 9) = 0xE5CC#16 := by decide +kernel
/-- 95_test_vectors.md section 2: the high byte first gives a zero residue. -/
theorem test_crc16_residue : crc16 [0x53#8, 0x00#8, 0x08#8, 0x00#8, 0x04#8, 0x40#8, 0x8E#8, 0x89#8] = 0#16 := by
  decide +kernel

/-! ### One or two steps per instruction -/

/-- 95_test_vectors.md section 2. -/
theorem test_exec_crc16 : (after .crc16 (withOpb [0x53#8] reset)).crcOut = 0xA60A#16 ∧
    (after .crc16 (withOpb [0x53#8] reset)).status.word = 0x0002#16 := by decide +kernel

/-- E8. -/
theorem test_exec_encode : txfFrame (after .encode { reset with mt := e8Bank }) = [0x53#8, 0x01#8, 0x0E#8, 0x00#8,
    0x0E#8, 0x02#8, 0x15#8, 0x60#8, 0#8, 0#8, 0#8, 0#8, 0xF3#8, 0x19#8] := by decide +kernel

/-- E17: the sequence number is checked first. -/
theorem test_exec_encode_order : (after .encode { reset with mt := { MTBank.atReset with
    secure := 1, sblen := 254, seq := 9 } }).err = 0x13#8 := by decide +kernel

/-- V3: noise before the marker. -/
theorem test_exec_decode : (let t := after .decode (withOpb ([0xFF#8, 0x00#8, 0x12#8] ++ t1Frame) reset)
    (t.mr.code, t.consumed, t.rxfLen, t.status.word)) = (0x40#8, 11#32, 8#16, 0x0022#16) := by decide +kernel

/-- V22: a type above 0x14 needs a MAC field. -/
theorem test_exec_decode_need : (after .decode (withOpb [0x53#8, 0x00#8, 0x0A#8, 0x00#8, 0x0C#8, 0x02#8, 0x15#8,
    0x40#8, 0x3A#8, 0xF1#8] reset)).err = 0x16#8 := by decide +kernel

/-- Section 5, key vector K. -/
theorem test_exec_loadScbk : (let t := after .loadScbk (withOpb scbk reset)
    (keyBytes t .scbk, t.status.word)) = (scbk, 0x0102#16) := by decide +kernel

theorem test_exec_loadIv : (let t := after .loadIv (withOpb iv reset)
    (keyBytes t .ivc, t.status.word)) = (iv, 0x0402#16) := by decide +kernel

theorem test_exec_deriveKeys : (let t := after .deriveKeys (withOpb (rising 0xB0#8 8) (after .loadScbk
    (withOpb scbk reset)))
    (keyBytes t .sEnc, keyBytes t .sMac1, keyBytes t .sMac2, t.status.word)) = (sEnc, sMac1, sMac2, 0x0302#16) := by
  decide +kernel

/-- Section 5. -/
theorem test_exec_cryptogram : (let t := after .cryptogram (withOpb (rising 0xB0#8 8 ++ rising 0xA0#8 8) keyed)
    (memRead t .res 0 16, t.resLen)) = ([0xFD#8, 0xE5#8, 0xD2#8, 0xF4#8, 0x28#8, 0xEC#8, 0x16#8, 0x31#8, 0x24#8,
      0x71#8, 0xEA#8, 0x3C#8, 0x02#8, 0xBD#8, 0x77#8, 0x96#8], 16#8) := by decide +kernel

/-- M1. -/
theorem test_exec_genMac : (let t := after .genMac { keyed with mt := e8Bank }
    (txfFrame t, memRead t .mtMac 0 4)) = (m1Frame, [0xFD#8, 0x6C#8, 0xD7#8, 0x5E#8]) := by decide +kernel

/-- Section 6, verification of M1, and of a frame without a MAC field. -/
theorem test_exec_verifyMac : (after .verifyMac (after .decode (withOpb m1Frame keyed))).status.word = 0x0732#16 := by
  decide +kernel
theorem test_exec_verifyMac_plain : (after .verifyMac (after .decode (withOpb t1Frame keyed))).err = 0x23#8 := by
  decide +kernel

/-- Section 7: ENCRYPT of DE AD BE EF under S_ENC, and DECRYPT of the result. -/
theorem test_exec_encrypt : payload (after (.encrypt .sEnc .mt) keyedPayload) .mt = [0x77#8, 0x8D#8, 0xD2#8, 0x9B#8,
    0x85#8, 0xED#8, 0xA7#8, 0xC1#8, 0x18#8, 0xDC#8, 0x49#8, 0x96#8, 0x91#8, 0xC4#8, 0x27#8, 0xD3#8] := by
  decide +kernel
theorem test_exec_decrypt : payload (after (.decrypt .sEnc .mt) (after .loadIv (withOpb iv
    (after (.encrypt .sEnc .mt) keyedPayload)))) .mt = [0xDE#8, 0xAD#8, 0xBE#8, 0xEF#8] := by decide +kernel
/-- Section 7: an empty payload is no ciphertext. -/
theorem test_exec_decrypt_empty : (after (.decrypt .scbk .mt) keyed).err = 0x22#8 := by decide +kernel

/-- X1. -/
theorem test_exec_send : (let t := after .send (after .send { running 0x000C#16 .idle reset with
    env := { Env.quiet with transmitQ := [.transmitError] } })
    (t.err, t.status.word, t.call)) = (0x30#8, 0x5046#16, .none) := by decide +kernel

/-- X9, its first nine bytes: RECEIVE ends with the frame. -/
theorem test_exec_receive : (let t := after .receive (receiving [.bytes ([0xFF#8] ++ t1Frame)])
    (t.err, t.consumed, t.accLen, t.status.mstate)) = (0x00#8, 9#32, 0#32, .complete) := by decide +kernel
/-- X4: with DEADLINE 0 the first call is `Tx.reset`. -/
theorem test_exec_receive_timeout : (after .receive { running 0x000D#16 .awaitingResponse reset with
    env := { Env.quiet with nowQ := [5, 5] } }).call = .reset := by decide +kernel

/-- X12, without the frame. -/
theorem test_exec_mclear : (after .mclear (running 0x000E#16 .awaitingResponse reset)).status.word = 0x0002#16 := by
  decide +kernel

/-- Section 9. -/
theorem test_exec_regrd_unimplemented : (let t := after (.regrd 0x0D#8) reset
    (t.rdata, t.status.word)) = (0#64, 0x0008#16) := by decide +kernel
/-- Section 9, STATUS read during a RECEIVE; and during the first SEND (R79: BUSY and MSTATE). -/
theorem test_exec_regrd_busy : (after (.regrd 0x01#8)
    (setCall (running 0x000D#16 .awaitingResponse (setTxfV reset)) .receive)).rdata = 0x2041#64 ∧
    (after (.regrd 0x01#8) (after .send (running 0x000C#16 .idle reset))).rdata = 0x1001#64 := by decide +kernel
theorem test_exec_regwr_sblen : (after (.regwr 0x15#8 0x3FF#64) reset).mt.sblen = 0x1FF#9 := by decide +kernel
theorem test_exec_bufrd : (after (.bufrd 0x00#8 0#32) (after (.bufwr 0x00#8 0#32 0x153#64) reset)).rdata = 0x53#64 := by
  decide +kernel
theorem test_exec_bufwr_txf : (after (.bufwr 0x07#8 0#32 0#64) reset).status.herr = true := by decide +kernel

/-! ### Witnesses: states and operands that meet the hypotheses of each obligation -/

/-- An outcome is a next state. -/
def goesOn (o : Host.Outcome State Fault Refusal) : Bool :=
  match o with
  | .next _ => true
  | .fault _ => false
  | .refused _ => false

theorem exists_next {o : Host.Outcome State Fault Refusal} (h : goesOn o = true) : ∃ t, o = .next t := by
  cases o with
  | next t => exact ⟨t, rfl⟩
  | fault e => cases h
  | refused e => cases h

theorem exists_ok {x : Except Code Frame} (h : x.toBool = true) : ∃ f, x = .ok f := by
  cases x with
  | ok f => exact ⟨f, rfl⟩
  | error e => cases h

theorem exists_encoded {x : Except Code Bytes} (h : x.toBool = true) : ∃ f, x = .ok f := by
  cases x with
  | ok f => exact ⟨f, rfl⟩
  | error e => cases h

theorem witness_EncodeAgreesWithDecode : decodeCommand 0x070B#16 = .ok (.decrypt .sMac2 .mr) := by decide

/-- One word for each reason of 30_encoding.md R123, at its boundaries. -/
theorem witness_IllegalWords : ∀ w ∈ [0x0000#16, 0x000F#16, 0x0801#16, 0x0101#16, 0x0401#16],
    mover (accept reset w) = .sequencer ∧ (accept reset w).status.busy = true ∧
      ∃ e, decodeCommand (accept reset w).curCmd = .error e := by
  intro w hw
  simp only [List.mem_cons, List.not_mem_nil, or_false] at hw
  rcases hw with rfl | rfl | rfl | rfl | rfl <;> exact ⟨rfl, rfl, _, rfl⟩

/-- Reset with the sequencer, then the host, to move. -/
def scheduled (a : Agent) : State := { reset with env := { Env.quiet with sched := [a] } }

theorem witness_StepRunsInstruction :
    (mover (accept reset 0x0001#16) = .sequencer ∧ (accept reset 0x0001#16).status.busy = true ∧
      decodeCommand (accept reset 0x0001#16).curCmd = .ok .crc16) ∧
    (mover (scheduled .sequencer) = .sequencer ∧ (scheduled .sequencer).status.busy = false) ∧
    (mover (placeTransaction reset 0#106) = .host ∧ (placeTransaction reset 0#106).env.hostQ = [0#106]) ∧
    (mover reset = .host ∧ reset.env.hostQ = []) := by decide

theorem witness_BusyRefusal : (accept reset 0x0001#16).status.busy = true ∧ isOperation (.regwr 0x01#8 0#64) = false ∧
    Instr.regwr 0x01#8 0#64 ≠ .regrd 0x01#8 := by decide

/-- Reset with the least OPB_CAP. -/
def smallOpb : State := { reset with cfg := { Config.standard with opbCap := 16 } }

theorem witness_RegwrReadsBack : smallOpb.status.busy = false ∧ storedWidth smallOpb.cfg 0x05#8 = some 64 ∧
    storedWidth smallOpb.cfg 0x08#8 = some 16 ∧ (0x10010#64).toNat % 65536 ≤ smallOpb.cfg.opbCap ∧
    registerWidth smallOpb.cfg 0x2A#8 = some 8 := by decide

theorem witness_fits_keyed : Fits keyed :=
  ⟨by decide, by decide +kernel, by decide +kernel, by decide, by decide, by decide, by decide, by decide, by decide⟩

theorem witness_RegwrReadsBack_fits : Fits keyed ∧ keyed.status.busy = false := ⟨witness_fits_keyed, rfl⟩

theorem witness_RegwrKeepsOthers : smallOpb.status.busy = false ∧ storedWidth smallOpb.cfg 0x08#8 = some 16 ∧
    (0x10010#64).toNat % 65536 ≤ smallOpb.cfg.opbCap ∧ ∃ t, exec (.regwr 0x08#8 0x10010#64) smallOpb = .next t :=
  ⟨rfl, rfl, by decide, _, rfl⟩

theorem witness_Refusals : registerWidth smallOpb.cfg 0x0D#8 = none ∧ registerWidth smallOpb.cfg 0x18#8 = none ∧
    (0x02#8 ≠ 0x00#8 ∧ 0x02#8 ≠ 0x01#8 ∧ storedWidth smallOpb.cfg 0x02#8 = none) ∧
    (0x10#8).extractLsb' 4 4 ≠ 0#4 ∧ (bufOfId ((0x00#8).extractLsb' 0 4)).cap smallOpb.cfg ≤ (16#32).toNat ∧
    bufOfId ((0x03#8).extractLsb' 0 4) ∉ [Buf.opb, .mtPayload, .mtSbdata] ∧
    smallOpb.cfg.opbCap < (17#64).toNat % 65536 ∧ (accept smallOpb 0x0001#16).status.busy = true ∧
    isOperation (.bufrd 0x00#8 0#32) = false ∧ smallOpb.status.busy = false := by decide

theorem witness_RegrdReads : keyed.status.busy = false := by decide

theorem witness_StatusWrite : (after .crc16 reset).status.busy = false ∧ (after .crc16 reset).status.done = true ∧
    (0x2#64).getLsbD 1 = true := by decide +kernel

/-- The last byte of OPB is written, the next does not exist; byte 0 of TXF is read only. -/
theorem witness_BufferAccess : Buf.opb = bufOfId ((0x00#8).extractLsb' 0 4) ∧
    ¬ (smallOpb.status.busy = true ∨ (0x00#8).extractLsb' 4 4 ≠ 0#4 ∨ Buf.opb.cap smallOpb.cfg ≤ (15#32).toNat) ∧
    Buf.opb ∈ [Buf.opb, .mtPayload, .mtSbdata] ∧ Buf.opb.cap smallOpb.cfg ≤ (16#32).toNat ∧
    Buf.txf = bufOfId ((0x07#8).extractLsb' 0 4) ∧ ¬ Buf.txf.cap smallOpb.cfg ≤ (0#32).toNat ∧
    Buf.txf ∉ [Buf.opb, .mtPayload, .mtSbdata] := by decide

theorem witness_CommandAccepted : reset.status.busy = false ∧ (accept reset 0x000D#16).status.busy = true := by decide

theorem witness_HostWritesOnly : isOperation (.bufwr 0x02#8 255#32 7#64) = false ∧
    ∃ t, exec (.bufwr 0x02#8 255#32 7#64) reset = .next t := ⟨rfl, _, rfl⟩

theorem witness_OperationsKeepHostState : isOperation .mclear = true ∧
    (∀ k, Instr.mclear ≠ .encrypt k .mt ∧ Instr.mclear ≠ .decrypt k .mt) ∧ Instr.mclear ≠ .genMac ∧
    Instr.mclear ≠ .send ∧ ∃ t, exec .mclear keyed = .next t :=
  ⟨rfl, fun _ => ⟨by simp, by simp⟩, by simp, by simp, _, rfl⟩

theorem witness_OperationsWriteOnlyTheirResults : keyed.cfg.Legal ∧ isOperation .encode = true ∧
    Instr.encode ∈ [Instr.crc16, .encode, .decode, .cryptogram, .receive, .mclear] ∧
    (∀ k, Instr.encode ≠ .encrypt k .mr ∧ Instr.encode ≠ .decrypt k .mr) ∧
    keyed.status.scbkV = true ∧ (after .encode keyed).status.txfV = true ∧ ∃ t, exec .encode keyed = .next t :=
  ⟨by decide, rfl, by simp, fun _ => ⟨by simp, by simp⟩, rfl, by decide +kernel, _, rfl⟩

theorem witness_EveryOperationEndsOrWaits : isOperation .receive = true := rfl

theorem witness_Crc16Computes : reset.opbLen = 0#16 := rfl

theorem witness_CrcDetectsOneByte : (0x40#8) ≠ 0x41#8 := by decide

theorem witness_encodeMt_reset : encodeMt reset = .ok e1Frame := by decide +kernel

/-- E1 with its CODE changed, and its first CRC byte. -/
theorem witness_CorruptFrameNeverDecodes : reset.cfg.Legal ∧ encodeMt reset = .ok e1Frame ∧ 5 < e1Frame.length ∧
    5 ∉ [0, 2, 3] ∧ e1Frame[5]? ≠ some 0x01#8 ∧ 7 < e1Frame.length ∧ 7 ∉ [0, 2, 3] ∧ e1Frame[7]? ≠ some 0x00#8 :=
  ⟨by decide, witness_encodeMt_reset, by decide, by decide, by decide, by decide, by decide, by decide⟩

/-- The plain frame of E1 where FRAME_MAX is 8, and the secure frame of E8. -/
theorem witness_EncodeBuildsFrame : (let s := { reset with cfg := { Config.standard with frameMax := 8 } };
      s.cfg.Legal ∧ s.mt.seq.toNat ≤ 3 ∧ s.mt.secure = 0#1 ∧ 5 + 0 + 1 + s.mt.plen.toNat + 0 + 2 ≤ s.cfg.frameMax) ∧
    (let s := { reset with mt := { e8Bank with seq := 3, sblen := 253, sbtype := 0x18 } };
      s.cfg.Legal ∧ s.mt.seq.toNat ≤ 3 ∧ s.mt.secure = 1#1 ∧ s.mt.sblen.toNat ≤ 253 ∧ 0x11 ≤ s.mt.sbtype.toNat ∧
      s.mt.sbtype.toNat ≤ 0x18 ∧ 0x14 < s.mt.sbtype.toNat ∧ 5 + 255 + 1 + s.mt.plen.toNat + 4 + 2 ≤ s.cfg.frameMax) := by
  decide

/-- E12; E15; E13 and E14; E20 in a small block. -/
theorem witness_EncodeRaises : 3 < { e8Bank with seq := 4 }.seq.toNat ∧
    (e8Bank.seq.toNat ≤ 3 ∧ e8Bank.secure = 1#1 ∧ 253 < { e8Bank with sblen := 254 }.sblen.toNat) ∧
    (e8Bank.sblen.toNat ≤ 253 ∧ ({ e8Bank with sbtype := 0x10 }.sbtype.toNat < 0x11 ∧
      0x18 < { e8Bank with sbtype := 0x19 }.sbtype.toNat)) ∧
    (let s := { reset with cfg := { Config.standard with frameMax := 8 }, mt := { MTBank.atReset with plen := 1 } };
      s.mt.seq.toNat ≤ 3 ∧ s.mt.secure = 0#1 ∧ s.cfg.frameMax < 8 + s.mt.plen.toNat + 0 + 0) := by decide

theorem witness_DecodeRecoversEncode : reset.cfg.Legal ∧ encodeMt reset = .ok e1Frame ∧
    0x53#8 ∉ [0xFF#8, 0x00#8] ∧ 7 < e1Frame.length :=
  ⟨by decide, witness_encodeMt_reset, by decide, by decide⟩

/-- V2 and V5; V6; V10; V9; V16; V22 (a LEN of 10 where 14 are needed); and one LEN short of a block of 13. -/
theorem witness_DecodeCornerCases : (List.replicate 7 0#8).length < 8 ∧
    (8 ≤ (List.replicate 8 0#8).length ∧ 0x53#8 ∉ List.replicate 8 0#8) ∧ 0x53#8 ∉ [0xFF#8] ∧
    8 + ([] : Bytes).length < (0x09#8).toNat + 256 * (0x00#8).toNat ∧ (0x07#8).toNat + 256 * (0x00#8).toNat < 8 ∧
    ((0x08#8).toNat + 256 * (0x00#8).toNat ≤ 8 + ([] : Bytes).length ∧ (0x0C#8).getLsbD 3 = true ∧
      (0x01#8).toNat < 2) ∧
    ((0x0A#8).toNat + 256 * (0x00#8).toNat ≤ 8 + [0x3A#8, 0xF1#8].length ∧
      (0x0A#8).toNat + 256 * (0x00#8).toNat < 8 + (0x02#8).toNat + (if 0x14 < (0x15#8).toNat then 4 else 0)) ∧
    (0x0D#8).toNat < 8 + (0x06#8).toNat + (if 0x14 < (0x14#8).toNat then 4 else 0) ∧
    decodeFrame [] = .error .incomplete := by decide

/-- V12, V19 and V20 (reserved bits), V21 and V23 (a type no encoder writes, and the least secure frame), each
laid out with its CRC right; V7, whose CRC is not. -/
theorem witness_DecodeCornerCases_layout :
    ((0x04#8).getLsbD 3 = false ∧ 5 + 0 + 1 + 0 + 0 + 2 = 8 ∧
      [0x59#8, 0xAC#8] = le16 (crc16 [0x53#8, 0x80#8, 0x08#8, 0x00#8, 0x04#8, 0x40#8])) ∧
    [0x4D#8, 0x42#8] = le16 (crc16 [0x53#8, 0x00#8, 0x08#8, 0x00#8, 0x00#8, 0x40#8]) ∧
    [0x48#8, 0x9D#8] = le16 (crc16 [0x53#8, 0x00#8, 0x08#8, 0x00#8, 0xF4#8, 0x40#8]) ∧
    ((0x0E#8).getLsbD 3 = true ∧ 0x14 < (0x19#8).toNat ∧ [0x10#8, 0x12#8] = le16 (crc16 ([0x53#8, 0x01#8, 0x0E#8,
      0x00#8, 0x0E#8] ++ ([BitVec.ofNat 8 2, 0x19#8] ++ []) ++ [0x60#8] ++ [] ++ [0#8, 0#8, 0#8, 0#8]))) ∧
    ((0x0C#8).getLsbD 3 = true ∧ ¬ 0x14 < (0x14#8).toNat ∧ [0x0B#8, 0xC2#8] = le16 (crc16 ([0x53#8, 0x00#8, 0x0A#8,
      0x00#8, 0x0C#8] ++ ([BitVec.ofNat 8 2, 0x14#8] ++ []) ++ [0x40#8] ++ [] ++ []))) ∧
    [0x89#8, 0x8E#8] ≠ le16 (crc16 [0x53#8, 0x00#8, 0x08#8, 0x00#8, 0x04#8, 0x41#8]) := by decide +kernel

/-- T1, and T1 with a bit of its CRC flipped (V8). -/
theorem witness_DecodeResultIsFinal : (∃ r, decodeFrame t1Frame = .ok r) ∧
    decodeFrame (t1Frame.set 7 0x8F#8) = .error .checksumFailed := ⟨exists_ok (by decide +kernel), by decide +kernel⟩

theorem witness_DecodedFrameParts : ∃ r, decodeFrame ([0x00#8] ++ m1Frame) = .ok r := exists_ok (by decide +kernel)

theorem witness_DecodeCommits : opbOperand (withOpb t1Frame reset) = t1Frame ∧ (∃ f, decodeFrame t1Frame = .ok f) ∧
    decodeFrame (opbOperand reset) = .error .incomplete := ⟨by decide +kernel, exists_ok (by decide +kernel),
    by decide +kernel⟩

theorem witness_CipherInverse : scbk.length = 16 ∧ iv.length = 16 := by decide

theorem witness_PaddingInverse : unpad16 [0x80#8] = some [] := by decide

theorem witness_ChainingInverse : scbk.length = 16 ∧ iv.length = 16 ∧ scbk.length % 16 = 0 ∧ scbk ≠ [] := by decide

/-- Operand lengths on both sides of what LOAD_SCBK, LOAD_IV, DERIVE_KEYS and CRYPTOGRAM ask for. -/
theorem witness_LoadScbkLoads : { reset with opbLen := 15 }.opbLen ≠ 16#16 ∧ (withOpb scbk reset).opbLen = 16#16 := by
  decide
theorem witness_LoadIvLoads : { reset with opbLen := 17 }.opbLen ≠ 16#16 ∧ (withOpb iv reset).opbLen = 16#16 := by
  decide
theorem witness_DeriveKeysDerives : reset.status.scbkV = false ∧
    (keyed.status.scbkV = true ∧ { keyed with opbLen := 7 }.opbLen ≠ 8#16) ∧
    (withOpb (rising 0xB0#8 8) keyed).status.scbkV = true ∧ (withOpb (rising 0xB0#8 8) keyed).opbLen = 8#16 := by
  decide
theorem witness_CryptogramEncrypts : reset.status.skV = false ∧
    (keyed.status.skV = true ∧ { keyed with opbLen := 15 }.opbLen ≠ 16#16) ∧
    (withOpb iv keyed).status.skV = true ∧ (withOpb iv keyed).opbLen = 16#16 := by decide

/-- The checks of GEN_MAC in their order (95_test_vectors.md section 6), then E8's message. -/
theorem witness_GenMacBuildsFrame : reset.cfg.Legal ∧ { e8Bank with sbtype := 0x14 }.sbtype.toNat ≤ 0x14 ∧
    MTBank.atReset.secure = 0#1 ∧ e8Bank.secure = 1#1 ∧ 0x14 < e8Bank.sbtype.toNat ∧ reset.status.skV = false ∧
    (setKeyFlags reset true true false).status.skV = true ∧ (setKeyFlags reset true true false).status.ivcV = false ∧
    keyed.status.skV = true ∧ keyed.status.ivcV = true ∧
    encodeMt { keyed with mt := { e8Bank with sbtype := 0x19 } } = .error .invalidSecureBlockType ∧
    ∃ f, encodeMt { keyed with mt := e8Bank } = .ok f :=
  ⟨by decide, by decide, by decide, by decide, by decide, by decide, by decide, by decide, by decide, by decide,
    by decide +kernel, exists_encoded (by decide +kernel)⟩

/-- M1 decoded by a keyed block. -/
def m1Decoded : State := after .decode (withOpb m1Frame keyed)

/-- A state for each branch of VERIFY_MAC. -/
theorem witness_VerifyMacChecks : reset.status.mrValid = false ∧
    (let s := after .decode (withOpb t1Frame keyed); s.status.mrValid = true ∧ s.mr.secure = 0#1) ∧
    (let s := setKeyFlags m1Decoded true false true; s.mr.secure = 1#1 ∧ s.mr.macv = 1#1 ∧ s.status.skV = false) ∧
    (let s := setKeyFlags m1Decoded true true false; s.status.skV = true ∧ s.status.ivcV = false) ∧
    (let s := memWrite m1Decoded .mrMac 0 [0#8]; s.status.ivcV = true ∧
      (macOf (keyBytes s .sMac1) (keyBytes s .sMac2) (memRead s .rxf 0 (s.rxfLen.toNat - 6)) (keyBytes s .ivc)).1 ≠
        memRead s .mrMac 0 4) ∧
    (let s := m1Decoded; (macOf (keyBytes s .sMac1) (keyBytes s .sMac2) (memRead s .rxf 0 (s.rxfLen.toNat - 6))
      (keyBytes s .ivc)).1 = memRead s .mrMac 0 4) := by decide +kernel

theorem witness_EncryptTransforms : kselFlag reset .sEnc = false ∧
    (kselFlag (setKeyFlags reset true true false) .sEnc = true ∧
      (setKeyFlags reset true true false).status.ivcV = false) ∧
    (kselFlag keyed .sEnc = true ∧ keyed.status.ivcV = true ∧
      65520 ≤ (mselLen { keyed with mt := { e8Bank with plen := 65520 } } .mt).toNat) ∧
    ¬ 65520 ≤ (mselLen { keyed with mt := { e8Bank with plen := 65519 } } .mt).toNat := by decide

/-- PLEN 0 and 15; a block without a marker, in the vector of 95_test_vectors.md section 7; ENCRYPT's result. -/
theorem witness_DecryptTransforms : kselFlag reset .sEnc = false ∧
    (setKeyFlags reset true true false).status.ivcV = false ∧ (mselLen keyed .mt).toNat = 0 ∧
    (mselLen { keyed with mt := { e8Bank with plen := 15 } } .mt).toNat % 16 ≠ 0 ∧
    (cbcDecrypt sEnc iv [0x8C#8, 0x40#8, 0x78#8, 0x6B#8, 0x86#8, 0xAF#8, 0xDB#8, 0xE5#8, 0x2B#8, 0x16#8, 0x00#8,
      0xCF#8, 0x3F#8, 0x3C#8, 0x15#8, 0x78#8]).1 = List.replicate 16 0#8 ∧
    (cbcDecrypt sEnc iv (payload (after (.encrypt .sEnc .mt) keyedPayload) .mt)).1 =
      [0xDE#8, 0xAD#8, 0xBE#8, 0xEF#8] ++ 0x80#8 :: List.replicate 11 0#8 := by decide +kernel

/-- Two blocks with the same keys and IV: the one sends M1, the other holds it in OPB. -/
theorem witness_MacAgreement : (let s := { keyed with mt := e8Bank };
      s.cfg.Legal ∧ (after .genMac s).err = 0#8 ∧ opbOperand (withOpb m1Frame keyed) = txfFrame (after .genMac s) ∧
      keyBytes (withOpb m1Frame keyed) .sMac1 = keyBytes s .sMac1 ∧
      keyBytes (withOpb m1Frame keyed) .sMac2 = keyBytes s .sMac2 ∧
      keyBytes (withOpb m1Frame keyed) .ivc = keyBytes s .ivc) ∧
    keyed.status.skV = true ∧ keyed.status.ivcV = true ∧ ∃ t, exec .genMac { keyed with mt := e8Bank } = .next t :=
  ⟨by decide +kernel, by decide, by decide, exists_next (by decide +kernel)⟩

/-- The payload encrypted, and the IV set back. -/
theorem witness_PayloadRoundTrip : (let t := after (.encrypt .sEnc .mt) keyedPayload;
      let u := memWrite t .ivc 0 iv;
      payload u .mt = payload t .mt ∧ kselFlag u .sEnc = true ∧ u.status.ivcV = true ∧
      keyBytes u .sEnc = keyBytes keyedPayload .sEnc ∧ keyBytes u .ivc = keyBytes keyedPayload .ivc) ∧
    (mselLen keyedPayload .mt).toNat < 65520 ∧ kselFlag keyedPayload .sEnc = true ∧
    keyedPayload.status.ivcV = true ∧ ∃ t, exec (.encrypt .sEnc .mt) keyedPayload = .next t :=
  ⟨by decide +kernel, by decide, by decide, by decide, exists_next (by decide +kernel)⟩

/-- The plain path, the MAC path, and a message that is no frame. -/
theorem witness_SendAssembles : reset.call = .none ∧ reset.status.mstate ≠ .awaitingResponse ∧
    (after .encode reset).err = 0#8 ∧ ¬ (reset.ctrl.getLsbD 1 = true ∧ reset.mt.secure = 1#1) ∧
    (let s := { keyed with mt := e8Bank, ctrl := 2 };
      s.call = .none ∧ s.status.mstate ≠ .awaitingResponse ∧ s.ctrl.getLsbD 1 = true ∧ s.mt.secure = 1#1 ∧
      0x14 < s.mt.sbtype.toNat ∧ (after .genMac s).err = 0#8) ∧
    (after .encode { reset with mt := { e8Bank with seq := 4 } }).err ≠ 0#8 := by decide +kernel

/-- SEND waiting for its answer. -/
def sending (q : List TransmitAnswer) : State :=
  { setCall (running 0x000C#16 .sending reset) (.transmit e1Frame) with env := { Env.quiet with transmitQ := q } }

theorem witness_SendAnswered : (sending [.ok]).call = .transmit e1Frame ∧ (sending [.ok]).env.transmitQ = [.ok] ∧
    (sending [.transmitError]).env.transmitQ = [.transmitError] ∧ (sending []).env.transmitQ = [] := by decide

/-- RECEIVE about to begin a cycle with this deadline. -/
def starting (d : Tick) : State := { running 0x000D#16 .awaitingResponse reset with deadline := d }

/-- The deadline still to come (1), and reached at once (0, as in X4). -/
theorem witness_ReceiveStarts : (starting 1).call = .none ∧ (starting 1).status.mstate = .awaitingResponse ∧
    elapsed (starting 1).cfg (sampled (sampled (starting 1))).env.now (sampled (starting 1)).env.now = 0 ∧
    (starting 0).call = .none ∧ (starting 0).status.mstate = .awaitingResponse := ⟨rfl, rfl, by decide, rfl, rfl⟩

/-- Each answer that ends a cycle: an error, one byte too many, a string that is no frame, a frame. -/
theorem witness_ReceiveEnds : (receiving [.receiveError]).cfg.Legal ∧ (receiving [.receiveError]).call = .receive ∧
    (receiving [.receiveError]).env.receiveQ = [.receiveError] ∧
    (let s := { receiving [.bytes [0#8]] with accLen := 65535 };
      s.cfg.Legal ∧ s.call = .receive ∧ s.env.receiveQ = [.bytes [0#8]] ∧ s.cfg.accCap < s.accLen.toNat + [0#8].length) ∧
    (∀ r ∈ [t1Frame, List.replicate 8 0#8], (receiving [.bytes r]).env.receiveQ = [.bytes r] ∧
      (receiving [.bytes r]).accLen.toNat + r.length ≤ (receiving [.bytes r]).cfg.accCap) ∧
    decodeFrame (accBytes (receiving [])  ++ List.replicate 8 0#8) = .error .invalidStartOfMessage ∧
    (∃ f, decodeFrame (accBytes (receiving []) ++ t1Frame) = .ok f) :=
  ⟨by decide, by decide, by decide, by decide, by decide +kernel, by decide +kernel, exists_ok (by decide +kernel)⟩

/-- No answer yet; and a string that is not yet a frame. -/
theorem witness_ReceiveAccumulates : (receiving []).cfg.Legal ∧ (receiving []).call = .receive ∧
    (receiving []).env.receiveQ = [] ∧ (receiving [.bytes [0x53#8]]).call = .receive ∧
    (receiving [.bytes [0x53#8]]).env.receiveQ = [.bytes [0x53#8]] ∧
    (receiving [.bytes [0x53#8]]).accLen.toNat + [0x53#8].length ≤ (receiving [.bytes [0x53#8]]).cfg.accCap ∧
    decodeFrame (accBytes (receiving [.bytes [0x53#8]]) ++ [0x53#8]) = .error .incomplete := by decide

/-- RECEIVE with DEADLINE 0, about to run. -/
def timingOut : State := running 0x000D#16 .awaitingResponse reset

theorem witness_ResetOnlyAfterDeadline : ∃ t, step timingOut = .next t ∧ t.call = .reset := ⟨_, rfl, rfl⟩

/-- RECEIVE waiting for the answer to `Tx.reset`. -/
def resetting (q : List ResetAnswer) : State :=
  { setCall (running 0x000D#16 .timedOut reset) .reset with env := { Env.quiet with resetQ := q } }

theorem witness_ResetAnswered : (resetting [.ok]).call = .reset ∧ (resetting [.ok]).env.resetQ = [.ok] ∧
    (resetting [.resetError]).env.resetQ = [.resetError] ∧ (resetting []).env.resetQ = [] := by decide

theorem witness_IllegalStateRefused : timingOut.call = .none ∧ timingOut.status.mstate = .awaitingResponse ∧
    reset.call = .none ∧ reset.status.mstate ≠ .awaitingResponse ∧ Instr.crc16 ≠ .send ∧ Instr.crc16 ≠ .receive ∧
    Instr.crc16 ≠ .mclear ∧ ∃ t, exec .crc16 reset = .next t :=
  ⟨rfl, rfl, rfl, by decide, by decide, by decide, by decide, _, rfl⟩

theorem witness_messengerSound (s : State) (hc : s.call = .none) (hm : s.status.mstate ≠ .sending)
    (ha : s.accLen = 0#32) (hh : s.held = s.status.hold) : MessengerSound s :=
  ⟨fun _ => hc, fun _ => ⟨hm, ha⟩, fun f h => (by rw [hc] at h; cases h), fun h => (by rw [hc] at h; cases h),
    fun h => (by rw [hc] at h; cases h), fun _ _ => hh, fun f h => (by rw [hc] at h; cases h),
    fun h => (by rw [hc] at h; simp at h)⟩

theorem witness_MessengerArrows : MessengerSound timingOut ∧ ∃ t, step timingOut = .next t :=
  ⟨witness_messengerSound _ rfl (by decide) rfl rfl, _, rfl⟩

theorem witness_FitsKept : Fits keyed ∧ ∃ t, step keyed = .next t := ⟨witness_fits_keyed, _, rfl⟩

/-- After an operation that raised, the host having issued another. -/
theorem witness_RecordKept : (let s := accept (after .verifyMac reset) 0x0001#16;
    RecordSound s ∧ ∃ t, step s = .next t) :=
  ⟨⟨by decide, ⟨.illegalState, by decide, by decide⟩, by decide⟩, _, rfl⟩

theorem witness_MessengerKept : (MessengerSound timingOut ∧ ∃ t, step timingOut = .next t) ∧
    MessengerSound keyed ∧ keyed.status.busy = false :=
  ⟨witness_MessengerArrows, witness_messengerSound _ rfl (by decide) rfl (by decide +kernel), rfl⟩

/-- After the MAC-bearing M1 is decoded. -/
theorem witness_BankKept : BankSound m1Decoded ∧ ∃ t, step m1Decoded = .next t :=
  ⟨by constructor <;> decide +kernel, exists_next (by decide +kernel)⟩

theorem witness_ValuesKept : Fits keyed ∧ ValuesSound keyed ∧ ∃ t, step keyed = .next t := by
  refine ⟨witness_fits_keyed, ?_, _, rfl⟩
  constructor <;> (try unfold Holds) <;> decide +kernel

theorem witness_ResetState : registerWidth Config.standard 0x17#8 = some 32 ∧ 4 < bufSpan ∧ 3 < bufSpan := by decide

theorem witness_ResetInput : mover (scheduled .rst) = .rst := rfl

/-- IE set, at a completion; an idle block with DONE = 1; a read. -/
theorem witness_InterruptRequest : (let s := { reset with ctrl := 1 };
      (after .crc16 s).err = 0#8 ∧ (after .crc16 s).status.errf = false ∧ (after .crc16 s).status.done = true ∧
      (after .crc16 s).status.busy = false ∧ (after .crc16 s).errOp = s.curCmd ∧ irq (after .crc16 s) = true) ∧
    isOperation .crc16 = true ∧ (after .crc16 reset).status.busy = false ∧ isOperation (.regwr 0x10#8 1#64) = false ∧
    0x10#8 ∉ [0x00#8, 0x01#8, 0x04#8] ∧ ∃ t, exec (.regwr 0x10#8 1#64) (after .crc16 reset) = .next t :=
  ⟨by decide +kernel, rfl, by decide +kernel, rfl, by decide, exists_next (by decide +kernel)⟩

end Sys2Proof.Tests
end

section
/-! SUPPORT. Which agent's move a step is (00_scope.md R9), one equation per agent and case. -/

namespace Sys2Proof.Machine

open Sys2Proof

theorem step_of_command {s : State} {i : Instr} (hm : mover s = .sequencer) (hb : s.status.busy = true)
    (hi : decodeCommand s.curCmd = .ok i) : step s = exec i (moved s) := by
  simp [step, fetch, hm, fetchCommand, hb, hi]

theorem step_of_sequencer_idle {s : State} (hm : mover s = .sequencer) (hb : s.status.busy = false) :
    step s = .next (moved s) := by
  simp [step, fetch, hm, fetchCommand, hb]

theorem step_of_transaction {s : State} {w : BitVec 106} {rest : List (BitVec 106)} (hm : mover s = .host)
    (hq : s.env.hostQ = w :: rest) :
    step s = exec (decodeTransaction w) { moved s with env := { (moved s).env with hostQ := rest } } := by
  simp [step, fetch, hm, fetchTransaction, hq]

theorem step_of_host_idle {s : State} (hm : mover s = .host) (hq : s.env.hostQ = []) :
    step s = .next (moved s) := by
  simp [step, fetch, hm, fetchTransaction, hq]

/-- Settles O6: the state `u` of the statement is `moved s`, and each clause is the equation of its case. -/
theorem stepRunsInstruction : Obligations.StepRunsInstruction := by
  intro s u hu
  have hu : u = moved s := hu
  subst hu
  exact ⟨fun _ hm hb hi => step_of_command hm hb hi, step_of_sequencer_idle,
    fun _ _ hm hq => step_of_transaction hm hq, step_of_host_idle⟩

end Sys2Proof.Machine
end

section
/-! SUPPORT. How long the strings are that operations write into buffers: at most what their buffers hold. -/

namespace Sys2Proof.Machine

open Sys2Proof

theorem length_slice_le (f : Bytes) (a n : Nat) : (slice f a n).length ≤ n := List.length_take_le _ _

/-- What a decoded frame brings for the buffers of bank MR (10_state.md R41, 41_codec.md R168). -/
theorem decodeFrame_lengths {b : Bytes} {f : Frame} (h : decodeFrame b = .ok f) :
    f.sbdata.length ≤ 253 ∧ f.payload.length ≤ 65535 ∧ f.mac.length ≤ 4 ∧ f.raw.length ≤ 65535 := by
  obtain ⟨noise, rest, -, -, -, rfl⟩ := decodeFrame_ok h
  generalize som :: rest = g
  have hl := frameLen_lt g
  have hpay := length_slice_le g (frameCodeAt g + 1) (frameLen g - frameNeed g)
  have hraw := length_slice_le g 0 (frameLen g)
  refine ⟨?_, by simp only [frameFields]; omega, ?_, by simp only [frameFields]; omega⟩
  · have hsb := length_slice_le g 7 ((byteAt g 5).toNat - 2)
    have hbyte := (byteAt g 5).isLt
    simp only [frameFields]
    split
    · omega
    · simp
  · simp only [frameFields]
    split
    · exact length_slice_le _ _ _
    · simp [zeros, macLen]

/-- The frame GEN_MAC puts in the place of `f` is as long as `f` (43_secure_channel.md R210). -/
theorem length_withCrc_beforeMac {f mac : Bytes} (hf : 6 ≤ f.length) (hm : mac.length = 4) :
    (withCrc (beforeMac f ++ mac)).length = f.length := by
  simp only [length_withCrc, List.length_append, beforeMac, List.length_take, macLen, crcLen, hm]
  omega

/-- The session MAC is 4 bytes, and the block GEN_MAC and VERIFY_MAC put into IVC 16. -/
theorem length_sessionMac (s : State) (f : Bytes) :
    (sessionMac s f).1.length = 4 ∧ (sessionMac s f).2.length = 16 := by
  obtain ⟨hmac, hlast, -⟩ := length_macOf (length_keyBytes s .sMac1) (length_keyBytes s .sMac2)
    (length_keyBytes s .ivc) f
  exact ⟨hmac, hlast⟩

/-- A plaintext is no longer than its ciphertext's blocks: each block of it is cut to the chained one. -/
theorem length_cbcDecBlocks_le {k v : Bytes} {bs : List Bytes} (hv : v.length = 16)
    (hb : ∀ b ∈ bs, b.length = 16) : (cbcDecBlocks k v bs).1.length ≤ 16 * bs.length := by
  induction bs generalizing v with
  | nil => simp [cbcDecBlocks]
  | cons b bs ih =>
    have hrest := ih (hb b (by simp)) fun x hx => hb x (List.mem_cons_of_mem _ hx)
    simp only [cbcDecBlocks, List.length_append, List.length_cons, length_xorBytes]
    omega

theorem length_cbcDecrypt_le {k iv : Bytes} (hiv : iv.length = 16) (c : Bytes) :
    (cbcDecrypt k iv c).1.length ≤ c.length := by
  have h := length_cbcDecBlocks_le (k := k) hiv (bs := blocks c) fun _ hb => length_of_mem_blocks hb
  have hn : (blocks c).length = c.length / 16 := by simp [blocks, blockLen]
  unfold cbcDecrypt
  omega

theorem length_unpad16_le {q u : Bytes} (h : unpad16 q = some u) : u.length ≤ q.length := by
  obtain ⟨z, rfl⟩ := unpad16_eq_some h
  simp

theorem maskTick_lt (c : Config) (v : Tick) : (maskTick c v).toNat < 2 ^ c.timeW := by
  have hpos : 0 < 2 ^ c.timeW := Nat.two_pow_pos _
  calc (maskTick c v).toNat ≤ v.toNat % 2 ^ c.timeW := by
        rw [maskTick, BitVec.toNat_ofNat]; exact Nat.mod_le _ _
    _ < 2 ^ c.timeW := Nat.mod_lt _ hpos

theorem nextNow_lt (s : State) : (nextNow s).toNat < 2 ^ s.cfg.timeW := by
  unfold nextNow
  split <;> exact maskTick_lt _ _

end Sys2Proof.Machine
end

section
/-! SUPPORT. Every named update of the state keeps `Fits` (00_scope.md R12, 10_state.md R41). -/

namespace Sys2Proof.Machine

open Sys2Proof

/-- The fields `Fits` speaks of. -/
def fitsView (s : State) : Config × Memory × (BitVec 16 × BitVec 16 × BitVec 32) × Tick × Tick × Tick :=
  (s.cfg, s.mem, (s.opbLen, s.txfLen, s.accLen), s.deadline, s.dl, s.t0)

/-- An update outside those fields keeps `Fits`; the premise is `rfl` for such an update. -/
theorem fits_congr {s t : State} (h : Fits s) (e : fitsView t = fitsView s) : Fits t := by
  simp only [fitsView, Prod.mk.injEq] at e
  obtain ⟨hcfg, hmem, ⟨hopb, htxf, hacc⟩, hdeadline, hdl, ht0⟩ := e
  constructor
  · rw [hcfg]; exact h.legal
  · rw [hmem]; exact h.canonical
  · rw [hcfg, hmem]; exact h.inside
  · rw [hcfg, hopb]; exact h.opb
  · rw [hcfg, htxf]; exact h.txf
  · rw [hcfg, hacc]; exact h.acc
  · rw [hcfg, hdeadline]; exact h.deadline
  · rw [hcfg, hdl]; exact h.dl
  · rw [hcfg, ht0]; exact h.t0

section Updates

variable {s : State} (h : Fits s)
include h

theorem fits_complete (o : Code) : Fits (complete o s) := fits_congr h rfl

theorem fits_setMState (m : MState) : Fits (setMState s m) := fits_congr h rfl

theorem fits_setCall (c : TxCall) : Fits (setCall s c) := fits_congr h rfl

theorem fits_setMrValid (b : Bool) : Fits (setMrValid s b) := fits_congr h rfl

theorem fits_setMacOk (b : Bool) : Fits (setMacOk s b) := fits_congr h rfl

theorem fits_setKeyFlags (x y z : Bool) : Fits (setKeyFlags s x y z) := fits_congr h rfl

theorem fits_sampled : Fits (sampled s) := fits_congr h rfl

theorem fits_refuse : Fits (refuse s) := fits_congr h rfl

theorem fits_moved : Fits (moved s) := fits_congr h rfl

theorem fits_env (e : Env) : Fits { s with env := e } := fits_congr h rfl

theorem fits_rdata (v : BitVec 64) : Fits { s with rdata := v } := fits_congr h rfl

theorem fits_setBuffer {b : Buf} {v : Bytes} (hv : v.length ≤ b.cap s.cfg) : Fits (setBuffer s b v) :=
  { h with canonical := setBuffer_wf h.canonical b v, inside := setBuffer_inside h.legal h.inside hv }

theorem fits_memWrite {b : Buf} {off : Nat} {v : Bytes} (hv : off + v.length ≤ b.cap s.cfg) :
    Fits (memWrite s b off v) :=
  { h with canonical := memWrite_wf h.canonical b off v, inside := memWrite_inside h.legal h.inside hv }

theorem fits_forget (b : Buf) : Fits (forget s b) := fits_setBuffer h (Nat.zero_le _)

theorem fits_setTxf {f : Bytes} (hf : f.length ≤ s.cfg.frameMax) : Fits (setTxf s f) := by
  have hlen : (BitVec.ofNat 16 f.length).toNat ≤ s.cfg.frameMax := by
    rw [BitVec.toNat_ofNat]; exact (Nat.mod_le _ _).trans hf
  have hb : Fits (setBuffer s .txf f) := fits_setBuffer h hf
  exact { hb with txf := hlen }

theorem fits_setPayload (m : BankSel) {v : Bytes} (hv : v.length ≤ 65535) : Fits (setPayload s m v) := by
  cases m with
  | mt => exact fits_congr (fits_setBuffer h (b := .mtPayload) hv) rfl
  | mr => exact fits_congr (fits_setBuffer h (b := .mrPayload) hv) rfl

theorem fits_accClear : Fits (accClear s) :=
  { fits_forget h .acc with acc := Nat.zero_le _ }

theorem fits_accAppend {r : Bytes} (hr : s.accLen.toNat + r.length ≤ s.cfg.accCap) : Fits (accAppend s r) := by
  have hlen : (BitVec.ofNat 32 (s.accLen.toNat + r.length)).toNat ≤ s.cfg.accCap := by
    rw [BitVec.toNat_ofNat]; exact (Nat.mod_le _ _).trans hr
  have hb : Fits (memWrite s .acc s.accLen.toNat r) := fits_memWrite h hr
  exact { hb with acc := hlen }

theorem fits_commit {b : Bytes} {f : Frame} (hf : decodeFrame b = .ok f) : Fits (commit f s) := by
  obtain ⟨hsb, hpay, hmac, hraw⟩ := decodeFrame_lengths hf
  have hbufs : Fits (commitBuffers f s) := by
    refine fits_setBuffer (fits_memWrite (fits_setBuffer (fits_setBuffer h ?_) ?_) ?_) ?_
    · exact hsb
    · exact hpay
    · rw [Nat.zero_add]; exact hmac
    · exact hraw
  exact fits_congr hbufs (by simp [fitsView])

theorem fits_macedFrame {f : Bytes} (hf : encodeMt s = .ok f) : Fits (macedFrame s f) := by
  obtain ⟨hmac, hlast⟩ := length_sessionMac s (beforeMac f)
  obtain ⟨-, hmax, -⟩ := encodeMt_ok hf
  have hlen := length_encodeMt hf
  have h6 : 6 ≤ f.length := by rw [hlen]; unfold mtTotal crcLen; omega
  refine fits_setBuffer (fits_memWrite (fits_setTxf h ?_) ?_) ?_
  · rw [length_withCrc_beforeMac h6 hmac, hlen]; exact hmax
  · rw [Nat.zero_add, hmac]; exact le_refl _
  · rw [hlast]; exact le_refl _

theorem fits_regWritten {t : State} {sel : BitVec 8} {v : BitVec 64} (ht : regWritten s sel v = some t) : Fits t := by
  rcases regWritten_cases ht with ⟨-, rfl⟩ | ⟨-, rfl⟩ | ⟨-, rfl⟩ | ⟨-, rfl⟩ | ⟨-, hcap, rfl⟩ | ⟨-, -, b, rfl⟩
  · exact fits_congr h rfl
  · exact fits_congr h rfl
  · exact fits_congr h rfl
  · exact { h with deadline := maskTick_lt s.cfg v }
  · exact { h with opb := hcap }
  · exact fits_congr h rfl

/-- The reset input keeps the parameters, lists no byte and puts every length and tick at 0 (70_reset_and_hazards.md
R340). -/
theorem fits_assertRst : Fits (assertRst s) where
  legal := h.legal
  canonical := reset_memory_wf
  inside := by intro x hx; cases hx
  opb := Nat.zero_le _
  txf := Nat.zero_le _
  acc := Nat.zero_le _
  deadline := Nat.two_pow_pos _
  dl := Nat.two_pow_pos _
  t0 := Nat.two_pow_pos _

end Updates

/-! ### The messenger's stretches -/

section Messenger

variable {s : State} (h : Fits s)
include h

theorem fits_sendBody {t : State} (ht : sendBody s = .ok t) : Fits t := by
  rcases sendBody_cases s with ⟨e, he⟩ | ⟨f, hf, he⟩ | ⟨f, hf, -, -, he⟩ <;> rw [he] at ht <;> cases ht
  · obtain ⟨-, hmax, -⟩ := encodeMt_ok hf
    exact fits_setTxf h (length_encodeMt hf ▸ hmax)
  · exact fits_macedFrame h hf

theorem fits_sendStart : Fits (sendStart s) := by
  rcases sendStart_cases s with ⟨he, -⟩ | ⟨-, ⟨e, -, he⟩ | ⟨t, ht, he⟩⟩ <;> rw [he]
  · exact fits_complete h _
  · exact fits_complete (fits_setMState h _) _
  · exact fits_setCall (fits_sendBody (fits_setMState h _) ht) _

theorem fits_receiveTurn : Fits (receiveTurn s) := by
  rcases receiveTurn_cases s with ⟨-, he⟩ | ⟨-, he⟩ <;> rw [he]
  · exact fits_setCall (fits_setMState (fits_accClear (fits_sampled h)) _) _
  · exact fits_setCall (fits_sampled h) _

theorem fits_receiveStart : Fits (receiveStart s) := by
  rcases receiveStart_cases s with ⟨he, -⟩ | ⟨-, he⟩ <;> rw [he]
  · exact fits_complete h _
  · refine fits_receiveTurn ?_
    exact { fits_sampled (fits_setMrValid h false) with dl := h.deadline, t0 := nextNow_lt s }

theorem fits_receiveDecode : Fits (receiveDecode s) := by
  rcases receiveDecode_cases s with ⟨-, he⟩ | ⟨e, -, -, he⟩ | ⟨f, hf, he⟩ <;> rw [he]
  · exact fits_receiveTurn h
  · exact fits_complete (fits_setMState (fits_accClear h) _) _
  · exact fits_complete (fits_setMState (fits_accClear (fits_commit h hf)) _) _

end Messenger

end Sys2Proof.Machine
end

section
/-! SUPPORT. Every instruction and every step keeps `Fits`. -/

namespace Sys2Proof.Machine

open Sys2Proof

/-- The outcome's next state, if it has one, fits. -/
def NextFits (o : Host.Outcome State Fault Refusal) : Prop := ∀ t, o = .next t → Fits t

theorem nextFits_of_eq {o : Host.Outcome State Fault Refusal} {u : State} (ho : o = .next u) (hu : Fits u) :
    NextFits o := by
  rintro t rfl
  cases ho
  exact hu

section Operations

variable {s : State} (h : Fits s)
include h

theorem nextFits_crc16 : NextFits (exec .crc16 s) :=
  nextFits_of_eq (execCrc16_cases s) (fits_congr h rfl)

theorem nextFits_encode : NextFits (exec .encode s) := by
  rcases execEncode_cases s with ⟨e, he, -⟩ | ⟨f, he, hf⟩ <;> refine nextFits_of_eq he (fits_complete ?_ _)
  · exact h
  · obtain ⟨-, hmax, -⟩ := encodeMt_ok hf
    exact fits_setTxf h (length_encodeMt hf ▸ hmax)

theorem nextFits_decode : NextFits (exec .decode s) := by
  rcases execDecode_cases s with ⟨e, he, -⟩ | ⟨f, he, hf⟩ <;> refine nextFits_of_eq he (fits_complete ?_ _)
  · exact fits_setMrValid h false
  · exact fits_commit h hf

theorem nextFits_loadScbk : NextFits (exec .loadScbk s) := by
  rcases execLoadScbk_cases s with ⟨he, -⟩ | ⟨he, -⟩ <;> refine nextFits_of_eq he (fits_complete ?_ _)
  · exact h
  · have hkey : Fits (setBuffer s .scbk (memRead s .opb 0 16)) := fits_setBuffer h (length_memRead ..).le
    exact fits_setKeyFlags (fits_forget (fits_forget (fits_forget (fits_forget hkey _) _) _) _) _ _ _

theorem nextFits_loadIv : NextFits (exec .loadIv s) := by
  rcases execLoadIv_cases s with ⟨he, -⟩ | ⟨he, -⟩ <;> refine nextFits_of_eq he (fits_complete ?_ _)
  · exact h
  · exact fits_setKeyFlags (fits_setBuffer h (length_memRead ..).le) _ _ _

theorem nextFits_deriveKeys : NextFits (exec .deriveKeys s) := by
  have hkey (x y : Byte) :
      (aesE (keyBytes s .scbk) (keyTemplate x y (memRead s .opb 0 8))).length ≤ 16 :=
    (length_aesE (length_keyBytes s .scbk) (by simp [keyTemplate, zeros])).le
  rcases execDeriveKeys_cases s with ⟨he, -⟩ | ⟨he, -⟩ | ⟨he, -⟩ <;>
    refine nextFits_of_eq he (fits_complete ?_ _)
  · exact h
  · exact h
  · refine fits_setKeyFlags (fits_forget ?_ _) _ _ _
    exact fits_setBuffer (fits_setBuffer (fits_setBuffer h (hkey _ _)) (hkey _ _)) (hkey _ _)

theorem nextFits_cryptogram : NextFits (exec .cryptogram s) := by
  rcases execCryptogram_cases s with ⟨he, -⟩ | ⟨he, -⟩ | ⟨he, -⟩ <;>
    refine nextFits_of_eq he (fits_complete ?_ _)
  · exact h
  · exact h
  · have hres := (length_aesE (length_keyBytes s .sEnc) (length_memRead s .opb 0 16)).le
    exact fits_congr (fits_setBuffer h (b := .res) hres) rfl

theorem nextFits_genMac : NextFits (exec .genMac s) := by
  rcases execGenMac_cases s with ⟨e, -, he⟩ | ⟨f, -, hf, he⟩ <;> refine nextFits_of_eq he (fits_complete ?_ _)
  · exact h
  · exact fits_macedFrame h hf

theorem nextFits_verifyMac : NextFits (exec .verifyMac s) := by
  obtain ⟨-, hlast⟩ := length_sessionMac s (memRead s .rxf 0 (s.rxfLen.toNat - 6))
  rcases hr : sessionMac s (memRead s .rxf 0 (s.rxfLen.toNat - 6)) with ⟨mac, last⟩
  rw [hr] at hlast
  rcases execVerifyMac_cases s mac last hr.symm with ⟨e, -, he⟩ | ⟨he, -⟩ <;>
    refine nextFits_of_eq he (fits_complete ?_ _)
  · exact fits_setMacOk h false
  · exact fits_setBuffer (fits_setMacOk h true) hlast.le

theorem nextFits_encrypt (k : KeySel) (m : BankSel) : NextFits (exec (.encrypt k m) s) := by
  rcases execEncrypt_cases k m s with ⟨e, -, he⟩ | ⟨-, -, hpad, c, v, hcv, he⟩ <;>
    refine nextFits_of_eq he (fits_complete ?_ _)
  · exact h
  · obtain ⟨hc, hv⟩ := length_cbcEncrypt (length_keyBytes s (kselBuf k)) (length_keyBytes s .ivc)
      (pad16 (payload s m))
    rw [← hcv] at hc hv
    exact fits_setBuffer (fits_setPayload h m (by simp only at hc; omega)) hv.le

theorem nextFits_decrypt (k : KeySel) (m : BankSel) : NextFits (exec (.decrypt k m) s) := by
  rcases execDecrypt_cases k m s with ⟨e, -, he⟩ | ⟨-, -, -, -, q, v, u, hqv, hu, he⟩ <;>
    refine nextFits_of_eq he (fits_complete ?_ _)
  · exact h
  · have hq := length_cbcDecrypt_le (k := keyBytes s (kselBuf k)) (length_keyBytes s .ivc) (payload s m)
    have hv := length_cbcDecrypt (k := keyBytes s (kselBuf k)) (length_keyBytes s .ivc) (payload s m)
    rw [← hqv] at hq hv
    have hlen : u.length ≤ 65535 := by
      have := (mselLen s m).isLt
      calc u.length ≤ q.length := length_unpad16_le hu
        _ ≤ (mselLen s m).toNat := length_payload s m ▸ hq
        _ ≤ 65535 := by omega
    exact fits_setBuffer (fits_setPayload h m hlen) hv.le

theorem nextFits_send : NextFits (exec .send s) := by
  rcases execSend_cases s with ⟨-, he⟩ | ⟨f, -, ⟨-, he⟩ | ⟨rest, -, he⟩ | ⟨rest, -, he⟩⟩ | ⟨-, he⟩ <;>
    refine nextFits_of_eq he ?_
  · exact fits_sendStart h
  · exact h
  · exact fits_congr h rfl
  · exact fits_congr h rfl
  · exact h

theorem nextFits_receive : NextFits (exec .receive s) := by
  have hrec (rest : List ReceiveAnswer) : Fits (received s rest) := fits_setCall (fits_env h _) _
  rcases execReceive_cases s with ⟨-, he⟩ |
      ⟨-, ⟨-, he⟩ | ⟨rest, -, he⟩ | ⟨r, rest, -, ⟨-, he⟩ | ⟨hcap, he⟩⟩⟩ |
      ⟨-, ⟨-, he⟩ | ⟨rest, -, he⟩ | ⟨rest, -, he⟩⟩ | ⟨f, -, he⟩ <;>
    refine nextFits_of_eq he ?_
  · exact fits_receiveStart h
  · exact h
  · exact fits_complete (fits_setMState (fits_accClear (hrec rest)) _) _
  · exact fits_complete (fits_setMState (fits_accClear (hrec rest)) _) _
  · exact fits_receiveDecode (fits_accAppend (hrec rest) hcap)
  · exact h
  · exact fits_congr h rfl
  · exact fits_congr h rfl
  · exact h

theorem nextFits_mclear : NextFits (exec .mclear s) :=
  nextFits_of_eq (execMclear_cases s)
    (fits_complete (fits_setMState (fits_setMrValid (fits_accClear h) false) _) _)

theorem nextFits_regrd (sel : BitVec 8) : NextFits (exec (.regrd sel) s) := by
  rcases execRegrd_cases sel s with ⟨he, -⟩ | ⟨v, -, he, -⟩ <;> refine nextFits_of_eq he ?_
  · exact fits_refuse h
  · exact fits_rdata h v

theorem nextFits_regwr (sel : BitVec 8) (wdata : BitVec 64) : NextFits (exec (.regwr sel wdata) s) := by
  rcases execRegwr_cases sel wdata s with ⟨he, -⟩ | ⟨-, t, ht, he⟩ <;> refine nextFits_of_eq he ?_
  · exact fits_refuse h
  · exact fits_rdata (fits_regWritten h ht) 0

theorem nextFits_bufrd (sel : BitVec 8) (off : BitVec 32) : NextFits (exec (.bufrd sel off) s) := by
  rcases execBufrd_cases sel off s with ⟨he, -⟩ | ⟨he, -⟩ <;> refine nextFits_of_eq he ?_
  · exact fits_refuse h
  · exact fits_rdata h _

theorem nextFits_bufwr (sel : BitVec 8) (off : BitVec 32) (wdata : BitVec 64) :
    NextFits (exec (.bufwr sel off wdata) s) := by
  rcases execBufwr_cases sel off wdata s with ⟨he, -⟩ | ⟨he, -, hsel, -⟩ <;> refine nextFits_of_eq he ?_
  · exact fits_refuse h
  · obtain ⟨-, hoff⟩ := selRefused_eq_false.mp hsel
    exact fits_rdata (fits_memWrite h hoff) 0

theorem exec_keeps_fits (i : Instr) : NextFits (exec i s) := by
  cases i with
  | crc16 => exact nextFits_crc16 h
  | encode => exact nextFits_encode h
  | decode => exact nextFits_decode h
  | loadScbk => exact nextFits_loadScbk h
  | loadIv => exact nextFits_loadIv h
  | deriveKeys => exact nextFits_deriveKeys h
  | cryptogram => exact nextFits_cryptogram h
  | genMac => exact nextFits_genMac h
  | verifyMac => exact nextFits_verifyMac h
  | encrypt k m => exact nextFits_encrypt h k m
  | decrypt k m => exact nextFits_decrypt h k m
  | send => exact nextFits_send h
  | receive => exact nextFits_receive h
  | mclear => exact nextFits_mclear h
  | regrd sel => exact nextFits_regrd h sel
  | regwr sel wdata => exact nextFits_regwr h sel wdata
  | bufrd sel off => exact nextFits_bufrd h sel off
  | bufwr sel off wdata => exact nextFits_bufwr h sel off wdata

theorem step_keeps_fits : NextFits (step s) := by
  have hm : Fits (moved s) := fits_moved h
  rcases step_cases s with ⟨-, he⟩ | ⟨-, -, he⟩ | ⟨-, -, ⟨e, -, he⟩ | ⟨i, -, he⟩⟩ |
    ⟨-, ⟨-, he⟩ | ⟨w, rest, -, he⟩⟩
  · exact nextFits_of_eq he (fits_assertRst hm)
  · exact nextFits_of_eq he hm
  · exact nextFits_of_eq he (fits_complete hm _)
  · rw [he]; exact exec_keeps_fits hm i
  · exact nextFits_of_eq he hm
  · rw [he]; exact exec_keeps_fits (fits_env hm _) _

end Operations

/-- Settles O54: an instruction, the reset input and an idle move each keep `Fits`, and a step is one of them. -/
theorem fitsKept : Obligations.FitsKept := fun _ _ h hstep => step_keeps_fits h _ hstep

end Sys2Proof.Machine
end

section
/-! SUPPORT. The places of the state, what it is for a place to be kept, and which places each named update writes. -/

namespace Sys2Proof.Machine

open Sys2Proof

/-- What an instruction can write as a unit: the cells of one buffer, or a group of registers that the operations
write together. -/
inductive Place where
  /-- the cells of a buffer, without its length register -/
  | bytes (b : Buf)
  /-- the parameters, the draw index and the registers that only the host writes -/
  | host
  /-- ERR, ERR_OP, ERRF, DONE and BUSY (60_exceptions.md R310) -/
  | completion
  /-- the inputs still to come, T0 and DL -/
  | cycle
  /-- MSTATE and the call in flight -/
  | messenger
  | accLen
  /-- TXF_LEN and TXF_V -/
  | txf
  /-- bank MR but MR_PLEN, RXF_LEN and CONSUMED -/
  | bank
  | mrPlen
  | mtPlen
  | mrValid
  | macOk
  | scbkV
  | skV
  | ivcV
  | resLen
  | crcOut

/-- Every cell of a buffer holds in `t` what it holds in `s`. -/
def SameCells (b : Buf) (s t : State) : Prop :=
  ∀ off, off < bufSpan → memGet t.mem (cell b off) = memGet s.mem (cell b off)

/-- A place is in `t` as it is in `s`. -/
def Kept (s t : State) : Place → Prop
  | .bytes b => SameCells b s t
  | .host => t.cfg = s.cfg ∧ t.freeCount = s.freeCount ∧ t.held = s.held ∧ t.rdata = s.rdata ∧ t.ctrl = s.ctrl ∧
      t.deadline = s.deadline ∧ t.opbLen = s.opbLen ∧ t.curCmd = s.curCmd ∧ t.status.herr = s.status.herr ∧
      { t.mt with plen := 0 } = { s.mt with plen := 0 }
  | .completion => t.err = s.err ∧ t.errOp = s.errOp ∧ t.status.errf = s.status.errf ∧
      t.status.done = s.status.done ∧ t.status.busy = s.status.busy
  | .cycle => t.env = s.env ∧ t.t0 = s.t0 ∧ t.dl = s.dl
  | .messenger => t.status.mstate = s.status.mstate ∧ t.call = s.call
  | .accLen => t.accLen = s.accLen
  | .txf => t.txfLen = s.txfLen ∧ t.status.txfV = s.status.txfV
  | .bank => { t.mr with plen := 0 } = { s.mr with plen := 0 } ∧ t.rxfLen = s.rxfLen ∧ t.consumed = s.consumed
  | .mrPlen => t.mr.plen = s.mr.plen
  | .mtPlen => t.mt.plen = s.mt.plen
  | .mrValid => t.status.mrValid = s.status.mrValid
  | .macOk => t.status.macOk = s.status.macOk
  | .scbkV => t.status.scbkV = s.status.scbkV
  | .skV => t.status.skV = s.status.skV
  | .ivcV => t.status.ivcV = s.status.ivcV
  | .resLen => t.resLen = s.resLen
  | .crcOut => t.crcOut = s.crcOut

/-- Going from `s` to `t` wrote no place outside `ps`. -/
def Within (ps : List Place) (s t : State) : Prop := ∀ p, p ∉ ps → Kept s t p

/-! ### Kept places -/

theorem kept_refl (s : State) (p : Place) : Kept s s p := by
  cases p <;> simp [Kept, SameCells]

theorem kept_trans {s t u : State} {p : Place} (h : Kept s t p) (h' : Kept t u p) : Kept s u p := by
  cases p with
  | bytes b => exact fun off ho => (h' off ho).trans (h off ho)
  | _ => simp_all [Kept]

theorem within_refl (ps : List Place) (s : State) : Within ps s s := fun p _ => kept_refl s p

theorem within_trans {ps : List Place} {s t u : State} (h : Within ps s t) (h' : Within ps t u) : Within ps s u :=
  fun p hp => kept_trans (h p hp) (h' p hp)

theorem within_mono {ps qs : List Place} {s t : State} (h : Within ps s t) (hs : ∀ p ∈ ps, p ∈ qs) : Within qs s t :=
  fun p hp => h p fun hm => hp (hs p hm)

/-- Cells kept, with the draw index kept, are bytes that read the same. -/
theorem sameBytes_of_within {ps : List Place} {s t : State} {b : Buf} (h : Within ps s t) (hb : Place.bytes b ∉ ps)
    (hh : Place.host ∉ ps) : SameBytes b s t := by
  intro off ho
  obtain ⟨-, hf, -⟩ := h _ hh
  simp only [readByte, hf, h _ hb off ho]

/-! ### Memory updates -/

theorem sameCells_setBuffer_other {b b' : Buf} (hb : b' ≠ b) (s : State) (v : Bytes) :
    SameCells b' s (setBuffer s b v) := by
  intro off ho
  have hout := cell_outside hb ho
  rw [setBuffer_mem, memGet_splice _ (Nat.le_add_right _ _), if_neg (by omega)]

theorem sameCells_memWrite_other {b b' : Buf} (hb : b' ≠ b) (s : State) {off : Nat} {v : Bytes}
    (hv : off + v.length ≤ bufSpan) : SameCells b' s (memWrite s b off v) := by
  intro off' ho
  have hout := cell_outside hb ho
  have hadd := cell_add b 0 off
  rw [Nat.zero_add] at hadd
  rw [memWrite_mem, memGet_splice _ (Nat.le_add_right _ _), if_neg (by omega)]

/-- A write never reaches down: the buffers of smaller BUF ids keep their cells however long it is. -/
theorem sameCells_memWrite_below {b b' : Buf} (hb : b'.id < b.id) (s : State) (off : Nat) (v : Bytes) :
    SameCells b' s (memWrite s b off v) := by
  intro off' ho
  have hlow : cell b' off' < cell b off := by unfold cell bufSpan at *; omega
  rw [memWrite_mem, memGet_splice _ (Nat.le_add_right _ _), if_neg (by omega)]

/-! ### What each named update writes -/

/-- One more update whose places are among those already counted. -/
theorem Within.andThen {ps qs : List Place} {s t u : State} (h : Within ps s t) (h' : Within qs t u)
    (hs : ∀ p ∈ qs, p ∈ ps := by simp) : Within ps s u :=
  within_trans h (within_mono h' hs)

theorem within_complete (o : Code) (s : State) : Within [.completion] s (complete o s) := by
  intro p hp
  cases p <;> simp_all [Kept, SameCells]

theorem within_setMState (s : State) (m : MState) : Within [.messenger] s (setMState s m) := by
  intro p hp
  cases p <;> simp_all [Kept, SameCells]

theorem within_setCall (s : State) (c : TxCall) : Within [.messenger] s (setCall s c) := by
  intro p hp
  cases p <;> simp_all [Kept, SameCells]

theorem within_env (s : State) (e : Env) : Within [.cycle] s { s with env := e } := by
  intro p hp
  cases p <;> simp_all [Kept, SameCells]

theorem within_sampled (s : State) : Within [.cycle] s (sampled s) := by
  intro p hp
  cases p <;> simp_all [Kept, SameCells]

theorem within_deadline (s : State) (t0 dl : Tick) : Within [.cycle] s { s with t0 := t0, dl := dl } := by
  intro p hp
  cases p <;> simp_all [Kept, SameCells]

theorem within_setMacOk (s : State) (b : Bool) : Within [.macOk] s (setMacOk s b) := by
  intro p hp
  cases p <;> simp_all [Kept, SameCells]

theorem within_setMrValid (s : State) (b : Bool) : Within [.mrValid, .macOk] s (setMrValid s b) := by
  intro p hp
  cases p <;> simp_all [Kept, SameCells]

theorem within_crcOut (s : State) (v : BitVec 16) : Within [.crcOut] s { s with crcOut := v } := by
  intro p hp
  cases p <;> simp_all [Kept, SameCells]

theorem within_resLen (s : State) (v : BitVec 8) : Within [.resLen] s { s with resLen := v } := by
  intro p hp
  cases p <;> simp_all [Kept, SameCells]

/-- A key flag set to what it was is not written. -/
theorem within_setKeyFlags {ps : List Place} {s : State} {a b c : Bool} (ha : .scbkV ∈ ps ∨ a = s.status.scbkV)
    (hb : .skV ∈ ps ∨ b = s.status.skV) (hc : .ivcV ∈ ps ∨ c = s.status.ivcV) :
    Within ps s (setKeyFlags s a b c) := by
  intro p hp
  cases p <;> simp_all [Kept, SameCells]

theorem within_setBuffer (s : State) (b : Buf) (v : Bytes) : Within [.bytes b] s (setBuffer s b v) := by
  intro p hp
  cases p with
  | bytes b' => exact sameCells_setBuffer_other (by simpa using hp) s v
  | _ => simp [Kept]

theorem within_memWrite (s : State) (b : Buf) {off : Nat} {v : Bytes} (hv : off + v.length ≤ bufSpan) :
    Within [.bytes b] s (memWrite s b off v) := by
  intro p hp
  cases p with
  | bytes b' => exact sameCells_memWrite_other (by simpa using hp) s hv
  | _ => simp [Kept]

theorem within_setTxf (s : State) (f : Bytes) : Within [.bytes .txf, .txf] s (setTxf s f) := by
  intro p hp
  cases p with
  | bytes b => exact sameCells_setBuffer_other (by simpa using hp) s f
  | _ => simp_all [Kept]

/-- The places of the payload of a bank. -/
def payloadPlaces : BankSel → List Place
  | .mt => [.bytes .mtPayload, .mtPlen]
  | .mr => [.bytes .mrPayload, .mrPlen]

@[simp] theorem mem_payloadPlaces {m : BankSel} {p : Place} : p ∈ payloadPlaces m ↔
    m = .mt ∧ p ∈ [Place.bytes .mtPayload, .mtPlen] ∨ m = .mr ∧ p ∈ [Place.bytes .mrPayload, .mrPlen] := by
  cases m <;> simp [payloadPlaces]

theorem within_setPayload (s : State) (m : BankSel) (v : Bytes) : Within (payloadPlaces m) s (setPayload s m v) := by
  intro p hp
  cases m <;> cases p with
  | bytes b => exact sameCells_setBuffer_other (by simpa using hp) s v
  | _ => simp_all [Kept, setPayload]

theorem within_accClear (s : State) : Within [.bytes .acc, .accLen] s (accClear s) := by
  intro p hp
  cases p with
  | bytes b => exact sameCells_setBuffer_other (by simpa using hp) s []
  | _ => simp_all [Kept]

/-- The buffers an append to ACC reaches if ACC_CAP is more than a buffer's span, which no legal one is. -/
def spill (c : Config) : List Place :=
  if c.accCap ≤ bufSpan then []
  else [.bytes .res, .bytes .scbk, .bytes .sEnc, .bytes .sMac1, .bytes .sMac2, .bytes .ivc]

theorem spill_of_legal {c : Config} (h : c.Legal) : spill c = [] := if_pos (cap_lt_span h .acc).le

@[simp] theorem mem_spill {c : Config} {p : Place} : p ∈ spill c ↔ bufSpan < c.accCap ∧
    p ∈ [Place.bytes .res, .bytes .scbk, .bytes .sEnc, .bytes .sMac1, .bytes .sMac2, .bytes .ivc] := by
  unfold spill
  split <;> simp <;> omega

theorem within_accAppend {s : State} {r : Bytes} (hr : s.accLen.toNat + r.length ≤ s.cfg.accCap) :
    Within (.bytes .acc :: .accLen :: spill s.cfg) s (accAppend s r) := by
  intro p hp
  cases p with
  | bytes b =>
    have hb : b ≠ .acc := by rintro rfl; simp at hp
    by_cases hspan : s.cfg.accCap ≤ bufSpan
    · exact sameCells_memWrite_other hb s (hr.trans hspan)
    · refine sameCells_memWrite_below (b := .acc) ?_ s _ r
      revert hp hb
      cases b <;> simp [spill, hspan, Buf.id]
  | _ => simp_all [Kept]

/-- What `commit` writes, but for the two flags (41_codec.md R168). -/
@[simp] def bankPlaces : List Place :=
  [.bank, .mrPlen, .bytes .mrSbdata, .bytes .mrPayload, .bytes .mrMac, .bytes .rxf]

theorem within_commitBuffers {f : Frame} (hmac : f.mac.length ≤ 4) (s : State) :
    Within bankPlaces s (commitBuffers f s) :=
  ((((within_refl _ s).andThen (within_setBuffer _ .mrSbdata _)).andThen (within_setBuffer _ .mrPayload _)).andThen
    (within_memWrite _ .mrMac (by unfold bufSpan; omega))).andThen (within_setBuffer _ .rxf _)

theorem within_commit {f : Frame} (hmac : f.mac.length ≤ 4) (s : State) :
    Within (.mrValid :: .macOk :: bankPlaces) s (commit f s) := by
  refine ((within_refl _ s).andThen (within_commitBuffers hmac s)).andThen
    (qs := .mrValid :: .macOk :: bankPlaces) ?_
  intro p hp
  cases p <;> simp_all [Kept, SameCells]

/-- GEN_MAC's writes (43_secure_channel.md R210). -/
theorem within_macedFrame (s : State) (f : Bytes) :
    Within [.bytes .txf, .txf, .bytes .mtMac, .bytes .ivc] s (macedFrame s f) := by
  obtain ⟨hmac, -⟩ := length_sessionMac s (beforeMac f)
  exact (((within_refl _ s).andThen (within_setTxf _ _)).andThen
    (within_memWrite _ .mtMac (by rw [hmac]; decide))).andThen (within_setBuffer _ .ivc _)

end Sys2Proof.Machine
end

section
/-! SUPPORT. The footprint of every instruction: the places it can write (10_state.md R30, R36, R41, R48, R49). -/

namespace Sys2Proof.Machine

open Sys2Proof

/-- What the host can write (10_state.md R41, R48). -/
@[simp] def hostPlaces : List Place :=
  [.host, .completion, .mtPlen, .bytes .opb, .bytes .mtPayload, .bytes .mtSbdata]

/-- The places of the transmit frame and of the MAC of a bank MT frame (43_secure_channel.md R210). -/
@[simp] def macedPlaces : List Place := [.bytes .txf, .txf, .bytes .mtMac, .bytes .ivc]

/-- The places the loop of RECEIVE writes, but for `spill`. -/
@[simp] def receivePlaces : List Place :=
  [.completion, .messenger, .cycle, .bytes .acc, .accLen, .mrValid, .macOk] ++ bankPlaces

/-- The places an instruction can write. -/
@[simp] def footprint (c : Config) : Instr → List Place
  | .crc16 => [.completion, .crcOut]
  | .encode => [.completion, .bytes .txf, .txf]
  | .decode => .completion :: .mrValid :: .macOk :: bankPlaces
  | .loadScbk => [.completion, .bytes .scbk, .bytes .sEnc, .bytes .sMac1, .bytes .sMac2, .bytes .ivc,
      .scbkV, .skV, .ivcV]
  | .loadIv => [.completion, .bytes .ivc, .ivcV]
  | .deriveKeys => [.completion, .bytes .sEnc, .bytes .sMac1, .bytes .sMac2, .bytes .ivc, .skV, .ivcV]
  | .cryptogram => [.completion, .bytes .res, .resLen]
  | .genMac => .completion :: macedPlaces
  | .verifyMac => [.completion, .macOk, .bytes .ivc]
  | .encrypt _ m => .completion :: .bytes .ivc :: payloadPlaces m
  | .decrypt _ m => .completion :: .bytes .ivc :: payloadPlaces m
  | .send => .completion :: .messenger :: .cycle :: macedPlaces
  | .receive => receivePlaces ++ spill c
  | .mclear => [.completion, .messenger, .bytes .acc, .accLen, .mrValid, .macOk]
  | .regrd _ => hostPlaces
  | .regwr _ _ => hostPlaces
  | .bufrd _ _ => hostPlaces
  | .bufwr _ _ _ => hostPlaces

/-- The outcome's next state, if it has one, differs from `s` in the places `ps` only. -/
def NextWithin (ps : List Place) (s : State) (o : Host.Outcome State Fault Refusal) : Prop :=
  ∀ t, o = .next t → Within ps s t

theorem nextWithin_of_eq {ps : List Place} {s u : State} {o : Host.Outcome State Fault Refusal} (ho : o = .next u)
    (hu : Within ps s u) : NextWithin ps s o := by
  rintro t rfl
  cases ho
  exact hu

/-! ### Host transactions -/

theorem isOperation_decodeTransaction (w : BitVec 106) : isOperation (decodeTransaction w) = false := by
  unfold decodeTransaction
  split <;> rfl

theorem isOperation_of_decodeCommand {w : BitVec 16} {i : Instr} (h : decodeCommand w = .ok i) :
    isOperation i = true := by
  rcases decodeCommand_cases h with hmem | ⟨-, rfl⟩ | ⟨-, rfl⟩
  · revert hmem
    cases i <;> simp [isOperation]
  · rfl
  · rfl

/-- Everything a host transaction can do (45_host_access.md R270 to R277): be refused, read, accept a command,
acknowledge, store into a register of the host's own, or write one byte of a buffer of the host's own. -/
theorem exec_transaction_cases {i : Instr} {s t : State} (hi : isOperation i = false) (h : exec i s = .next t) :
    t = refuse s ∨ (∃ v, t = { s with rdata := v }) ∨
    (s.status.busy = false ∧
      ((∃ w, t = { accept s w with rdata := 0 }) ∨ (∃ w, t = { acknowledge s w with rdata := 0 }) ∨
       (∃ c d l b, t = { s with ctrl := c, deadline := d, opbLen := l, mt := b, rdata := 0 }) ∨
       (∃ b off x, b.hostWritable = true ∧ off < bufSpan ∧ t = { memWrite s b off [x] with rdata := 0 }))) := by
  have next_inj {u : State} (he : exec i s = .next u) : t = u := by rw [h] at he; cases he; rfl
  cases i with
  | regrd sel =>
    rcases execRegrd_cases sel s with ⟨he, -⟩ | ⟨v, -, he, -⟩
    · exact .inl (next_inj he)
    · exact .inr (.inl ⟨v, next_inj he⟩)
  | regwr sel v =>
    rcases execRegwr_cases sel v s with ⟨he, -⟩ | ⟨hb, u, hu, he⟩
    · exact .inl (next_inj he)
    · refine .inr (.inr ⟨hb, ?_⟩)
      have ht := next_inj he
      rcases regWritten_cases hu with ⟨-, rfl⟩ | ⟨-, rfl⟩ | ⟨-, rfl⟩ | ⟨-, rfl⟩ | ⟨-, -, rfl⟩ | ⟨-, -, b, rfl⟩
      · exact .inl ⟨_, ht⟩
      · exact .inr (.inl ⟨_, ht⟩)
      all_goals exact .inr (.inr (.inl ⟨_, _, _, _, ht⟩))
  | bufrd sel off =>
    rcases execBufrd_cases sel off s with ⟨he, -⟩ | ⟨he, -⟩
    · exact .inl (next_inj he)
    · exact .inr (.inl ⟨_, next_inj he⟩)
  | bufwr sel off w =>
    rcases execBufwr_cases sel off w s with ⟨he, -⟩ | ⟨he, hb, -, hw⟩
    · exact .inl (next_inj he)
    · exact .inr (.inr ⟨hb, .inr (.inr (.inr ⟨_, _, _, hw, off.isLt, next_inj he⟩))⟩)
  | _ => cases hi

theorem hostWritable_iff (b : Buf) : b.hostWritable = true ↔ b ∈ [Buf.opb, .mtPayload, .mtSbdata] := by
  cases b <;> decide

theorem within_transaction {i : Instr} {s : State} (hi : isOperation i = false) :
    NextWithin hostPlaces s (exec i s) := by
  intro t h
  rcases exec_transaction_cases hi h with rfl | ⟨v, rfl⟩ |
    ⟨-, ⟨w, rfl⟩ | ⟨w, rfl⟩ | ⟨c, d, l, b, rfl⟩ | ⟨b, off, x, hb, ho, rfl⟩⟩
  case inr.inr.inr.inr.inr =>
    have hbytes : ∀ p ∈ [Place.bytes b], p ∈ hostPlaces := by
      rw [hostWritable_iff] at hb
      simpa using hb
    refine ((within_refl _ s).andThen (within_memWrite s b (v := [x]) ho) hbytes).andThen (qs := [.host]) ?_
    intro p hp
    cases p <;> simp_all [Kept, SameCells]
  all_goals
    intro p hp
    cases p <;> simp_all [Kept, SameCells]

/-! ### Operations -/

theorem within_crc16 (c : Config) (s : State) : NextWithin (footprint c .crc16) s (exec .crc16 s) :=
  nextWithin_of_eq (execCrc16_cases s)
    (((within_refl _ s).andThen (within_crcOut s _)).andThen (within_complete .ok _))

theorem within_encode (c : Config) (s : State) : NextWithin (footprint c .encode) s (exec .encode s) := by
  rcases execEncode_cases s with ⟨e, he, -⟩ | ⟨f, he, -⟩ <;> refine nextWithin_of_eq he ?_
  · exact (within_refl _ s).andThen (within_complete e s)
  · exact ((within_refl _ s).andThen (within_setTxf s f)).andThen (within_complete .ok _)

theorem within_decode (c : Config) (s : State) : NextWithin (footprint c .decode) s (exec .decode s) := by
  rcases execDecode_cases s with ⟨e, he, -⟩ | ⟨f, he, hf⟩ <;> refine nextWithin_of_eq he ?_
  · exact ((within_refl _ s).andThen (within_setMrValid s false)).andThen (within_complete e _)
  · obtain ⟨-, -, hmac, -⟩ := decodeFrame_lengths hf
    exact ((within_refl _ s).andThen (within_commit hmac s)).andThen (within_complete .ok _)

theorem within_loadScbk (c : Config) (s : State) : NextWithin (footprint c .loadScbk) s (exec .loadScbk s) := by
  rcases execLoadScbk_cases s with ⟨he, -⟩ | ⟨he, -⟩ <;> refine nextWithin_of_eq he ?_
  · exact (within_refl _ s).andThen (within_complete _ s)
  · have hbytes := (((((within_refl (footprint c .loadScbk) s).andThen
      (within_setBuffer _ .scbk (memRead s .opb 0 16))).andThen (within_setBuffer _ .sEnc [])).andThen
      (within_setBuffer _ .sMac1 [])).andThen (within_setBuffer _ .sMac2 [])).andThen (within_setBuffer _ .ivc [])
    exact (within_trans hbytes (within_setKeyFlags (by simp) (by simp) (by simp))).andThen (within_complete .ok _)

theorem within_loadIv (c : Config) (s : State) : NextWithin (footprint c .loadIv) s (exec .loadIv s) := by
  rcases execLoadIv_cases s with ⟨he, -⟩ | ⟨he, -⟩ <;> refine nextWithin_of_eq he ?_
  · exact (within_refl _ s).andThen (within_complete _ s)
  · have hbytes := (within_refl (footprint c .loadIv) s).andThen (within_setBuffer s .ivc (memRead s .opb 0 16))
    exact (within_trans hbytes (within_setKeyFlags (by simp) (by simp) (by simp))).andThen (within_complete .ok _)

theorem within_deriveKeys (c : Config) (s : State) :
    NextWithin (footprint c .deriveKeys) s (exec .deriveKeys s) := by
  rcases execDeriveKeys_cases s with ⟨he, -⟩ | ⟨he, -⟩ | ⟨he, -⟩ <;> refine nextWithin_of_eq he ?_
  · exact (within_refl _ s).andThen (within_complete _ s)
  · exact (within_refl _ s).andThen (within_complete _ s)
  · have hbytes (x y z : Bytes) := ((((within_refl (footprint c .deriveKeys) s).andThen
      (within_setBuffer _ .sEnc x)).andThen (within_setBuffer _ .sMac1 y)).andThen
      (within_setBuffer _ .sMac2 z)).andThen (within_setBuffer _ .ivc [])
    exact (within_trans (hbytes _ _ _) (within_setKeyFlags (.inr rfl) (by simp) (by simp))).andThen
      (within_complete .ok _)

theorem within_cryptogram (c : Config) (s : State) :
    NextWithin (footprint c .cryptogram) s (exec .cryptogram s) := by
  rcases execCryptogram_cases s with ⟨he, -⟩ | ⟨he, -⟩ | ⟨he, -⟩ <;> refine nextWithin_of_eq he ?_
  · exact (within_refl _ s).andThen (within_complete _ s)
  · exact (within_refl _ s).andThen (within_complete _ s)
  · exact (((within_refl _ s).andThen (within_setBuffer s .res _)).andThen (within_resLen _ 16#8)).andThen
      (within_complete .ok _)

theorem within_genMac (c : Config) (s : State) : NextWithin (footprint c .genMac) s (exec .genMac s) := by
  rcases execGenMac_cases s with ⟨e, -, he⟩ | ⟨f, -, -, he⟩ <;> refine nextWithin_of_eq he ?_
  · exact (within_refl _ s).andThen (within_complete e s)
  · exact ((within_refl _ s).andThen (within_macedFrame s f)).andThen (within_complete .ok _)

theorem within_verifyMac (c : Config) (s : State) : NextWithin (footprint c .verifyMac) s (exec .verifyMac s) := by
  rcases execVerifyMac_cases s _ _ rfl with ⟨e, -, he⟩ | ⟨he, -⟩ <;> refine nextWithin_of_eq he ?_
  · exact ((within_refl _ s).andThen (within_setMacOk s false)).andThen (within_complete e _)
  · exact (((within_refl _ s).andThen (within_setMacOk s true)).andThen (within_setBuffer _ .ivc _)).andThen
      (within_complete .ok _)

/-- ENCRYPT and DECRYPT write alike. -/
theorem within_cipher (k : KeySel) (m : BankSel) (c : Config) (s : State) (p v : Bytes) :
    Within (footprint c (.encrypt k m)) s (complete .ok (setBuffer (setPayload s m p) .ivc v)) :=
  (((within_refl _ s).andThen (within_setPayload s m p) (by simp +contextual)).andThen
    (within_setBuffer _ .ivc v)).andThen (within_complete .ok _)

theorem within_encrypt (k : KeySel) (m : BankSel) (c : Config) (s : State) :
    NextWithin (footprint c (.encrypt k m)) s (exec (.encrypt k m) s) := by
  rcases execEncrypt_cases k m s with ⟨e, -, he⟩ | ⟨-, -, -, p, v, -, he⟩ <;> refine nextWithin_of_eq he ?_
  · exact (within_refl _ s).andThen (within_complete e s)
  · exact within_cipher k m c s p v

theorem within_decrypt (k : KeySel) (m : BankSel) (c : Config) (s : State) :
    NextWithin (footprint c (.decrypt k m)) s (exec (.decrypt k m) s) := by
  rcases execDecrypt_cases k m s with ⟨e, -, he⟩ | ⟨-, -, -, -, -, v, u, -, -, he⟩ <;> refine nextWithin_of_eq he ?_
  · exact (within_refl _ s).andThen (within_complete e s)
  · exact within_cipher k m c s u v

/-! ### The messenger -/

theorem within_sendBody {s t : State} (h : sendBody s = .ok t) : Within macedPlaces s t := by
  rcases sendBody_cases s with ⟨e, he⟩ | ⟨f, -, he⟩ | ⟨f, -, -, -, he⟩ <;> rw [h] at he <;> cases he
  · exact within_mono (within_setTxf s f) (by simp)
  · exact within_macedFrame s f

/-- SEND up to its call of `Tx.transmit`, once the frame is assembled (44_messenger.md R245). -/
theorem within_sendCall {s t : State} (h : sendBody (setMState s .sending) = .ok t) :
    Within (.messenger :: macedPlaces) s (setCall t (.transmit (txfFrame t))) :=
  (((within_refl _ s).andThen (within_setMState s .sending)).andThen (within_sendBody h)).andThen (within_setCall t _)

theorem within_sendStart (c : Config) (s : State) : Within (footprint c .send) s (sendStart s) := by
  rcases sendStart_cases s with ⟨he, -⟩ | ⟨-, ⟨e, -, he⟩ | ⟨t, ht, he⟩⟩ <;> rw [he]
  · exact (within_refl _ s).andThen (within_complete _ s)
  · exact ((within_refl _ s).andThen (within_setMState s .failed)).andThen (within_complete e _)
  · exact within_mono (within_sendCall ht) (by simp +contextual)

/-- What the answer to a call does before the outcome it leads to. -/
theorem within_answer {ps : List Place} (s : State) (e : Env) (hc : .cycle ∈ ps) (hm : .messenger ∈ ps) :
    Within ps s (setCall { s with env := e } .none) :=
  ((within_refl _ s).andThen (within_env s e) (by simpa using hc)).andThen (within_setCall _ .none) (by simpa using hm)

theorem within_send (c : Config) (s : State) : NextWithin (footprint c .send) s (exec .send s) := by
  rcases execSend_cases s with ⟨-, he⟩ | ⟨f, -, ⟨-, he⟩ | ⟨rest, -, he⟩ | ⟨rest, -, he⟩⟩ | ⟨-, he⟩ <;>
    refine nextWithin_of_eq he ?_
  · exact within_sendStart c s
  · exact within_refl _ s
  · exact ((within_answer s _ (by simp) (by simp)).andThen (within_setMState _ _)).andThen (within_complete _ _)
  · exact ((within_answer s _ (by simp) (by simp)).andThen (within_setMState _ _)).andThen (within_complete _ _)
  · exact within_refl _ s

theorem within_receiveTurn (s : State) :
    Within [.cycle, .messenger, .bytes .acc, .accLen] s (receiveTurn s) := by
  rcases receiveTurn_cases s with ⟨-, he⟩ | ⟨-, he⟩ <;> rw [he]
  · exact ((((within_refl _ s).andThen (within_sampled s)).andThen (within_accClear _)).andThen
      (within_setMState _ _)).andThen (within_setCall _ _)
  · exact ((within_refl _ s).andThen (within_sampled s)).andThen (within_setCall _ _)

/-- `s` as RECEIVE enters its loop: the flags of the bank cleared, T0 and DL taken (44_messenger.md R250). -/
abbrev entered (s : State) : State := { sampled (setMrValid s false) with t0 := nextNow s, dl := s.deadline }

theorem within_entered (s : State) : Within [.mrValid, .macOk, .cycle] s (entered s) :=
  (((within_refl _ s).andThen (within_setMrValid s false)).andThen (within_sampled _)).andThen
    (within_deadline _ (nextNow s) s.deadline)

theorem within_receiveStart (s : State) : Within receivePlaces s (receiveStart s) := by
  rcases receiveStart_cases s with ⟨he, -⟩ | ⟨-, he⟩ <;> rw [he]
  · exact (within_refl _ s).andThen (within_complete _ s)
  · exact ((within_refl _ s).andThen (within_entered s)).andThen (within_receiveTurn _)

theorem within_receiveDecode (s : State) : Within receivePlaces s (receiveDecode s) := by
  rcases receiveDecode_cases s with ⟨-, he⟩ | ⟨e, -, -, he⟩ | ⟨f, hf, he⟩ <;> rw [he]
  · exact (within_refl _ s).andThen (within_receiveTurn s)
  · exact (((within_refl _ s).andThen (within_accClear s)).andThen (within_setMState _ _)).andThen
      (within_complete e _)
  · obtain ⟨-, -, hmac, -⟩ := decodeFrame_lengths hf
    exact ((((within_refl _ s).andThen (within_commit hmac s)).andThen (within_accClear _)).andThen
      (within_setMState _ _)).andThen (within_complete .ok _)

theorem within_receive (s : State) : NextWithin (footprint s.cfg .receive) s (exec .receive s) := by
  have hloop {t u : State} (h : Within receivePlaces t u) : Within (footprint s.cfg .receive) t u :=
    within_mono h fun _ => List.mem_append_left _
  have hrec (rest : List ReceiveAnswer) : Within receivePlaces s (received s rest) :=
    within_answer s _ (by simp) (by simp)
  rcases execReceive_cases s with ⟨-, he⟩ |
      ⟨-, ⟨-, he⟩ | ⟨rest, -, he⟩ | ⟨r, rest, -, ⟨-, he⟩ | ⟨hcap, he⟩⟩⟩ |
      ⟨-, ⟨-, he⟩ | ⟨rest, -, he⟩ | ⟨rest, -, he⟩⟩ | ⟨f, -, he⟩ <;>
    refine nextWithin_of_eq he ?_
  · exact hloop (within_receiveStart s)
  · exact within_refl _ s
  · exact hloop ((((hrec rest).andThen (within_accClear _)).andThen (within_setMState _ _)).andThen
      (within_complete _ _))
  · exact hloop ((((hrec rest).andThen (within_accClear _)).andThen (within_setMState _ _)).andThen
      (within_complete _ _))
  · exact within_trans ((hloop (hrec rest)).andThen (within_accAppend hcap) (by simp +contextual))
      (hloop (within_receiveDecode _))
  · exact within_refl _ s
  · exact hloop ((within_answer s _ (by simp) (by simp)).andThen (within_complete _ _))
  · exact hloop ((within_answer s _ (by simp) (by simp)).andThen (within_complete _ _))
  · exact within_refl _ s

theorem within_mclear (c : Config) (s : State) : NextWithin (footprint c .mclear) s (exec .mclear s) :=
  nextWithin_of_eq (execMclear_cases s)
    (((((within_refl _ s).andThen (within_accClear s)).andThen (within_setMrValid _ false)).andThen
      (within_setMState _ _)).andThen (within_complete .ok _))

/-- No instruction writes outside its footprint. -/
theorem exec_within_footprint (i : Instr) (s : State) : NextWithin (footprint s.cfg i) s (exec i s) := by
  cases i with
  | crc16 => exact within_crc16 _ s
  | encode => exact within_encode _ s
  | decode => exact within_decode _ s
  | loadScbk => exact within_loadScbk _ s
  | loadIv => exact within_loadIv _ s
  | deriveKeys => exact within_deriveKeys _ s
  | cryptogram => exact within_cryptogram _ s
  | genMac => exact within_genMac _ s
  | verifyMac => exact within_verifyMac _ s
  | encrypt k m => exact within_encrypt k m _ s
  | decrypt k m => exact within_decrypt k m _ s
  | send => exact within_send _ s
  | receive => exact within_receive s
  | mclear => exact within_mclear _ s
  | regrd sel => exact within_transaction rfl
  | regwr sel wdata => exact within_transaction rfl
  | bufrd sel off => exact within_transaction rfl
  | bufwr sel off wdata => exact within_transaction rfl

end Sys2Proof.Machine
end

section
/-! SUPPORT. The footprints read the other way: which instructions leave a place alone (10_state.md R25 to R53). Each
lemma looks its places up in the rows of `footprint`, one instruction after the other. -/

namespace Sys2Proof.Machine

open Sys2Proof

section Writers

variable {c : Config} {i : Instr}

theorem host_not_written (hi : isOperation i = true) :
    ∀ p ∈ [Place.host, .bytes .opb, .bytes .mtSbdata], p ∉ footprint c i := by
  cases i <;> simp_all [isOperation]

theorem mtPayload_not_written (hi : isOperation i = true) (hk : ∀ k, i ≠ .encrypt k .mt ∧ i ≠ .decrypt k .mt) :
    ∀ p ∈ [Place.mtPlen, .bytes .mtPayload], p ∉ footprint c i := by
  cases i <;> simp_all [isOperation]

theorem mtMac_not_written (hg : i ≠ .genMac) (hs : i ≠ .send) : Place.bytes .mtMac ∉ footprint c i := by
  cases i <;> simp_all

theorem crcOut_not_written (h : i ≠ .crc16) : Place.crcOut ∉ footprint c i := by
  cases i <;> simp_all

theorem txf_not_written (he : i ≠ .encode) (hg : i ≠ .genMac) (hs : i ≠ .send) :
    ∀ p ∈ [Place.txf, .bytes .txf], p ∉ footprint c i := by
  cases i <;> simp_all

theorem bank_not_written (hd : i ≠ .decode) (hr : i ≠ .receive) :
    ∀ p ∈ [Place.bank, .bytes .rxf, .bytes .mrSbdata, .bytes .mrMac], p ∉ footprint c i := by
  cases i <;> simp_all

theorem mrPayload_not_written (hd : i ≠ .decode) (hr : i ≠ .receive)
    (hk : ∀ k, i ≠ .encrypt k .mr ∧ i ≠ .decrypt k .mr) :
    ∀ p ∈ [Place.mrPlen, .bytes .mrPayload], p ∉ footprint c i := by
  cases i <;> simp_all

theorem acc_not_written (hr : i ≠ .receive) (hm : i ≠ .mclear) :
    ∀ p ∈ [Place.accLen, .bytes .acc], p ∉ footprint c i := by
  cases i <;> simp_all

theorem mrValid_not_written (h : i ∉ [Instr.decode, .receive, .mclear]) : Place.mrValid ∉ footprint c i := by
  cases i <;> simp_all

theorem macOk_not_written (h : i ∉ [Instr.decode, .receive, .mclear, .verifyMac]) :
    Place.macOk ∉ footprint c i := by
  cases i <;> simp_all

theorem messenger_not_written (hs : i ≠ .send) (hr : i ≠ .receive) (hm : i ≠ .mclear) :
    Place.messenger ∉ footprint c i := by
  cases i <;> simp_all

theorem ivcV_not_written (hl : i ≠ .loadScbk) (hd : i ≠ .deriveKeys) (hi : i ≠ .loadIv) :
    Place.ivcV ∉ footprint c i := by
  cases i <;> simp_all

/-! An append to ACC stays in ACC when the parameters are legal. -/

variable (hc : c.Legal)
include hc

theorem scbk_not_written (h : i ≠ .loadScbk) : ∀ p ∈ [Place.scbkV, .bytes .scbk], p ∉ footprint c i := by
  have hacc := cap_lt_span hc .acc
  cases i <;> simp_all [Buf.cap, le_of_lt]

theorem sessionKeys_not_written (hl : i ≠ .loadScbk) (hd : i ≠ .deriveKeys) :
    ∀ p ∈ [Place.skV, .bytes .sEnc, .bytes .sMac1, .bytes .sMac2], p ∉ footprint c i := by
  have hacc := cap_lt_span hc .acc
  cases i <;> simp_all [Buf.cap, le_of_lt]

theorem ivc_not_written (h : i ∈ [Instr.crc16, .encode, .decode, .cryptogram, .receive, .mclear]) :
    Place.bytes .ivc ∉ footprint c i := by
  have hacc := cap_lt_span hc .acc
  cases i <;> simp_all [Buf.cap, le_of_lt]

theorem res_not_written (h : i ≠ .cryptogram) : ∀ p ∈ [Place.resLen, .bytes .res], p ∉ footprint c i := by
  have hacc := cap_lt_span hc .acc
  cases i <;> simp_all [Buf.cap, le_of_lt]

end Writers

end Sys2Proof.Machine
end

section
/-! SUPPORT. What operations leave alone, and what they write (10_state.md R25 to R53): the frames read off the
footprints. -/

namespace Sys2Proof.Machine

open Sys2Proof

/-- The registers of a bank but its payload length. -/
theorem mtBank_eq_of_plen_zero {a b : MTBank} (h : { a with plen := 0 } = { b with plen := 0 }) :
    { a with plen := b.plen } = b :=
  congrArg (fun x : MTBank => { x with plen := b.plen }) h

theorem mrBank_eq_of_plen_zero {a b : MRBank} (h : { a with plen := 0 } = { b with plen := 0 }) :
    { a with plen := b.plen } = b :=
  congrArg (fun x : MRBank => { x with plen := b.plen }) h

/-- Settles O17: what the statement lists is outside the footprint of every operation it is claimed of. -/
theorem operationsKeepHostState : Obligations.OperationsKeepHostState := by
  intro i s t hi h
  have hw := exec_within_footprint i s t h
  have hhost := host_not_written (c := s.cfg) hi
  have bytes {b : Buf} (hb : Place.bytes b ∉ footprint s.cfg i) : SameBytes b s t :=
    sameBytes_of_within hw hb (hhost .host (by simp))
  obtain ⟨hcfg, hfree, hheld, hrdata, hctrl, hdeadline, hopbLen, hcurCmd, hherr, hmt⟩ := hw .host (hhost _ (by simp))
  refine ⟨hcfg, hfree, hheld, hrdata, hctrl, hdeadline, hopbLen, hcurCmd, hherr, mtBank_eq_of_plen_zero hmt,
    bytes (hhost _ (by simp)), bytes (hhost _ (by simp)), fun hk => ?_, fun hg hs => ?_⟩
  · have hpay := mtPayload_not_written (c := s.cfg) hi hk
    exact ⟨hw .mtPlen (hpay _ (by simp)), bytes (hpay _ (by simp))⟩
  · exact bytes (mtMac_not_written hg hs)

/-- LOAD_SCBK, the only operation that writes SCBK_V, sets it (10_state.md R38). -/
theorem exec_keeps_scbkV {i : Instr} {s t : State} (hc : s.cfg.Legal) (h : exec i s = .next t)
    (hv : s.status.scbkV = true) : t.status.scbkV = true := by
  by_cases hi : i = .loadScbk
  · subst hi
    rcases execLoadScbk_cases s with ⟨he, -⟩ | ⟨he, -⟩ <;> rw [h] at he <;> cases he
    · exact hv
    · rfl
  · have hk : t.status.scbkV = s.status.scbkV :=
      exec_within_footprint i s t h .scbkV (scbk_not_written hc hi _ (by simp))
    exact hk.trans hv

theorem macedFrame_txfV (s : State) (f : Bytes) : (macedFrame s f).status.txfV = true := rfl

/-- Whichever body assembles a frame sets TXF_V (10_state.md R43). -/
theorem sendBody_txfV {s t : State} (h : sendBody s = .ok t) : t.status.txfV = true := by
  rcases sendBody_cases s with ⟨e, he⟩ | ⟨f, -, he⟩ | ⟨f, -, -, -, he⟩ <;> rw [h] at he <;> cases he
  · exact setTxf_status_txfV s f
  · exact macedFrame_txfV s f

/-- The three operations that write TXF_V set it (10_state.md R43). -/
theorem exec_keeps_txfV {i : Instr} {s t : State} (h : exec i s = .next t) (hv : s.status.txfV = true) :
    t.status.txfV = true := by
  by_cases hi : i ∈ [Instr.encode, .genMac, .send]
  · simp only [List.mem_cons, List.not_mem_nil, or_false] at hi
    rcases hi with rfl | rfl | rfl
    · rcases execEncode_cases s with ⟨e, he, -⟩ | ⟨f, he, -⟩ <;> rw [h] at he <;> cases he
      · exact hv
      · exact setTxf_status_txfV s f
    · rcases execGenMac_cases s with ⟨e, -, he⟩ | ⟨f, -, -, he⟩ <;> rw [h] at he <;> cases he
      · exact hv
      · exact macedFrame_txfV s f
    · rcases execSend_cases s with ⟨-, he⟩ | ⟨f, -, ⟨-, he⟩ | ⟨rest, -, he⟩ | ⟨rest, -, he⟩⟩ | ⟨-, he⟩ <;>
        rw [h] at he <;> cases he
      · rcases sendStart_cases s with ⟨he, -⟩ | ⟨-, ⟨e, -, he⟩ | ⟨u, hu, he⟩⟩ <;> rw [he]
        · exact hv
        · exact hv
        · exact setCall_status u _ ▸ sendBody_txfV hu
      all_goals exact hv
  · simp only [List.mem_cons, List.not_mem_nil, or_false, not_or] at hi
    obtain ⟨he, hg, hs⟩ := hi
    obtain ⟨-, hk⟩ := exec_within_footprint i s t h .txf (txf_not_written he hg hs _ (by simp))
    exact hk.trans hv

/-- Settles O18: each clause reads its places off the footprints of the operations it does not exclude; the two flags
that stay are set by every operation that writes them. -/
theorem operationsWriteOnlyTheirResults : Obligations.OperationsWriteOnlyTheirResults := by
  intro i s t hc hi h
  have hw := exec_within_footprint i s t h
  have bytes {b : Buf} (hb : Place.bytes b ∉ footprint s.cfg i) : SameBytes b s t :=
    sameBytes_of_within hw hb (host_not_written hi .host (by simp))
  refine ⟨fun hl => ?_, fun hl hd => ?_, fun hl hd hv => ?_, fun hmem => ?_, fun hn => ?_, fun hn => ?_,
    fun he hg hs => ?_, fun hd hr => ?_, fun hr hm => ?_, fun hd hr hk => ?_, fun hmem => ?_, fun hmem => ?_,
    exec_keeps_scbkV hc h, exec_keeps_txfV h⟩
  · have hp := scbk_not_written hc hl
    exact ⟨bytes (hp _ (by simp)), hw .scbkV (hp _ (by simp))⟩
  · have hp := sessionKeys_not_written hc hl hd
    exact ⟨bytes (hp _ (by simp)), bytes (hp _ (by simp)), bytes (hp _ (by simp)), hw .skV (hp _ (by simp))⟩
  · exact hw .ivcV (ivcV_not_written hl hd hv)
  · exact bytes (ivc_not_written hc hmem)
  · have hp := res_not_written hc hn
    exact ⟨hw .resLen (hp _ (by simp)), bytes (hp _ (by simp))⟩
  · exact hw .crcOut (crcOut_not_written hn)
  · have hp := txf_not_written (c := s.cfg) he hg hs
    obtain ⟨hlen, hflag⟩ := hw .txf (hp _ (by simp))
    exact ⟨hlen, hflag, bytes (hp _ (by simp))⟩
  · have hp := bank_not_written (c := s.cfg) hd hr
    obtain ⟨hmr, hrxf, hconsumed⟩ := hw .bank (hp _ (by simp))
    exact ⟨mrBank_eq_of_plen_zero hmr, hrxf, hconsumed, bytes (hp _ (by simp)), bytes (hp _ (by simp)),
      bytes (hp _ (by simp))⟩
  · have hp := acc_not_written (c := s.cfg) hr hm
    exact ⟨hw .accLen (hp _ (by simp)), bytes (hp _ (by simp))⟩
  · have hp := mrPayload_not_written (c := s.cfg) hd hr hk
    exact ⟨hw .mrPlen (hp _ (by simp)), bytes (hp _ (by simp))⟩
  · exact hw .mrValid (mrValid_not_written hmem)
  · exact hw .macOk (macOk_not_written hmem)

end Sys2Proof.Machine
end

section
/-! SUPPORT. How an invariant is kept: by instructions, by the reset input and by what no invariant sees. -/

namespace Sys2Proof.Machine

open Sys2Proof

/-- An invariant is kept by every step when it does not see the inputs and the draw index, and is kept by the reset
input, the completion of an illegal word, the operation of CUR_CMD and every host transaction (00_scope.md R9). -/
theorem step_keeps {P : State → Prop} (hview : ∀ s e n, P s → P { s with env := e, freeCount := n })
    (hrst : ∀ s, P s → P (assertRst s))
    (hillegal : ∀ s e, P s → s.status.busy = true → decodeCommand s.curCmd = .error e →
      P (complete .illegalOperation s))
    (hop : ∀ i s t, P s → s.status.busy = true → decodeCommand s.curCmd = .ok i → exec i s = .next t → P t)
    (hhost : ∀ i s t, P s → isOperation i = false → exec i s = .next t → P t)
    {s t : State} (h : P s) (hstep : step s = .next t) : P t := by
  have hm : P (moved s) := hview s _ _ h
  rcases step_cases s with ⟨-, he⟩ | ⟨-, -, he⟩ | ⟨-, hb, ⟨e, hd, he⟩ | ⟨i, hd, he⟩⟩ |
    ⟨-, ⟨-, he⟩ | ⟨w, rest, -, he⟩⟩ <;> rw [hstep] at he
  · cases he; exact hrst _ hm
  · cases he; exact hm
  · cases he; exact hillegal _ e hm hb hd
  · exact hop i _ t hm hb hd he.symm
  · cases he; exact hm
  · exact hhost _ _ t (hview s _ _ h) (isOperation_decodeTransaction w) he.symm

end Sys2Proof.Machine
end

section
/-! SUPPORT. Every step keeps ERRF, ERR, BUSY and DONE consistent (60_exceptions.md R300, R310). -/

namespace Sys2Proof.Machine

open Sys2Proof

/-- `t` is a completion with a code that some operation produces. -/
def Ends (t : State) : Prop := ∃ o u, o ≠ Code.addressOutOfRange ∧ t = complete o u

theorem ends_complete {o : Code} (ho : o ≠ .addressOutOfRange) (u : State) : Ends (complete o u) := ⟨o, u, ho, rfl⟩

/-- AddressOutOfRange is not among the errors of `encode_mt` (41_codec.md R152), of `decode`, or of frame assembly. -/
theorem encodeMt_error_produced {s : State} {e : Code} (h : encodeMt s = .error e) : e ≠ .addressOutOfRange := by
  rintro rfl
  have := encodeMt_error h
  simp at this

theorem decodeFrame_error_produced {b : Bytes} {e : Code} (h : decodeFrame b = .error e) : e ≠ .addressOutOfRange := by
  rintro rfl
  have := decodeFrame_error h
  simp at this

theorem sendBody_error_produced {s : State} {e : Code} (h : sendBody s = .error e) : e ≠ .addressOutOfRange := by
  rintro rfl
  have := sendBody_error h
  simp at this

theorem genMacBody_error_produced {s : State} {e : Code} (h : genMacBody s = .error e) : e ≠ .addressOutOfRange := by
  rcases genMacBody_cases s with ⟨he, -⟩ | ⟨he, -⟩ | ⟨he, -⟩ | ⟨-, -, -, ⟨e', he, hmt⟩ | ⟨f, he, -⟩⟩ <;>
    rw [h] at he <;> cases he
  · simp
  · simp
  · simp
  · exact encodeMt_error_produced hmt

/-- Every operation but SEND and RECEIVE ends in its one step (70_reset_and_hazards.md R365). -/
theorem exec_ends {i : Instr} {s t : State} (hi : isOperation i = true) (hs : i ≠ .send) (hr : i ≠ .receive)
    (h : exec i s = .next t) : Ends t := by
  cases i with
  | crc16 => rw [execCrc16_cases] at h; cases h; exact ends_complete (by simp) _
  | encode =>
    rcases execEncode_cases s with ⟨e, he, herr⟩ | ⟨f, he, -⟩ <;> rw [h] at he <;> cases he
    · exact ends_complete (encodeMt_error_produced herr) _
    · exact ends_complete (by simp) _
  | decode =>
    rcases execDecode_cases s with ⟨e, he, herr⟩ | ⟨f, he, -⟩ <;> rw [h] at he <;> cases he
    · exact ends_complete (decodeFrame_error_produced herr) _
    · exact ends_complete (by simp) _
  | loadScbk =>
    rcases execLoadScbk_cases s with ⟨he, -⟩ | ⟨he, -⟩ <;> rw [h] at he <;> cases he <;>
      exact ends_complete (by simp) _
  | loadIv =>
    rcases execLoadIv_cases s with ⟨he, -⟩ | ⟨he, -⟩ <;> rw [h] at he <;> cases he <;>
      exact ends_complete (by simp) _
  | deriveKeys =>
    rcases execDeriveKeys_cases s with ⟨he, -⟩ | ⟨he, -⟩ | ⟨he, -⟩ <;> rw [h] at he <;> cases he <;>
      exact ends_complete (by simp) _
  | cryptogram =>
    rcases execCryptogram_cases s with ⟨he, -⟩ | ⟨he, -⟩ | ⟨he, -⟩ <;> rw [h] at he <;> cases he <;>
      exact ends_complete (by simp) _
  | genMac =>
    rcases execGenMac_cases s with ⟨e, herr, he⟩ | ⟨f, -, -, he⟩ <;> rw [h] at he <;> cases he
    · exact ends_complete (genMacBody_error_produced herr) _
    · exact ends_complete (by simp) _
  | verifyMac =>
    rcases execVerifyMac_cases s _ _ rfl with ⟨e, hmem, he⟩ | ⟨he, -⟩ <;> rw [h] at he <;> cases he
    · exact ends_complete (by rintro rfl; simp at hmem) _
    · exact ends_complete (by simp) _
  | encrypt k m =>
    rcases execEncrypt_cases k m s with ⟨e, hmem, he⟩ | ⟨-, -, -, p, v, -, he⟩ <;> rw [h] at he <;> cases he
    · exact ends_complete (by rintro rfl; simp at hmem) _
    · exact ends_complete (by simp) _
  | decrypt k m =>
    rcases execDecrypt_cases k m s with ⟨e, hmem, he⟩ | ⟨-, -, -, -, q, v, u, -, -, he⟩ <;> rw [h] at he <;> cases he
    · exact ends_complete (by rintro rfl; simp at hmem) _
    · exact ends_complete (by simp) _
  | mclear => rw [execMclear_cases] at h; cases h; exact ends_complete (by simp) _
  | send => exact absurd rfl hs
  | receive => exact absurd rfl hr
  | regrd _ => cases hi
  | regwr _ _ => cases hi
  | bufrd _ _ => cases hi
  | bufwr _ _ _ => cases hi

/-! SEND and RECEIVE may wait instead, with the completion registers as they were (70_reset_and_hazards.md R356). -/

theorem send_ends_or_waits {s t : State} (h : exec .send s = .next t) : Ends t ∨ Kept s t .completion := by
  rcases execSend_cases s with ⟨-, he⟩ | ⟨f, -, ⟨-, he⟩ | ⟨rest, -, he⟩ | ⟨rest, -, he⟩⟩ | ⟨-, he⟩ <;>
    rw [h] at he <;> cases he
  · rcases sendStart_cases s with ⟨he, -⟩ | ⟨-, ⟨e, herr, he⟩ | ⟨u, hu, he⟩⟩ <;> rw [he]
    · exact .inl (ends_complete (by simp) _)
    · exact .inl (ends_complete (sendBody_error_produced herr) _)
    · exact .inr (within_sendCall hu .completion (by simp))
  · exact .inr (kept_refl _ _)
  · exact .inl (ends_complete (by simp) _)
  · exact .inl (ends_complete (by simp) _)
  · exact .inr (kept_refl _ _)

theorem receiveTurn_keeps_completion (s : State) : Kept s (receiveTurn s) .completion :=
  within_receiveTurn s .completion (by simp)

theorem receive_ends_or_waits {s t : State} (h : exec .receive s = .next t) : Ends t ∨ Kept s t .completion := by
  rcases execReceive_cases s with ⟨-, he⟩ |
      ⟨-, ⟨-, he⟩ | ⟨rest, -, he⟩ | ⟨r, rest, -, ⟨-, he⟩ | ⟨-, he⟩⟩⟩ |
      ⟨-, ⟨-, he⟩ | ⟨rest, -, he⟩ | ⟨rest, -, he⟩⟩ | ⟨f, -, he⟩ <;> rw [h] at he <;> cases he
  · rcases receiveStart_cases s with ⟨he, -⟩ | ⟨-, he⟩ <;> rw [he]
    · exact .inl (ends_complete (by simp) _)
    · exact .inr (receiveTurn_keeps_completion _)
  · exact .inr (kept_refl _ _)
  · exact .inl (ends_complete (by simp) _)
  · exact .inl (ends_complete (by simp) _)
  · rcases receiveDecode_cases (accAppend (received s rest) r) with ⟨-, he⟩ | ⟨e, -, herr, he⟩ | ⟨f, -, he⟩ <;> rw [he]
    · exact .inr (receiveTurn_keeps_completion _)
    · exact .inl (ends_complete (decodeFrame_error_produced herr) _)
    · exact .inl (ends_complete (by simp) _)
  · exact .inr (kept_refl _ _)
  · exact .inl (ends_complete (by simp) _)
  · exact .inl (ends_complete (by simp) _)
  · exact .inr (kept_refl _ _)

theorem exec_ends_or_waits {i : Instr} {s t : State} (hi : isOperation i = true) (h : exec i s = .next t) :
    Ends t ∨ Kept s t .completion := by
  by_cases hs : i = .send
  · exact send_ends_or_waits (hs ▸ h)
  · by_cases hr : i = .receive
    · exact receive_ends_or_waits (hr ▸ h)
    · exact .inl (exec_ends hi hs hr h)

/-! ### The invariant -/

theorem recordSound_complete {o : Code} (ho : o ≠ .addressOutOfRange) (s : State) : RecordSound (complete o s) where
  errf := by
    rw [complete_status_errf, complete_err, code_number_bne_zero]
    simp
  produced := ⟨o, ho, rfl⟩
  apart := fun h => Bool.false_ne_true h.1

theorem recordSound_reset : RecordSound State.reset where
  errf := rfl
  produced := ⟨.ok, by simp, rfl⟩
  apart := by decide

theorem recordSound_operation {i : Instr} {s t : State} (hs : RecordSound s) (hi : isOperation i = true)
    (h : exec i s = .next t) : RecordSound t := by
  rcases exec_ends_or_waits hi h with ⟨o, u, ho, rfl⟩ | ⟨herr, -, herrf, hdone, hbusy⟩
  · exact recordSound_complete ho u
  · constructor
    · rw [herrf, herr]; exact hs.errf
    · rw [herr]; exact hs.produced
    · rw [hbusy, hdone]; exact hs.apart

theorem recordSound_transaction {i : Instr} {s t : State} (hs : RecordSound s) (hi : isOperation i = false)
    (h : exec i s = .next t) : RecordSound t := by
  rcases exec_transaction_cases hi h with rfl | ⟨v, rfl⟩ |
    ⟨hb, ⟨w, rfl⟩ | ⟨w, rfl⟩ | ⟨c, d, l, b, rfl⟩ | ⟨b, off, x, -, -, rfl⟩⟩
  · exact { hs with }
  · exact { hs with }
  · exact { hs with apart := fun h => Bool.false_ne_true h.2 }
  · exact { hs with apart := fun h => Bool.false_ne_true (hb.symm.trans h.1) }
  · exact { hs with }
  · exact { hs with }

/-- Settles O55: an operation that ends writes the whole record anew, one that waits leaves it, and of the host's
transactions an acceptance raises BUSY and clears DONE together. -/
theorem recordKept : Obligations.RecordKept := by
  intro s t h hstep
  refine step_keeps (P := RecordSound) ?_ ?_ ?_ ?_ ?_ h hstep
  · exact fun s e n h => { h with }
  · exact fun s _ => { recordSound_reset with }
  · exact fun s e _ _ _ => recordSound_complete (by simp) s
  · exact fun i s t h _ hd he => recordSound_operation h (isOperation_of_decodeCommand hd) he
  · exact fun i s t h hi he => recordSound_transaction h hi he

end Sys2Proof.Machine
end

section
/-! SUPPORT. Every step keeps the registers of bank MR consistent (10_state.md R30, R31, R44; 41_codec.md R168). -/

namespace Sys2Proof.Machine

open Sys2Proof

/-- Bank MR, RXF_LEN and the two flags kept, whatever MR_PLEN is. -/
theorem bankSound_of_within {ps : List Place} {s t : State} (hs : BankSound s) (hw : Within ps s t)
    (hb : Place.bank ∉ ps) (hv : t.status.mrValid = true → s.status.mrValid = true)
    (hm : t.status.macOk = true → t.status.mrValid = true) : BankSound t := by
  obtain ⟨hmr, hrxf, -⟩ := hw .bank hb
  have hmr : t.mr = { s.mr with plen := t.mr.plen } := (mrBank_eq_of_plen_zero hmr.symm).symm
  constructor
  · rw [hmr]; exact hs.addr
  · rw [hmr]; exact hs.seq
  · rw [hmr]; exact hs.crcf
  · rw [hmr]; exact hs.secure
  · rw [hmr]; exact hs.plain
  · rw [hmr]; exact hs.sblen
  · rw [hmr]; exact hs.mac
  · rw [hmr]; exact hs.macLen
  · rw [hmr]; exact fun h => hs.valid (hv h)
  · rw [hmr]; exact hrxf.trans hs.rxf
  · exact hm

/-- What a decoded frame says of itself (41_codec.md R161), in the terms of the bank that `commit` fills. -/
structure FrameSound (f : Frame) : Prop where
  addr : f.addr.getLsbD 7 = false
  sqn : f.sqn = f.ctrl.extractLsb' 0 2
  crcf : f.crcf = f.ctrl.extractLsb' 2 1
  scb : f.scb = f.ctrl.extractLsb' 3 1
  plain : f.scb = 0#1 → f.sbtype = 0#8 ∧ f.sbdata = []
  sbdata : f.sbdata.length ≤ 253
  macv : f.macv = true ↔ f.scb = 1#1 ∧ 0x14 < f.sbtype.toNat
  macLen : f.macv = true → 14 + f.sbdata.length ≤ f.len
  minLen : 8 ≤ f.len
  maxLen : f.len < 65536
  raw : f.raw.length = f.len

/-- CTRL bit 3 as the one-bit field of the bank. -/
theorem frameSecured_iff (f : Bytes) : frameSecured f = true ↔ (byteAt f 4).extractLsb' 3 1 = 1#1 := by
  unfold frameSecured
  generalize byteAt f 4 = b
  revert b
  decide

theorem frameFields_sound {g : Bytes} (h : frameCheck g = none) (p : Nat) : FrameSound (frameFields p g) := by
  obtain ⟨h8, -, hlen, hneed, hsbl, -⟩ := frameCheck_none h
  have hmin := frameNeed_ge g
  have hbyte := (byteAt g 5).isLt
  have hdata := length_slice_le g 7 ((byteAt g 5).toNat - 2)
  have hsec := frameSecured_iff g
  constructor
  · show (byteAt g 1 &&& addrMask).getLsbD 7 = false
    rw [BitVec.getLsbD_and]
    exact Bool.and_false _
  · rfl
  · rfl
  · rfl
  · intro hscb
    have hplain : ¬ frameSecured g = true := fun hs => by
      have hone := hsec.mp hs
      simp only [frameFields] at hscb
      rw [hscb] at hone
      exact absurd hone (by decide)
    exact ⟨if_neg hplain, if_neg hplain⟩
  · simp only [frameFields]
    split
    · omega
    · simp
  · show frameMacBearing g = true ↔ (byteAt g 4).extractLsb' 3 1 = 1#1 ∧
      0x14 < (if frameSecured g then byteAt g 6 else 0#8).toNat
    rw [← hsec, frameMacBearing, Bool.and_eq_true_iff, decide_eq_true_iff]
    refine and_congr_right fun hs => ?_
    rw [if_pos hs]
    rfl
  · intro hmac
    have hmac : frameMacBearing g = true := hmac
    have hs : frameSecured g = true := by
      unfold frameMacBearing at hmac
      exact (Bool.and_eq_true_iff.mp hmac).1
    have hge := hsbl hs
    simp only [frameNeed, frameCodeAt, hs, hmac, macField, macLen, crcLen, if_true] at hneed
    simp only [frameFields, hs, if_true]
    omega
  · show 8 ≤ frameLen g
    omega
  · exact frameLen_lt g
  · exact length_slice (by omega)

theorem decodeFrame_sound {b : Bytes} {f : Frame} (h : decodeFrame b = .ok f) : FrameSound f := by
  obtain ⟨noise, rest, -, -, hc, rfl⟩ := decodeFrame_ok h
  exact frameFields_sound hc _

theorem ofBool_eq_one_iff (b : Bool) : BitVec.ofBool b = 1#1 ↔ b = true := by cases b <;> decide

/-- A commit fills the bank anew. -/
theorem bankSound_commit {f : Frame} (hf : FrameSound f) (s : State) : BankSound (commit f s) := by
  have hlen : (BitVec.ofNat 16 f.len).toNat = f.len := by
    have := hf.maxLen
    rw [BitVec.toNat_ofNat]; omega
  have hsb : (BitVec.ofNat 8 f.sbdata.length).toNat = f.sbdata.length := by
    have := hf.sbdata
    rw [BitVec.toNat_ofNat]; omega
  constructor <;> simp only [commit_mr, commitBank, commit_rxfLen, commit_status_mrValid, hlen, hsb, ofBool_eq_one_iff]
  · exact hf.addr
  · exact hf.sqn
  · exact hf.crcf
  · exact hf.scb
  · intro hscb
    obtain ⟨hty, hdata⟩ := hf.plain hscb
    exact ⟨hty, by rw [hdata]; rfl⟩
  · exact hf.sbdata
  · exact hf.macv
  · exact hf.macLen
  · exact fun _ => hf.minLen
  · exact fun _ => trivial

theorem bankSound_reset : BankSound State.reset where
  addr := rfl
  seq := rfl
  crcf := rfl
  secure := rfl
  plain := fun _ => ⟨rfl, rfl⟩
  sblen := Nat.zero_le _
  mac := by decide
  macLen := fun h => absurd h (by decide)
  valid := fun h => absurd h (by decide)
  rxf := rfl
  macOk := fun h => absurd h (by decide)

/-- An update that leaves the bank and the two flags alone. -/
theorem bankSound_keep {ps : List Place} {s t : State} (hs : BankSound s) (hw : Within ps s t)
    (hb : ∀ p ∈ [Place.bank, .mrValid, .macOk], p ∉ ps) : BankSound t := by
  have hv : t.status.mrValid = s.status.mrValid := hw .mrValid (hb _ (by simp))
  have hm : t.status.macOk = s.status.macOk := hw .macOk (hb _ (by simp))
  exact bankSound_of_within hs hw (hb _ (by simp)) (hv ▸ id) (by rw [hv, hm]; exact hs.macOk)

/-- An update of the bank's flags that leaves MR_VALID and MAC_OK clear. -/
theorem bankSound_invalidated {ps : List Place} {s t : State} (hs : BankSound s) (hw : Within ps s t)
    (hb : Place.bank ∉ ps) (hv : t.status.mrValid = false) (hm : t.status.macOk = false) : BankSound t :=
  bankSound_of_within hs hw hb (by simp [hv]) (by simp [hm])

theorem bankSound_decode {s t : State} (hs : BankSound s) (h : exec .decode s = .next t) : BankSound t := by
  rcases execDecode_cases s with ⟨e, he, -⟩ | ⟨f, he, hf⟩ <;> rw [h] at he <;> cases he
  · exact bankSound_invalidated hs ((within_refl [.completion, .mrValid, .macOk] s).andThen
      (within_setMrValid s false) |>.andThen (within_complete e _)) (by simp) rfl rfl
  · exact { bankSound_commit (decodeFrame_sound hf) s with }

/-- MAC_OK is set only where MR_VALID is 1 (43_secure_channel.md R215). -/
theorem bankSound_verifyMac {s t : State} (hs : BankSound s) (h : exec .verifyMac s = .next t) : BankSound t := by
  have hw := exec_within_footprint .verifyMac s t h
  have hv : t.status.mrValid = s.status.mrValid := hw .mrValid (by simp)
  refine bankSound_of_within hs hw (by simp) (hv ▸ id) ?_
  rw [hv]
  rcases execVerifyMac_cases s _ _ rfl with ⟨e, -, he⟩ | ⟨he, hvalid, -⟩ <;> rw [h] at he <;> cases he
  · simp
  · exact fun _ => hvalid

/-- The end of RECEIVE: the loop leaves the bank as its start left it, or commits a frame over it. -/
theorem bankSound_receiveDecode {s : State} (hs : BankSound s) : BankSound (receiveDecode s) := by
  rcases receiveDecode_cases s with ⟨-, he⟩ | ⟨e, -, -, he⟩ | ⟨f, hf, he⟩ <;> rw [he]
  · exact bankSound_keep hs (within_receiveTurn s) (by simp)
  · exact { hs with }
  · exact { bankSound_commit (decodeFrame_sound hf) s with }

theorem bankSound_receive {s t : State} (hs : BankSound s) (h : exec .receive s = .next t) : BankSound t := by
  rcases execReceive_cases s with ⟨-, he⟩ |
      ⟨-, ⟨-, he⟩ | ⟨rest, -, he⟩ | ⟨r, rest, -, ⟨-, he⟩ | ⟨-, he⟩⟩⟩ |
      ⟨-, ⟨-, he⟩ | ⟨rest, -, he⟩ | ⟨rest, -, he⟩⟩ | ⟨f, -, he⟩ <;> rw [h] at he <;> cases he
  · rcases receiveStart_cases s with ⟨he, -⟩ | ⟨-, he⟩ <;> rw [he]
    · exact { hs with }
    · refine bankSound_keep ?_ (within_receiveTurn _) (by simp)
      exact bankSound_invalidated hs (within_entered s) (by simp) rfl rfl
  · exact hs
  · exact { hs with }
  · exact { hs with }
  · refine bankSound_receiveDecode ?_
    exact { hs with }
  · exact hs
  · exact { hs with }
  · exact { hs with }
  · exact hs

theorem bankSound_exec {i : Instr} {s t : State} (hs : BankSound s) (h : exec i s = .next t) : BankSound t := by
  have keep (hp : ∀ p ∈ [Place.bank, .mrValid, .macOk], p ∉ footprint s.cfg i) : BankSound t :=
    bankSound_keep hs (exec_within_footprint i s t h) hp
  cases i with
  | decode => exact bankSound_decode hs h
  | verifyMac => exact bankSound_verifyMac hs h
  | receive => exact bankSound_receive hs h
  | mclear =>
    have hw := exec_within_footprint .mclear s t h
    rw [execMclear_cases] at h
    cases h
    exact bankSound_invalidated hs hw (by simp) rfl rfl
  | _ => exact keep (by simp)

/-- Settles O57: a commit fills the bank with the fields of a frame that passed every check of `decode`; every other
instruction leaves the bank, and MR_VALID falls before MAC_OK could outlive it. -/
theorem bankKept : Obligations.BankKept := by
  intro s t h hstep
  refine step_keeps (P := BankSound) ?_ ?_ ?_ ?_ ?_ h hstep
  · exact fun s e n h => { h with }
  · exact fun s _ => { bankSound_reset with }
  · exact fun s e h _ _ => { h with }
  · exact fun i s t h _ _ he => bankSound_exec h he
  · exact fun i s t h _ he => bankSound_exec h he

end Sys2Proof.Machine
end

section
/-! SUPPORT. Every step keeps the call in flight, MSTATE, CUR_CMD and the accumulator consistent (10_state.md R45, R50,
R61; 20_memory.md R84). -/

namespace Sys2Proof.Machine

open Sys2Proof

/-- Where no operation runs, all that remains of `MessengerSound`. -/
theorem messengerSound_of_idle {s : State} (hb : s.status.busy = false) (hc : s.call = .none)
    (hm : s.status.mstate ≠ .sending) (ha : s.accLen = 0#32) : MessengerSound s where
  idle := fun _ => hc
  quiet := fun _ => ⟨hm, ha⟩
  transmit := fun f h => by rw [hc] at h; cases h
  receive := fun h => by rw [hc] at h; cases h
  reset := fun h => by rw [hc] at h; cases h
  unmoved := fun h => by rw [hb] at h; cases h
  sent := fun f h => by rw [hc] at h; cases h
  waiting := fun h => by rw [hc] at h; rcases h with h | h <;> cases h

theorem messengerSound_complete {o : Code} {s : State} (hc : s.call = .none) (hm : s.status.mstate ≠ .sending)
    (ha : s.accLen = 0#32) : MessengerSound (complete o s) :=
  messengerSound_of_idle rfl hc hm ha

theorem messengerSound_reset : MessengerSound State.reset :=
  messengerSound_of_idle rfl rfl (by decide) rfl

/-! ### The word of the call in flight -/

section Calls

variable {s : State} (hs : MessengerSound s)
include hs

/-- A call in flight is of the operation of CUR_CMD; a word of neither SEND nor RECEIVE has none. -/
theorem call_eq_none_of_curCmd (hsend : s.curCmd ≠ 0x000C#16) (hreceive : s.curCmd ≠ 0x000D#16) : s.call = .none := by
  cases hc : s.call with
  | none => rfl
  | transmit f => exact absurd (hs.transmit f hc).1 hsend
  | receive => exact absurd (hs.receive hc).1 hreceive
  | reset => exact absurd (hs.reset hc).1 hreceive

end Calls

/-- The words of SEND and RECEIVE decode to nothing else (30_encoding.md R120). -/
theorem curCmd_ne_of_decodeCommand {w : BitVec 16} {i : Instr} (hd : decodeCommand w = .ok i) :
    (i ≠ .send → w ≠ 0x000C#16) ∧ (i ≠ .receive → w ≠ 0x000D#16) := by
  have hsend : decodeCommand 0x000C#16 = .ok .send := rfl
  have hreceive : decodeCommand 0x000D#16 = .ok .receive := rfl
  constructor
  · rintro hi rfl
    rw [hsend] at hd
    cases hd
    exact hi rfl
  · rintro hi rfl
    rw [hreceive] at hd
    cases hd
    exact hi rfl

theorem curCmd_of_send {w : BitVec 16} (hd : decodeCommand w = .ok .send) : w = 0x000C#16 := by
  rcases decodeCommand_cases hd with hmem | ⟨-, h⟩ | ⟨-, h⟩
  · simpa using hmem
  · cases h
  · cases h

theorem curCmd_of_receive {w : BitVec 16} (hd : decodeCommand w = .ok .receive) : w = 0x000D#16 := by
  rcases decodeCommand_cases hd with hmem | ⟨-, h⟩ | ⟨-, h⟩
  · simpa using hmem
  · cases h
  · cases h

/-! ### SEND -/

/-- SEND at its call: the body has set TXF_V and left the other flags as they were held. -/
theorem messengerSound_sendCall {s t : State} (hb : s.status.busy = true) (hcmd : s.curCmd = 0x000C#16)
    (ha : s.accLen = 0#32) (hh : s.held = s.status.hold) (ht : sendBody (setMState s .sending) = .ok t) :
    MessengerSound (setCall t (.transmit (txfFrame t))) := by
  have hw := within_sendBody ht
  obtain ⟨-, -, hheld, -, -, -, -, hcurCmd, -, -⟩ := hw .host (by simp)
  obtain ⟨-, -, -, -, hbusy⟩ := hw .completion (by simp)
  obtain ⟨hmstate, -⟩ := hw .messenger (by simp)
  have hacc : t.accLen = s.accLen := hw .accLen (by simp)
  have hvalid : t.status.mrValid = s.status.mrValid := hw .mrValid (by simp)
  have hmac : t.status.macOk = s.status.macOk := hw .macOk (by simp)
  have hheld : t.held = { t.status.hold with txfV := t.held.txfV } := by
    have hts : t.held = s.status.hold := hheld.trans hh
    simp only [hts, Status.hold, hvalid, hmac]
  have htxf : t.status.txfV = true := sendBody_txfV ht
  constructor
  · intro h; exact absurd (h.symm.trans (hbusy.trans hb)) Bool.false_ne_true
  · intro h; cases h
  · exact fun f _ => ⟨hcurCmd.trans hcmd, hmstate, hacc.trans ha⟩
  · intro h; cases h
  · intro h; cases h
  · intro _ h; cases h
  · exact fun f _ => ⟨htxf, hheld⟩
  · intro h; rcases h with h | h <;> cases h

theorem messengerSound_send {s t : State} (hs : MessengerSound s) (hb : s.status.busy = true)
    (hd : decodeCommand s.curCmd = .ok .send) (h : exec .send s = .next t) : MessengerSound t := by
  have hcmd := curCmd_of_send hd
  rcases execSend_cases s with ⟨hc, he⟩ | ⟨f, hc, ⟨-, he⟩ | ⟨rest, -, he⟩ | ⟨rest, -, he⟩⟩ | ⟨-, he⟩ <;>
    rw [h] at he <;> cases he
  · obtain ⟨hm, ha⟩ := hs.quiet hc
    rcases sendStart_cases s with ⟨he, -⟩ | ⟨-, ⟨e, -, he⟩ | ⟨u, hu, he⟩⟩ <;> rw [he]
    · exact messengerSound_complete hc hm ha
    · exact messengerSound_complete hc (by simp) ha
    · exact messengerSound_sendCall hb hcmd ha (hs.unmoved hb hc) hu
  · exact hs
  · exact messengerSound_complete rfl (by simp) (hs.transmit f hc).2.2
  · exact messengerSound_complete rfl (by simp) (hs.transmit f hc).2.2
  · exact hs

/-! ### RECEIVE -/

/-- What holds of a state inside the loop of RECEIVE, between two calls (44_messenger.md R250). -/
structure Looping (s : State) : Prop where
  busy : s.status.busy = true
  curCmd : s.curCmd = 0x000D#16
  mstate : s.status.mstate = .awaitingResponse
  mrValid : s.status.mrValid = false
  macOk : s.status.macOk = false
  txfV : s.held.txfV = s.status.txfV

/-- RECEIVE with a call in flight. -/
theorem messengerSound_of_waiting {s : State} (hb : s.status.busy = true) (hcmd : s.curCmd = 0x000D#16)
    (hcall : s.call = .receive ∧ s.status.mstate = .awaitingResponse ∨
      s.call = .reset ∧ s.status.mstate = .timedOut ∧ s.accLen = 0#32)
    (hvalid : s.status.mrValid = false) (hmac : s.status.macOk = false) (htxf : s.held.txfV = s.status.txfV) :
    MessengerSound s := by
  rcases hcall with ⟨hc, hm⟩ | ⟨hc, hm, ha⟩
  · constructor <;> simp [*]
  · constructor <;> simp [*]

theorem messengerSound_receiveTurn {s : State} (hl : Looping s) : MessengerSound (receiveTurn s) := by
  rcases receiveTurn_cases s with ⟨-, he⟩ | ⟨-, he⟩ <;> rw [he]
  · exact messengerSound_of_waiting hl.busy hl.curCmd (.inr ⟨rfl, rfl, rfl⟩) hl.mrValid hl.macOk hl.txfV
  · exact messengerSound_of_waiting hl.busy hl.curCmd (.inl ⟨rfl, hl.mstate⟩) hl.mrValid hl.macOk hl.txfV

theorem messengerSound_receiveStart {s : State} (hs : MessengerSound s) (hb : s.status.busy = true)
    (hcmd : s.curCmd = 0x000D#16) (hc : s.call = .none) : MessengerSound (receiveStart s) := by
  obtain ⟨hm, ha⟩ := hs.quiet hc
  rcases receiveStart_cases s with ⟨he, -⟩ | ⟨hwait, he⟩ <;> rw [he]
  · exact messengerSound_complete hc hm ha
  · have htxf : s.held.txfV = s.status.txfV := by rw [hs.unmoved hb hc]; rfl
    exact messengerSound_receiveTurn
      { busy := hb, curCmd := hcmd, mstate := hwait, mrValid := rfl, macOk := rfl, txfV := htxf }

theorem messengerSound_receiveDecode {s : State} (hl : Looping s) (hc : s.call = .none) :
    MessengerSound (receiveDecode s) := by
  rcases receiveDecode_cases s with ⟨-, he⟩ | ⟨e, -, -, he⟩ | ⟨f, -, he⟩ <;> rw [he]
  · exact messengerSound_receiveTurn hl
  · exact messengerSound_complete (by simpa using hc) (by simp) (by simp)
  · exact messengerSound_complete (by simpa using hc) (by simp) (by simp)

theorem messengerSound_receive {s t : State} (hs : MessengerSound s) (hb : s.status.busy = true)
    (hd : decodeCommand s.curCmd = .ok .receive) (h : exec .receive s = .next t) : MessengerSound t := by
  have hcmd := curCmd_of_receive hd
  rcases execReceive_cases s with ⟨hc, he⟩ |
      ⟨hc, ⟨-, he⟩ | ⟨rest, -, he⟩ | ⟨r, rest, -, ⟨-, he⟩ | ⟨-, he⟩⟩⟩ |
      ⟨hc, ⟨-, he⟩ | ⟨rest, -, he⟩ | ⟨rest, -, he⟩⟩ | ⟨f, -, he⟩ <;> rw [h] at he <;> cases he
  · exact messengerSound_receiveStart hs hb hcmd hc
  · exact hs
  · exact messengerSound_complete rfl (by simp) rfl
  · exact messengerSound_complete rfl (by simp) rfl
  · obtain ⟨-, hwait, -⟩ := hs.receive hc
    obtain ⟨hvalid, hmac, htxf⟩ := hs.waiting (.inl hc)
    refine messengerSound_receiveDecode ?_ (by simp)
    exact { busy := hb, curCmd := hcmd, mstate := hwait, mrValid := hvalid, macOk := hmac, txfV := htxf }
  · exact hs
  · obtain ⟨-, htimed, ha⟩ := hs.reset hc
    exact messengerSound_complete rfl (by simp [htimed]) ha
  · obtain ⟨-, htimed, ha⟩ := hs.reset hc
    exact messengerSound_complete rfl (by simp [htimed]) ha
  · exact hs

/-! ### The other instructions -/

/-- An operation other than SEND and RECEIVE is called with no call in flight and ends in its one step. -/
theorem messengerSound_ending {i : Instr} {s t : State} (hs : MessengerSound s) (hd : decodeCommand s.curCmd = .ok i)
    (hsend : i ≠ .send) (hreceive : i ≠ .receive) (h : exec i s = .next t) : MessengerSound t := by
  obtain ⟨hws, hwr⟩ := curCmd_ne_of_decodeCommand hd
  have hc := call_eq_none_of_curCmd hs (hws hsend) (hwr hreceive)
  obtain ⟨hm, ha⟩ := hs.quiet hc
  by_cases hclear : i = .mclear
  · subst hclear
    rw [execMclear_cases] at h
    cases h
    exact messengerSound_complete hc (by simp) rfl
  · have hw := exec_within_footprint i s t h
    obtain ⟨hmstate, hcall⟩ := hw .messenger (messenger_not_written hsend hreceive hclear)
    have hacc : t.accLen = s.accLen := hw .accLen (acc_not_written hreceive hclear _ (by simp))
    obtain ⟨o, u, -, rfl⟩ := exec_ends (isOperation_of_decodeCommand hd) hsend hreceive h
    exact messengerSound_of_idle rfl (hcall.trans hc) (hmstate ▸ hm) (hacc.trans ha)

theorem messengerSound_operation {i : Instr} {s t : State} (hs : MessengerSound s) (hb : s.status.busy = true)
    (hd : decodeCommand s.curCmd = .ok i) (h : exec i s = .next t) : MessengerSound t := by
  by_cases hsend : i = .send
  · subst hsend
    exact messengerSound_send hs hb hd h
  · by_cases hreceive : i = .receive
    · subst hreceive
      exact messengerSound_receive hs hb hd h
    · exact messengerSound_ending hs hd hsend hreceive h

/-- An acceptance finds no call in flight and holds the flags as they are. -/
theorem messengerSound_accept {s : State} (hs : MessengerSound s) (hb : s.status.busy = false) (w : BitVec 16) :
    MessengerSound (accept s w) := by
  have hc := hs.idle hb
  have hq := hs.quiet hc
  constructor <;> simp [hc, hq, Status.hold]

theorem messengerSound_transaction {i : Instr} {s t : State} (hs : MessengerSound s) (hi : isOperation i = false)
    (h : exec i s = .next t) : MessengerSound t := by
  rcases exec_transaction_cases hi h with rfl | ⟨v, rfl⟩ |
    ⟨hb, ⟨w, rfl⟩ | ⟨w, rfl⟩ | ⟨c, d, l, b, rfl⟩ | ⟨b, off, x, -, -, rfl⟩⟩
  · exact { hs with }
  · exact { hs with }
  · exact { messengerSound_accept hs hb w with }
  · exact { hs with }
  · exact { hs with }
  · exact { hs with }

theorem messengerSound_illegal {s : State} {e : DecodeError} (hs : MessengerSound s)
    (hd : decodeCommand s.curCmd = .error e) : MessengerSound (complete .illegalOperation s) := by
  have hsend : s.curCmd ≠ 0x000C#16 := fun hw => by rw [hw] at hd; cases hd
  have hreceive : s.curCmd ≠ 0x000D#16 := fun hw => by rw [hw] at hd; cases hd
  have hc := call_eq_none_of_curCmd hs hsend hreceive
  obtain ⟨hm, ha⟩ := hs.quiet hc
  exact messengerSound_complete hc hm ha

/-- Settles O56: the call in flight names the operation of CUR_CMD, so only that operation moves the messenger; and
with no call in flight the accumulator is empty. -/
theorem messengerKept : Obligations.MessengerKept := by
  refine ⟨fun s t h hstep => ?_, fun s hs hb => ?_⟩
  · refine step_keeps (P := MessengerSound) ?_ ?_ ?_ ?_ ?_ h hstep
    · exact fun s e n h => { h with }
    · exact fun s _ => { messengerSound_reset with }
    · exact fun s e h _ hd => messengerSound_illegal h hd
    · exact fun i s t h hb hd he => messengerSound_operation h hb hd he
    · exact fun i s t h hi he => messengerSound_transaction h hi he
  · obtain ⟨-, ha⟩ := hs.quiet (hs.idle hb)
    rcases execRegrd_cases 0x0A#8 s with ⟨-, ⟨hb', -⟩ | hv⟩ | ⟨v, hv, he, -⟩
    · rw [hb] at hb'; cases hb'
    · cases hv
    · have hv' : v = s.accLen.setWidth 64 := (Option.some.inj hv).symm
      rw [he, hv', ha]
      rfl

end Sys2Proof.Machine
end

section
/-! SUPPORT. Every step keeps the bytes below the lengths and of the valid keys specified (10_state.md R36, R39, R41;
93_implementation_defined.md U2, U3). -/

namespace Sys2Proof.Machine

open Sys2Proof

/-! ### How many bytes of each buffer hold values -/

/-- The bytes of a buffer that must hold values: those below its length, all of a valid key, none where the host
writes. -/
def heldLen (s : State) : Buf → Nat
  | .txf => s.txfLen.toNat
  | .rxf => s.rxfLen.toNat
  | .acc => s.accLen.toNat
  | .res => s.resLen.toNat
  | .mrPayload => s.mr.plen.toNat
  | .mrSbdata => s.mr.sblen.toNat
  | .scbk => if s.status.scbkV then 16 else 0
  | .sEnc => if s.status.skV then 16 else 0
  | .sMac1 => if s.status.skV then 16 else 0
  | .sMac2 => if s.status.skV then 16 else 0
  | .ivc => if s.status.ivcV then 16 else 0
  | .opb => 0
  | .mtPayload => 0
  | .mtSbdata => 0
  | .mtMac => 0
  | .mrMac => 0

/-- The place that says how many bytes of a buffer must hold values. -/
def lengthPlace : Buf → Place
  | .txf => .txf
  | .rxf => .bank
  | .acc => .accLen
  | .res => .resLen
  | .mrPayload => .mrPlen
  | .mrSbdata => .bank
  | .scbk => .scbkV
  | .sEnc => .skV
  | .sMac1 => .skV
  | .sMac2 => .skV
  | .ivc => .ivcV
  | .opb => .host
  | .mtPayload => .host
  | .mtSbdata => .host
  | .mtMac => .host
  | .mrMac => .host

theorem heldLen_le_span (s : State) (b : Buf) : heldLen s b ≤ bufSpan := by
  have htxf := s.txfLen.isLt
  have hrxf := s.rxfLen.isLt
  have hacc := s.accLen.isLt
  have hres := s.resLen.isLt
  have hplen := s.mr.plen.isLt
  have hsblen := s.mr.sblen.isLt
  cases b <;> simp only [heldLen, bufSpan]
  case scbk | sEnc | sMac1 | sMac2 | ivc => split <;> omega
  all_goals omega

theorem heldLen_kept {s t : State} {b : Buf} (h : Kept s t (lengthPlace b)) : heldLen t b = heldLen s b := by
  cases b with
  | rxf => exact congrArg BitVec.toNat h.2.1
  | mrSbdata =>
    obtain ⟨hmr, -⟩ := h
    have hsblen := congrArg MRBank.sblen hmr
    exact congrArg BitVec.toNat hsblen
  | txf => exact congrArg BitVec.toNat h.1
  | acc => exact congrArg BitVec.toNat h
  | res => exact congrArg BitVec.toNat h
  | mrPayload => exact congrArg BitVec.toNat h
  | scbk => exact congrArg (fun v : Bool => if v then 16 else 0) h
  | sEnc => exact congrArg (fun v : Bool => if v then 16 else 0) h
  | sMac1 => exact congrArg (fun v : Bool => if v then 16 else 0) h
  | sMac2 => exact congrArg (fun v : Bool => if v then 16 else 0) h
  | ivc => exact congrArg (fun v : Bool => if v then 16 else 0) h
  | _ => rfl

theorem holds_zero (s : State) (b : Buf) : Holds s b 0 := fun _ h => absurd h (Nat.not_lt_zero _)

theorem holds_ite_iff {s : State} {b : Buf} {v : Bool} :
    Holds s b (if v then 16 else 0) ↔ (v = true → Holds s b 16) := by
  cases v <;> simp [holds_zero]

/-- `ValuesSound` in one clause for all buffers. -/
theorem valuesSound_iff {s : State} :
    ValuesSound s ↔ (s.status.skV = true → s.status.scbkV = true) ∧ ∀ b, Holds s b (heldLen s b) := by
  constructor
  · intro h
    refine ⟨h.base, fun b => ?_⟩
    cases b with
    | txf => exact h.txf
    | rxf => exact h.rxf
    | acc => exact h.acc
    | res => exact h.res
    | mrPayload => exact h.mrPayload
    | mrSbdata => exact h.mrSbdata
    | scbk => exact holds_ite_iff.mpr h.scbk
    | sEnc => exact holds_ite_iff.mpr h.sEnc
    | sMac1 => exact holds_ite_iff.mpr h.sMac1
    | sMac2 => exact holds_ite_iff.mpr h.sMac2
    | ivc => exact holds_ite_iff.mpr h.ivc
    | _ => exact holds_zero s _
  · rintro ⟨hbase, h⟩
    exact
      { base := hbase
        scbk := holds_ite_iff.mp (h .scbk)
        sEnc := holds_ite_iff.mp (h .sEnc)
        sMac1 := holds_ite_iff.mp (h .sMac1)
        sMac2 := holds_ite_iff.mp (h .sMac2)
        ivc := holds_ite_iff.mp (h .ivc)
        txf := h .txf
        rxf := h .rxf
        acc := h .acc
        res := h .res
        mrPayload := h .mrPayload
        mrSbdata := h .mrSbdata }

/-! ### Values after writes -/

theorem holds_mono {s : State} {b : Buf} {n m : Nat} (h : Holds s b m) (hn : n ≤ m) : Holds s b n :=
  fun off ho => h off (ho.trans_le hn)

theorem holds_of_mem_eq {s t : State} {b : Buf} {n m : Nat} (h : Holds s b m) (hm : t.mem = s.mem) (hn : n ≤ m) :
    Holds t b n :=
  fun off ho => hm ▸ h off (ho.trans_le hn)

theorem holds_of_heldLen_eq_zero {s : State} {b : Buf} (h : heldLen s b = 0) : Holds s b (heldLen s b) :=
  h ▸ holds_zero s b

theorem holds_of_sameCells {s t : State} {b : Buf} {n : Nat} (h : Holds s b n) (hn : n ≤ bufSpan)
    (hc : SameCells b s t) : Holds t b n := by
  intro off ho
  rw [hc off (ho.trans_le hn)]
  exact h off ho

theorem holds_setBuffer_same (s : State) (b : Buf) {v : Bytes} {n : Nat} (hn : n ≤ v.length) (hs : n ≤ bufSpan) :
    Holds (setBuffer s b v) b n := by
  intro off ho
  have hadd := cell_add b 0 off
  rw [Nat.zero_add] at hadd
  rw [setBuffer_mem, memGet_splice _ (Nat.le_add_right _ _), if_pos (by omega),
    show cell b off - cell b 0 = off by omega, List.getElem?_eq_getElem (by omega)]
  simp

theorem holds_setBuffer_other {s : State} {b b' : Buf} {n : Nat} (h : Holds s b n) (hn : n ≤ bufSpan) (hb : b ≠ b')
    (v : Bytes) : Holds (setBuffer s b' v) b n :=
  holds_of_sameCells h hn (sameCells_setBuffer_other hb s v)

theorem holds_forget_other {s : State} {b b' : Buf} {n : Nat} (h : Holds s b n) (hn : n ≤ bufSpan) (hb : b ≠ b') :
    Holds (forget s b') b n :=
  holds_setBuffer_other h hn hb []

theorem holds_memWrite_other {s : State} {b b' : Buf} {n : Nat} (h : Holds s b n) (hn : n ≤ bufSpan) (hb : b ≠ b')
    {off : Nat} {v : Bytes} (hv : off + v.length ≤ bufSpan) : Holds (memWrite s b' off v) b n :=
  holds_of_sameCells h hn (sameCells_memWrite_other hb s hv)

/-- A write keeps what it does not reach specified and makes what it reaches so. -/
theorem holds_memWrite_append {s : State} {b : Buf} {n : Nat} (h : Holds s b n) (v : Bytes) :
    Holds (memWrite s b n v) b (n + v.length) := by
  intro off ho
  have hadd := cell_add b 0 off
  have hn := cell_add b 0 n
  rw [Nat.zero_add] at hadd hn
  rw [memWrite_mem, memGet_splice _ (Nat.le_add_right _ _)]
  by_cases hlow : off < n
  · rw [if_neg (by omega)]
    exact h off hlow
  · rw [if_pos (by omega), show cell b off - cell b n = off - n by omega, List.getElem?_eq_getElem (by omega)]
    simp

/-- The buffers whose bytes and length are outside `ps` need no argument. -/
theorem valuesSound_of_within {ps : List Place} {s t : State} (hs : ValuesSound s) (hw : Within ps s t)
    (hbase : t.status.skV = true → t.status.scbkV = true)
    (hwritten : ∀ b, Place.bytes b ∈ ps ∨ lengthPlace b ∈ ps → Holds t b (heldLen t b)) : ValuesSound t := by
  obtain ⟨-, hholds⟩ := valuesSound_iff.mp hs
  refine valuesSound_iff.mpr ⟨hbase, fun b => ?_⟩
  by_cases hb : Place.bytes b ∈ ps ∨ lengthPlace b ∈ ps
  · exact hwritten b hb
  · obtain ⟨hcells, hlen⟩ := not_or.mp hb
    rw [heldLen_kept (hw _ hlen)]
    exact holds_of_sameCells (hholds b) (heldLen_le_span s b) (hw _ hcells)

/-- The key flags kept, too. -/
theorem valuesSound_of_keys_kept {ps : List Place} {s t : State} (hs : ValuesSound s) (hw : Within ps s t)
    (hk : Place.scbkV ∉ ps ∧ Place.skV ∉ ps)
    (hwritten : ∀ b, Place.bytes b ∈ ps ∨ lengthPlace b ∈ ps → Holds t b (heldLen t b)) : ValuesSound t := by
  have hscbk : t.status.scbkV = s.status.scbkV := hw .scbkV hk.1
  have hsk : t.status.skV = s.status.skV := hw .skV hk.2
  exact valuesSound_of_within hs hw (by rw [hscbk, hsk]; exact hs.base) hwritten

/-! ### The updates -/

theorem toNat_ofNat_le (w n : Nat) : (BitVec.ofNat w n).toNat ≤ n := by
  rw [BitVec.toNat_ofNat]; exact Nat.mod_le _ _

theorem valuesSound_complete {s : State} (hs : ValuesSound s) (o : Code) : ValuesSound (complete o s) := { hs with }

theorem valuesSound_setMState {s : State} (hs : ValuesSound s) (m : MState) : ValuesSound (setMState s m) := { hs with }

theorem valuesSound_setCall {s : State} (hs : ValuesSound s) (c : TxCall) : ValuesSound (setCall s c) := { hs with }

/-- A write of a buffer that no invariant reads: the host's, MT_MAC or MR_MAC. -/
theorem valuesSound_memWrite {s : State} (hs : ValuesSound s) {b : Buf} {off : Nat} {v : Bytes}
    (hb : ∀ t : State, heldLen t b = 0) (hv : off + v.length ≤ bufSpan) : ValuesSound (memWrite s b off v) := by
  refine valuesSound_of_keys_kept hs (within_memWrite s b hv) (by simp) fun b' hb' => ?_
  have he : b' = b := by
    revert hb'
    cases b' <;> simp [lengthPlace]
  rw [he, hb]
  exact holds_zero _ _

/-- IVC and the payload buffers are written whole. -/
theorem valuesSound_setIvc {s : State} (hs : ValuesSound s) {v : Bytes} (hv : v.length = 16) :
    ValuesSound (setBuffer s .ivc v) := by
  refine valuesSound_of_keys_kept hs (within_setBuffer s .ivc v) (by simp) fun b hb => ?_
  cases b with
  | ivc => exact holds_ite_iff.mpr fun _ => holds_setBuffer_same s .ivc hv.ge (by decide)
  | _ => simp [lengthPlace] at hb

theorem valuesSound_setTxf {s : State} (hs : ValuesSound s) (f : Bytes) : ValuesSound (setTxf s f) := by
  refine valuesSound_of_keys_kept hs (within_setTxf s f) (by simp) fun b hb => ?_
  cases b with
  | txf => exact holds_setBuffer_same s .txf (toNat_ofNat_le 16 _) (heldLen_le_span (setTxf s f) .txf)
  | _ => simp [lengthPlace] at hb

theorem valuesSound_setPayload {s : State} (hs : ValuesSound s) (m : BankSel) (v : Bytes) :
    ValuesSound (setPayload s m v) := by
  refine valuesSound_of_keys_kept hs (within_setPayload s m v) (by simp) fun b hb => ?_
  cases b with
  | mtPayload => exact holds_zero _ _
  | mrPayload =>
    have hm : m = .mr := by simpa [lengthPlace] using hb
    subst hm
    exact holds_setBuffer_same s .mrPayload (toNat_ofNat_le 16 _) (heldLen_le_span (setPayload s .mr v) .mrPayload)
  | _ => simp [lengthPlace] at hb

theorem valuesSound_accClear {s : State} (hs : ValuesSound s) : ValuesSound (accClear s) := by
  refine valuesSound_of_keys_kept hs (within_accClear s) (by simp) fun b hb => ?_
  cases b with
  | acc => exact holds_zero _ _
  | _ => simp [lengthPlace] at hb

theorem valuesSound_accAppend {s : State} (hs : ValuesSound s) (hc : s.cfg.Legal) {r : Bytes}
    (hr : s.accLen.toNat + r.length ≤ s.cfg.accCap) : ValuesSound (accAppend s r) := by
  have hw := within_accAppend hr
  rw [spill_of_legal hc] at hw
  refine valuesSound_of_keys_kept hs hw (by simp) fun b hb => ?_
  cases b with
  | acc => exact holds_mono (holds_memWrite_append hs.acc r) (toNat_ofNat_le 32 _)
  | _ => simp [lengthPlace] at hb

/-- A commit writes whole the three buffers that have lengths of their own (41_codec.md R168). -/
theorem holds_commitBuffers {b : Bytes} {f : Frame} (hf : decodeFrame b = .ok f) (s : State) :
    Holds (commitBuffers f s) .mrSbdata f.sbdata.length ∧ Holds (commitBuffers f s) .mrPayload f.payload.length ∧
      Holds (commitBuffers f s) .rxf f.raw.length := by
  obtain ⟨hsb, hpay, hmac, hraw⟩ := decodeFrame_lengths hf
  have hspan {n : Nat} (hn : n ≤ 65535) : n ≤ bufSpan := by unfold bufSpan; omega
  have hmac : 0 + f.mac.length ≤ bufSpan := hspan (by omega)
  have hsb : f.sbdata.length ≤ bufSpan := hspan (by omega)
  unfold commitBuffers
  refine ⟨?_, ?_, holds_setBuffer_same _ .rxf le_rfl (hspan hraw)⟩
  · refine holds_setBuffer_other (holds_memWrite_other ?_ hsb (by decide) hmac) hsb (by decide) f.raw
    exact holds_setBuffer_other (holds_setBuffer_same s .mrSbdata le_rfl hsb) hsb (by decide) f.payload
  · refine holds_setBuffer_other (holds_memWrite_other ?_ (hspan hpay) (by decide) hmac) (hspan hpay) (by decide) f.raw
    exact holds_setBuffer_same _ .mrPayload le_rfl (hspan hpay)

theorem valuesSound_commit {s : State} (hs : ValuesSound s) {b : Bytes} {f : Frame} (hf : decodeFrame b = .ok f) :
    ValuesSound (commit f s) := by
  obtain ⟨-, -, hmac, -⟩ := decodeFrame_lengths hf
  have hraw := (decodeFrame_sound hf).raw
  obtain ⟨hsbdata, hpayload, hrxf⟩ := holds_commitBuffers hf s
  have committed {b : Buf} {n : Nat} (h : Holds (commitBuffers f s) b n) : Holds (commit f s) b n :=
    fun off ho => commit_mem f s ▸ h off ho
  refine valuesSound_of_keys_kept hs (within_commit hmac s) (by simp) fun b hb => ?_
  cases b with
  | rxf =>
    refine holds_mono (committed hrxf) ?_
    rw [hraw, heldLen, commit_rxfLen]
    exact toNat_ofNat_le 16 _
  | mrPayload =>
    refine holds_mono (committed hpayload) ?_
    rw [heldLen, commit_mr]
    exact toNat_ofNat_le 16 _
  | mrSbdata =>
    refine holds_mono (committed hsbdata) ?_
    rw [heldLen, commit_mr]
    exact toNat_ofNat_le 8 _
  | mrMac => exact holds_zero _ _
  | _ => simp [lengthPlace] at hb

theorem valuesSound_macedFrame {s : State} (hs : ValuesSound s) (f : Bytes) : ValuesSound (macedFrame s f) := by
  obtain ⟨hmac, hlast⟩ := length_sessionMac s (beforeMac f)
  refine valuesSound_setIvc (valuesSound_memWrite (valuesSound_setTxf hs _) (fun _ => rfl) ?_) hlast
  rw [hmac]
  decide

end Sys2Proof.Machine
end

section
/-! SUPPORT. Every instruction keeps `ValuesSound`, in a state that fits its parameters. -/

namespace Sys2Proof.Machine

open Sys2Proof

/-! ### The key store -/

/-- LOAD_SCBK writes SCBK whole and takes every other key's flag away (10_state.md R38). -/
theorem valuesSound_loadScbk {s t : State} (hs : ValuesSound s) (h : exec .loadScbk s = .next t) : ValuesSound t := by
  have hw := exec_within_footprint .loadScbk s t h
  rcases execLoadScbk_cases s with ⟨he, -⟩ | ⟨he, -⟩ <;> rw [h] at he <;> cases he
  · exact { hs with }
  · have hspan : 16 ≤ bufSpan := by decide
    refine valuesSound_of_within hs hw (fun _ => rfl) fun b hb => ?_
    cases b with
    | scbk =>
      have hkey := holds_setBuffer_same s .scbk (length_memRead s .opb 0 16).ge hspan
      have hkept := holds_forget_other (holds_forget_other (holds_forget_other (holds_forget_other hkey hspan
        (b' := .sEnc) (by decide)) hspan (b' := .sMac1) (by decide)) hspan (b' := .sMac2) (by decide)) hspan
        (b' := .ivc) (by decide)
      exact holds_of_mem_eq hkept rfl (by simp [heldLen])
    | sEnc => exact holds_of_heldLen_eq_zero (by simp [heldLen])
    | sMac1 => exact holds_of_heldLen_eq_zero (by simp [heldLen])
    | sMac2 => exact holds_of_heldLen_eq_zero (by simp [heldLen])
    | ivc => exact holds_of_heldLen_eq_zero (by simp [heldLen])
    | _ => simp [lengthPlace] at hb

theorem valuesSound_loadIv {s t : State} (hs : ValuesSound s) (h : exec .loadIv s = .next t) : ValuesSound t := by
  rcases execLoadIv_cases s with ⟨he, -⟩ | ⟨he, -⟩ <;> rw [h] at he <;> cases he
  · exact { hs with }
  · have hiv := holds_setBuffer_same s .ivc (length_memRead s .opb 0 16).ge (by decide)
    exact { valuesSound_setIvc hs (length_memRead s .opb 0 16) with ivc := fun _ => hiv }

/-- DERIVE_KEYS writes the three session keys whole and takes the IV's flag away (43_secure_channel.md R203). -/
theorem valuesSound_deriveKeys {s t : State} (hs : ValuesSound s) (h : exec .deriveKeys s = .next t) :
    ValuesSound t := by
  have hw := exec_within_footprint .deriveKeys s t h
  have hspan : 16 ≤ bufSpan := by decide
  have hkey (x y : Byte) : 16 ≤ (aesE (keyBytes s .scbk) (keyTemplate x y (memRead s .opb 0 8))).length :=
    (length_aesE (length_keyBytes s .scbk) (by simp [keyTemplate, zeros])).ge
  rcases execDeriveKeys_cases s with ⟨he, -⟩ | ⟨he, -⟩ | ⟨he, hbase, -⟩ <;> rw [h] at he <;> cases he
  · exact { hs with }
  · exact { hs with }
  · generalize hx : aesE (keyBytes s .scbk) (keyTemplate 0x01#8 0x82#8 (memRead s .opb 0 8)) = x at hw ⊢
    generalize hy : aesE (keyBytes s .scbk) (keyTemplate 0x01#8 0x01#8 (memRead s .opb 0 8)) = y at hw ⊢
    generalize hz : aesE (keyBytes s .scbk) (keyTemplate 0x01#8 0x02#8 (memRead s .opb 0 8)) = z at hw ⊢
    have hx : 16 ≤ x.length := hx ▸ hkey _ _
    have hy : 16 ≤ y.length := hy ▸ hkey _ _
    have hz : 16 ≤ z.length := hz ▸ hkey _ _
    refine valuesSound_of_within hs hw (fun _ => hbase) fun b hb => ?_
    cases b with
    | sEnc =>
      have hk := holds_setBuffer_same s .sEnc hx hspan
      have hk := holds_setBuffer_other (holds_setBuffer_other hk hspan (b' := .sMac1) (by decide) y) hspan
        (b' := .sMac2) (by decide) z
      exact holds_of_mem_eq (holds_forget_other hk hspan (b' := .ivc) (by decide)) rfl (by simp [heldLen])
    | sMac1 =>
      have hk := holds_setBuffer_same (setBuffer s .sEnc x) .sMac1 hy hspan
      have hk := holds_setBuffer_other hk hspan (b' := .sMac2) (by decide) z
      exact holds_of_mem_eq (holds_forget_other hk hspan (b' := .ivc) (by decide)) rfl (by simp [heldLen])
    | sMac2 =>
      have hk := holds_setBuffer_same (setBuffer (setBuffer s .sEnc x) .sMac1 y) .sMac2 hz hspan
      exact holds_of_mem_eq (holds_forget_other hk hspan (b' := .ivc) (by decide)) rfl (by simp [heldLen])
    | ivc => exact holds_of_heldLen_eq_zero (by simp [heldLen])
    | _ => simp [lengthPlace] at hb

theorem valuesSound_cryptogram {s t : State} (hs : ValuesSound s) (h : exec .cryptogram s = .next t) :
    ValuesSound t := by
  have hw := exec_within_footprint .cryptogram s t h
  rcases execCryptogram_cases s with ⟨he, -⟩ | ⟨he, -⟩ | ⟨he, -⟩ <;> rw [h] at he <;> cases he
  · exact { hs with }
  · exact { hs with }
  · have hlen := (length_aesE (length_keyBytes s .sEnc) (length_memRead s .opb 0 16)).ge
    refine valuesSound_of_keys_kept hs hw (by simp) fun b hb => ?_
    cases b with
    | res => exact holds_of_mem_eq (holds_setBuffer_same s .res hlen (by decide)) rfl (by simp [heldLen])
    | _ => simp [lengthPlace] at hb

/-! ### Frames -/

theorem valuesSound_encode {s t : State} (hs : ValuesSound s) (h : exec .encode s = .next t) : ValuesSound t := by
  rcases execEncode_cases s with ⟨e, he, -⟩ | ⟨f, he, -⟩ <;> rw [h] at he <;> cases he
  · exact { hs with }
  · exact valuesSound_complete (valuesSound_setTxf hs f) _

theorem valuesSound_decode {s t : State} (hs : ValuesSound s) (h : exec .decode s = .next t) : ValuesSound t := by
  rcases execDecode_cases s with ⟨e, he, -⟩ | ⟨f, he, hf⟩ <;> rw [h] at he <;> cases he
  · exact { hs with }
  · exact valuesSound_complete (valuesSound_commit hs hf) _

theorem valuesSound_genMac {s t : State} (hs : ValuesSound s) (h : exec .genMac s = .next t) : ValuesSound t := by
  rcases execGenMac_cases s with ⟨e, -, he⟩ | ⟨f, -, -, he⟩ <;> rw [h] at he <;> cases he
  · exact { hs with }
  · exact valuesSound_complete (valuesSound_macedFrame hs f) _

theorem valuesSound_verifyMac {s t : State} (hs : ValuesSound s) (h : exec .verifyMac s = .next t) :
    ValuesSound t := by
  have hok : ValuesSound (setMacOk s true) := { hs with }
  obtain ⟨-, hlast⟩ := length_sessionMac s (memRead s .rxf 0 (s.rxfLen.toNat - 6))
  rcases hr : sessionMac s (memRead s .rxf 0 (s.rxfLen.toNat - 6)) with ⟨mac, last⟩
  rw [hr] at hlast
  rcases execVerifyMac_cases s mac last hr.symm with ⟨e, -, he⟩ | ⟨he, -⟩ <;> rw [h] at he <;> cases he
  · exact { hs with }
  · exact valuesSound_complete (valuesSound_setIvc hok hlast) _

/-! ### Payloads -/

theorem valuesSound_encrypt {k : KeySel} {m : BankSel} {s t : State} (hs : ValuesSound s)
    (h : exec (.encrypt k m) s = .next t) : ValuesSound t := by
  rcases execEncrypt_cases k m s with ⟨e, -, he⟩ | ⟨-, -, -, c, v, hcv, he⟩ <;> rw [h] at he <;> cases he
  · exact { hs with }
  · obtain ⟨-, hv⟩ := length_cbcEncrypt (length_keyBytes s (kselBuf k)) (length_keyBytes s .ivc)
      (pad16 (payload s m))
    rw [← hcv] at hv
    exact valuesSound_complete (valuesSound_setIvc (valuesSound_setPayload hs m c) hv) _

theorem valuesSound_decrypt {k : KeySel} {m : BankSel} {s t : State} (hs : ValuesSound s)
    (h : exec (.decrypt k m) s = .next t) : ValuesSound t := by
  rcases execDecrypt_cases k m s with ⟨e, -, he⟩ | ⟨-, -, -, -, q, v, u, hqv, -, he⟩ <;> rw [h] at he <;> cases he
  · exact { hs with }
  · have hv := length_cbcDecrypt (k := keyBytes s (kselBuf k)) (length_keyBytes s .ivc) (payload s m)
    rw [← hqv] at hv
    exact valuesSound_complete (valuesSound_setIvc (valuesSound_setPayload hs m u) hv) _

/-! ### The messenger -/

theorem valuesSound_sendBody {s t : State} (hs : ValuesSound s) (h : sendBody s = .ok t) : ValuesSound t := by
  rcases sendBody_cases s with ⟨e, he⟩ | ⟨f, -, he⟩ | ⟨f, -, -, -, he⟩ <;> rw [h] at he <;> cases he
  · exact valuesSound_setTxf hs f
  · exact valuesSound_macedFrame hs f

theorem valuesSound_send {s t : State} (hs : ValuesSound s) (h : exec .send s = .next t) : ValuesSound t := by
  have hsending : ValuesSound (setMState s .sending) := { hs with }
  rcases execSend_cases s with ⟨-, he⟩ | ⟨f, -, ⟨-, he⟩ | ⟨rest, -, he⟩ | ⟨rest, -, he⟩⟩ | ⟨-, he⟩ <;>
    rw [h] at he <;> cases he
  · rcases sendStart_cases s with ⟨he, -⟩ | ⟨-, ⟨e, -, he⟩ | ⟨u, hu, he⟩⟩ <;> rw [he]
    · exact { hs with }
    · exact { hs with }
    · exact valuesSound_setCall (valuesSound_sendBody hsending hu) _
  · exact hs
  · exact { hs with }
  · exact { hs with }
  · exact hs

theorem valuesSound_receiveTurn {s : State} (hs : ValuesSound s) : ValuesSound (receiveTurn s) := by
  have hsampled : ValuesSound (sampled s) := { hs with }
  rcases receiveTurn_cases s with ⟨-, he⟩ | ⟨-, he⟩ <;> rw [he]
  · exact valuesSound_setCall (valuesSound_setMState (valuesSound_accClear hsampled) _) _
  · exact { hs with }

theorem valuesSound_receiveStart {s : State} (hs : ValuesSound s) : ValuesSound (receiveStart s) := by
  rcases receiveStart_cases s with ⟨he, -⟩ | ⟨-, he⟩ <;> rw [he]
  · exact { hs with }
  · exact valuesSound_receiveTurn { hs with }

theorem valuesSound_receiveDecode {s : State} (hs : ValuesSound s) : ValuesSound (receiveDecode s) := by
  rcases receiveDecode_cases s with ⟨-, he⟩ | ⟨e, -, -, he⟩ | ⟨f, hf, he⟩ <;> rw [he]
  · exact valuesSound_receiveTurn hs
  · exact valuesSound_complete (valuesSound_setMState (valuesSound_accClear hs) _) _
  · exact valuesSound_complete (valuesSound_setMState (valuesSound_accClear (valuesSound_commit hs hf)) _) _

theorem valuesSound_receive {s t : State} (hc : s.cfg.Legal) (hs : ValuesSound s) (h : exec .receive s = .next t) :
    ValuesSound t := by
  have hrec (rest : List ReceiveAnswer) : ValuesSound (received s rest) := { hs with }
  rcases execReceive_cases s with ⟨-, he⟩ |
      ⟨-, ⟨-, he⟩ | ⟨rest, -, he⟩ | ⟨r, rest, -, ⟨-, he⟩ | ⟨hcap, he⟩⟩⟩ |
      ⟨-, ⟨-, he⟩ | ⟨rest, -, he⟩ | ⟨rest, -, he⟩⟩ | ⟨f, -, he⟩ <;> rw [h] at he <;> cases he
  · exact valuesSound_receiveStart hs
  · exact hs
  · exact valuesSound_complete (valuesSound_setMState (valuesSound_accClear (hrec rest)) _) _
  · exact valuesSound_complete (valuesSound_setMState (valuesSound_accClear (hrec rest)) _) _
  · exact valuesSound_receiveDecode (valuesSound_accAppend (hrec rest) hc hcap)
  · exact hs
  · exact { hs with }
  · exact { hs with }
  · exact hs

theorem valuesSound_mclear {s t : State} (hs : ValuesSound s) (h : exec .mclear s = .next t) : ValuesSound t := by
  rw [execMclear_cases] at h
  cases h
  exact { valuesSound_accClear hs with }

/-! ### Every instruction and every step -/

/-- The buffers the host writes are none of those whose bytes must hold values. -/
theorem valuesSound_transaction {i : Instr} {s t : State} (hs : ValuesSound s) (hi : isOperation i = false)
    (h : exec i s = .next t) : ValuesSound t := by
  rcases exec_transaction_cases hi h with rfl | ⟨v, rfl⟩ |
    ⟨-, ⟨w, rfl⟩ | ⟨w, rfl⟩ | ⟨c, d, l, b, rfl⟩ | ⟨b, off, x, hb, ho, rfl⟩⟩
  case inr.inr.inr.inr.inr =>
    have hlen (t : State) : heldLen t b = 0 := by
      revert hb
      cases b <;> simp [Buf.hostWritable, heldLen]
    exact { valuesSound_memWrite hs hlen (v := [x]) ho with }
  all_goals exact { hs with }

theorem valuesSound_operation {i : Instr} {s t : State} (hc : s.cfg.Legal) (hs : ValuesSound s)
    (hi : isOperation i = true) (h : exec i s = .next t) : ValuesSound t := by
  cases i with
  | crc16 => rw [execCrc16_cases] at h; cases h; exact { hs with }
  | encode => exact valuesSound_encode hs h
  | decode => exact valuesSound_decode hs h
  | loadScbk => exact valuesSound_loadScbk hs h
  | loadIv => exact valuesSound_loadIv hs h
  | deriveKeys => exact valuesSound_deriveKeys hs h
  | cryptogram => exact valuesSound_cryptogram hs h
  | genMac => exact valuesSound_genMac hs h
  | verifyMac => exact valuesSound_verifyMac hs h
  | encrypt k m => exact valuesSound_encrypt hs h
  | decrypt k m => exact valuesSound_decrypt hs h
  | send => exact valuesSound_send hs h
  | receive => exact valuesSound_receive hc hs h
  | mclear => exact valuesSound_mclear hs h
  | regrd _ => cases hi
  | regwr _ _ => cases hi
  | bufrd _ _ => cases hi
  | bufwr _ _ _ => cases hi

theorem valuesSound_reset : ValuesSound State.reset :=
  valuesSound_iff.mpr ⟨fun h => absurd h (by decide), fun b => by cases b <;> exact holds_zero _ _⟩

/-- Settles O58: the invariant is kept together with `Fits`, which keeps an append to ACC inside ACC. -/
theorem valuesKept : Obligations.ValuesKept := by
  intro s t hfits h hstep
  have both : Fits t ∧ ValuesSound t := by
    refine step_keeps (P := fun s => Fits s ∧ ValuesSound s) ?_ ?_ ?_ ?_ ?_ ⟨hfits, h⟩ hstep
    · exact fun s e n ⟨hf, h⟩ => ⟨fits_congr hf rfl, { h with }⟩
    · exact fun s ⟨hf, _⟩ => ⟨fits_assertRst hf, { valuesSound_reset with }⟩
    · exact fun s e ⟨hf, h⟩ _ _ => ⟨fits_complete hf _, { h with }⟩
    · exact fun i s t ⟨hf, h⟩ _ hd he => ⟨exec_keeps_fits hf i t he,
        valuesSound_operation hf.legal h (isOperation_of_decodeCommand hd) he⟩
    · exact fun i s t ⟨hf, h⟩ hi he => ⟨exec_keeps_fits hf i t he, valuesSound_transaction h hi he⟩
  exact both.2

end Sys2Proof.Machine
end

section
/-! SUPPORT. What the host reads and what it can change (10_state.md R21, R30, R48, R49; 45_host_access.md R271, R275),
and the state after reset (R64). -/

namespace Sys2Proof.Machine

open Sys2Proof

/-- Settles O16: each of the things a transaction can do is undone by the fields of the statement. -/
theorem hostWritesOnly : Obligations.HostWritesOnly := by
  intro i s t hi h
  have hsame {u : State} (hm : u.mem = s.mem) (hf : u.freeCount = s.freeCount) :
      SameBytesBut [.opb, .mtPayload, .mtSbdata] s u := sameBytesBut_of_mem hm hf
  rcases exec_transaction_cases hi h with rfl | ⟨v, rfl⟩ |
    ⟨-, ⟨w, rfl⟩ | ⟨w, rfl⟩ | ⟨c, d, l, b, rfl⟩ | ⟨b, off, x, hb, ho, rfl⟩⟩
  case inr.inr.inr.inr.inr =>
    have hwrite : SameBytesBut [.opb, .mtPayload, .mtSbdata] s (memWrite s b off [x]) :=
      sameBytesBut_memWrite (hsame rfl rfl) ((hostWritable_iff b).mp hb) ho
    exact ⟨sameBytesBut_congr hwrite rfl rfl, rfl⟩
  all_goals exact ⟨hsame rfl rfl, rfl⟩

/-- A read of an implemented register in an idle block (45_host_access.md R271). -/
theorem exec_regrd_idle {s : State} (hb : s.status.busy = false) {sel : BitVec 8} {v : BitVec 64}
    (hv : regValue s sel = some v) : exec (.regrd sel) s = .next { s with rdata := v } := by
  rcases execRegrd_cases sel s with ⟨-, ⟨hb', -⟩ | hn⟩ | ⟨v', hv', he, -⟩
  · rw [hb] at hb'; cases hb'
  · rw [hv] at hn; cases hn
  · rw [hv] at hv'; cases hv'; exact he

/-! ### The word of STATUS, bit by bit -/

theorem getLsbD_flagAt (b : Bool) (n : Nat) {k : Nat} (hk : k < 16) :
    (flagAt b n).getLsbD k = (b && decide (k = n)) := by
  rw [flagAt, BitVec.getLsbD_shiftLeft, BitVec.getLsbD_setWidth]
  by_cases hlt : k < n
  · simp [hk, hlt, hlt.ne]
  · by_cases he : k = n
    · subst he
      cases b <;> simp [hk]
    · have hpos : k - n ≠ 0 := by omega
      cases b <;> simp [hk, hlt, he, hpos]

/-- The three bits of MSTATE in their place (10_state.md R50). -/
theorem getLsbD_mstate (m : MState) {k : Nat} (hk : k < 16) : (m.code.setWidth 16 <<< 12).getLsbD k =
    (decide (k = 12) && decide (m ∈ [MState.sending, .complete, .failed]) ||
      decide (k = 13) && decide (m ∈ [MState.awaitingResponse, .complete]) ||
      decide (k = 14) && decide (m ∈ [MState.timedOut, .failed])) := by
  interval_cases k <;> cases m <;> rfl

/-- Settles O11: each register of the tables is what `regValue` reads, and STATUS is its word bit by bit. -/
theorem regrdReads : Obligations.RegrdReads := by
  intro s hb
  refine ⟨fun p hp => exec_regrd_idle hb ?_, (statusRegister s).word.setWidth 64, exec_regrd_idle hb rfl, fun k => ?_⟩
  · revert p
    simp only [List.cons_append, List.nil_append, List.forall_mem_cons, List.not_mem_nil, false_implies, implies_true,
      and_true]
    and_intros <;> rfl
  · rw [statusRegister_idle hb, BitVec.getLsbD_setWidth]
    by_cases hk : k < 16
    · simp only [Status.word, BitVec.getLsbD_or, getLsbD_flagAt _ _ hk, getLsbD_mstate _ hk]
      interval_cases k <;> simp
    · rw [BitVec.getLsbD_of_ge _ _ (by omega), Bool.and_false]
      split <;> first | omega | rfl

/-! ### The state after reset -/

theorem fits_reset : Fits State.reset where
  legal := by decide
  canonical := reset_memory_wf
  inside := reset_memory_inside
  opb := Nat.zero_le _
  txf := Nat.zero_le _
  acc := Nat.zero_le _
  deadline := Nat.two_pow_pos _
  dl := Nat.two_pow_pos _
  t0 := Nat.two_pow_pos _

theorem regValue_reset {sel : BitVec 8} {n : Nat} (h : registerWidth Config.standard sel = some n) :
    regValue State.reset sel = some 0 := by
  have hread : ∀ sel, registerWidth Config.standard sel ≠ none → regValue State.reset sel = some 0 := by decide
  exact hread sel (by simp [h])

/-- What the cells hold that reset lists none of (10_state.md R64). -/
theorem memGet_reset (b : Buf) {off : Nat} (ho : off < bufSpan) : memGet State.reset.mem (cell b off) =
    if (b = .mtMac ∨ b = .mrMac) ∧ off < 4 then some 0#8 else none := by
  have hid (b' : Buf) : b.id = b'.id ↔ b = b' := ⟨buf_id_inj, congrArg Buf.id⟩
  show unlisted (cell b off) = _
  simp only [unlisted, cell_div b ho, cell_mod b ho, hid, macLen]

/-- Settles O59: the registers and the memory of reset are read off its definition, and each invariant has its lemma. -/
theorem resetState : Obligations.ResetState :=
  ⟨fun _ _ h => exec_regrd_idle rfl (regValue_reset h), fun b _ ho => memGet_reset b ho, rfl, rfl, fits_reset,
    recordSound_reset, messengerSound_reset, bankSound_reset, valuesSound_reset⟩

end Sys2Proof.Machine
end

section
/-! SUPPORT. How an operation leaves the block: ended by the completion sequence, or waiting for the transceiver with
nothing of it seen but BUSY and MSTATE (20_memory.md R79; 60_exceptions.md R310; 70_reset_and_hazards.md R350, R356). -/

namespace Sys2Proof.Machine

open Sys2Proof

/-! ### A next state -/

theorem exec_operation_next {i : Instr} (hi : isOperation i = true) (s : State) : ∃ t, exec i s = .next t := by
  cases i with
  | decode => rcases execDecode_cases s with ⟨e, he, -⟩ | ⟨f, he, -⟩ <;> exact ⟨_, he⟩
  | send =>
    rcases execSend_cases s with ⟨-, he⟩ | ⟨f, -, ⟨-, he⟩ | ⟨rest, -, he⟩ | ⟨rest, -, he⟩⟩ | ⟨-, he⟩ <;> exact ⟨_, he⟩
  | receive =>
    rcases execReceive_cases s with ⟨-, he⟩ |
      ⟨-, ⟨-, he⟩ | ⟨rest, -, he⟩ | ⟨r, rest, -, ⟨-, he⟩ | ⟨-, he⟩⟩⟩ |
      ⟨-, ⟨-, he⟩ | ⟨rest, -, he⟩ | ⟨rest, -, he⟩⟩ | ⟨f, -, he⟩ <;> exact ⟨_, he⟩
  | regrd _ => cases hi
  | regwr _ _ => cases hi
  | bufrd _ _ => cases hi
  | bufwr _ _ _ => cases hi
  | _ => exact ⟨_, rfl⟩

/-! ### Ended, or with a call in flight -/

theorem send_ends_or_calls {s t : State} (h : exec .send s = .next t) : Ends t ∨ t.call ≠ .none := by
  rcases execSend_cases s with ⟨-, he⟩ | ⟨f, hc, ⟨-, he⟩ | ⟨rest, -, he⟩ | ⟨rest, -, he⟩⟩ | ⟨hc, he⟩ <;>
    rw [h] at he <;> cases he
  · rcases sendStart_cases s with ⟨he, -⟩ | ⟨-, ⟨e, herr, he⟩ | ⟨u, -, he⟩⟩ <;> rw [he]
    · exact .inl (ends_complete (by simp) _)
    · exact .inl (ends_complete (sendBody_error_produced herr) _)
    · exact .inr (by simp)
  · exact .inr (by simp [hc])
  · exact .inl (ends_complete (by simp) _)
  · exact .inl (ends_complete (by simp) _)
  · exact .inr (by rcases hc with hc | hc <;> simp [hc])

/-- The head of the loop of RECEIVE always calls: `Tx.receive`, or `Tx.reset` at the deadline. -/
theorem receiveTurn_call_ne_none (s : State) : (receiveTurn s).call ≠ .none := by
  rcases receiveTurn_cases s with ⟨-, he⟩ | ⟨-, he⟩ <;> simp [he]

theorem receive_ends_or_calls {s t : State} (h : exec .receive s = .next t) : Ends t ∨ t.call ≠ .none := by
  rcases execReceive_cases s with ⟨-, he⟩ |
      ⟨hc, ⟨-, he⟩ | ⟨rest, -, he⟩ | ⟨r, rest, -, ⟨-, he⟩ | ⟨-, he⟩⟩⟩ |
      ⟨hc, ⟨-, he⟩ | ⟨rest, -, he⟩ | ⟨rest, -, he⟩⟩ | ⟨f, hc, he⟩ <;> rw [h] at he <;> cases he
  · rcases receiveStart_cases s with ⟨he, -⟩ | ⟨-, he⟩ <;> rw [he]
    · exact .inl (ends_complete (by simp) _)
    · exact .inr (receiveTurn_call_ne_none _)
  · exact .inr (by simp [hc])
  · exact .inl (ends_complete (by simp) _)
  · exact .inl (ends_complete (by simp) _)
  · rcases receiveDecode_cases (accAppend (received s rest) r) with ⟨-, he⟩ | ⟨e, -, herr, he⟩ | ⟨f, -, he⟩ <;> rw [he]
    · exact .inr (receiveTurn_call_ne_none _)
    · exact .inl (ends_complete (decodeFrame_error_produced herr) _)
    · exact .inl (ends_complete (by simp) _)
  · exact .inr (by simp [hc])
  · exact .inl (ends_complete (by simp) _)
  · exact .inl (ends_complete (by simp) _)
  · exact .inr (by simp [hc])

theorem exec_ends_or_calls {i : Instr} {s t : State} (hi : isOperation i = true) (h : exec i s = .next t) :
    Ends t ∨ ((i = .send ∨ i = .receive) ∧ t.call ≠ .none) := by
  by_cases hs : i = .send
  · exact (send_ends_or_calls (hs ▸ h)).imp_right fun hc => ⟨.inl hs, hc⟩
  · by_cases hr : i = .receive
    · exact (receive_ends_or_calls (hr ▸ h)).imp_right fun hc => ⟨.inr hr, hc⟩
    · exact .inl (exec_ends hi hs hr h)

/-! ### What is seen of each -/

/-- ERR_OP takes the command word, which no operation writes (60_exceptions.md R310). -/
theorem completed_of_ends {s t : State} (hcmd : t.curCmd = s.curCmd) (h : Ends t) :
    ∃ o, o ≠ Code.addressOutOfRange ∧ Completed o s t := by
  obtain ⟨o, u, ho, rfl⟩ := h
  exact ⟨o, ho, completed_complete hcmd⟩

/-- Beside MSTATE, the STATUS register of a busy block shows the completion flags, HERR, the key flags and the three
held flags (20_memory.md R79). -/
theorem statusRegister_of_kept {s t : State} (hb : s.status.busy = true)
    (hk : ∀ p ∈ [Place.completion, .host, .scbkV, .skV, .ivcV], Kept s t p) :
    { statusRegister t with mstate := s.status.mstate } = statusRegister s := by
  obtain ⟨-, -, herrf, hdone, hbusy⟩ := hk .completion (by simp)
  obtain ⟨-, -, hheld, -, -, -, -, -, hherr, -⟩ := hk .host (by simp)
  have hscbk : t.status.scbkV = s.status.scbkV := hk .scbkV (by simp)
  have hsk : t.status.skV = s.status.skV := hk .skV (by simp)
  have hivc : t.status.ivcV = s.status.ivcV := hk .ivcV (by simp)
  rw [statusRegister_busy hb, statusRegister_busy (hbusy.trans hb)]
  simp only [hbusy, hdone, herrf, hherr, hheld, hscbk, hsk, hivc]

theorem keyFlags_not_written {c : Config} {i : Instr} (hi : i = .send ∨ i = .receive) :
    ∀ p ∈ [Place.scbkV, .skV, .ivcV], p ∉ footprint c i := by
  rcases hi with rfl | rfl <;> simp

/-- Settles O19: an operation that has not ended is SEND or RECEIVE with a call in flight; it has not yet written the
completion registers, and of the rest of the busy STATUS register only MSTATE is in its footprint. -/
theorem everyOperationEndsOrWaits : Obligations.EveryOperationEndsOrWaits := by
  intro i s hi
  obtain ⟨t, h⟩ := exec_operation_next hi s
  have hw := exec_within_footprint i s t h
  have hhost : Kept s t .host := hw .host (host_not_written hi _ (by simp))
  have hended (he : Ends t) : ∃ o, o ≠ Code.addressOutOfRange ∧ Completed o s t := by
    obtain ⟨-, -, -, -, -, -, -, hcmd, -, -⟩ := hhost
    exact completed_of_ends hcmd he
  refine ⟨t, h, ?_⟩
  rcases exec_ends_or_calls hi h with he | ⟨hop, hcall⟩
  · exact .inl (hended he)
  · rcases exec_ends_or_waits hi h with he | hkept
    · exact .inl (hended he)
    · have hkeys : ∀ p ∈ [Place.scbkV, .skV, .ivcV], Kept s t p := fun p hp => hw p (keyFlags_not_written hop p hp)
      have hreg (hb : s.status.busy = true) := statusRegister_of_kept hb
        (List.forall_mem_cons.mpr ⟨hkept, List.forall_mem_cons.mpr ⟨hhost, hkeys⟩⟩)
      obtain ⟨herr, herrOp, herrf, hdone, hbusy⟩ := hkept
      exact .inr ⟨hop, hcall, herr, herrOp, hbusy, hdone, herrf, hreg⟩

end Sys2Proof.Machine
end

section
/-! SUPPORT. The decoder and the encoder agree, and exactly the words of 30_encoding.md R123 are illegal. -/

namespace Sys2Proof

/-! ### Transactions -/

theorem decodeTransaction_regrd (sel : BitVec 8) (off : BitVec 32) (wdata : BitVec 64) :
    decodeTransaction (packTransaction 0#2 sel off wdata) = .regrd sel := by
  simp [decodeTransaction]

theorem decodeTransaction_regwr (sel : BitVec 8) (off : BitVec 32) (wdata : BitVec 64) :
    decodeTransaction (packTransaction 1#2 sel off wdata) = .regwr sel wdata := by
  simp [decodeTransaction]

theorem decodeTransaction_bufrd (sel : BitVec 8) (off : BitVec 32) (wdata : BitVec 64) :
    decodeTransaction (packTransaction 2#2 sel off wdata) = .bufrd sel off := by
  simp [decodeTransaction]

theorem decodeTransaction_bufwr (sel : BitVec 8) (off : BitVec 32) (wdata : BitVec 64) :
    decodeTransaction (packTransaction 3#2 sel off wdata) = .bufwr sel off wdata := by
  simp [decodeTransaction]

/-- A transaction word is the packing of its own fields: they cover its 106 bits (30_encoding.md R130). -/
theorem packTransaction_fields (w : BitVec 106) :
    packTransaction (txKind w) (txSel w) (txOff w) (txWdata w) = w := by
  refine BitVec.eq_of_getLsbD_eq fun i hi => ?_
  simp only [getLsbD_packTransaction _ _ _ _ hi, txKind, txSel, txOff, txWdata, BitVec.getLsbD_extractLsb']
  split_ifs with hkind hsel hoff
  · simp [hkind]
  · simp [show i - 2 < 8 by omega, show 2 + (i - 2) = i by omega]
  · simp [show i - 10 < 32 by omega, show 10 + (i - 10) = i by omega]
  · simp [show i - 42 < 64 by omega, show 42 + (i - 42) = i by omega]

/-- Settles O4: KIND selects the constructor, and the fields cover the word. -/
theorem transactionFields : Obligations.TransactionFields :=
  ⟨fun sel off wdata => ⟨decodeTransaction_regrd sel off wdata, decodeTransaction_regwr sel off wdata,
    decodeTransaction_bufrd sel off wdata, decodeTransaction_bufwr sel off wdata⟩,
   fun w => ⟨_, _, _, _, (packTransaction_fields w).symm⟩⟩

/-! ### Command words -/

/-- Settles O1: a transaction by its packing, ENCRYPT and DECRYPT by the values of their two selectors, every other
operation by its one word. -/
theorem decodeAgreesWithEncode : Obligations.DecodeAgreesWithEncode := by
  intro i
  cases i with
  | regrd sel => exact congrArg _ (decodeTransaction_regrd sel 0#32 0#64)
  | regwr sel wdata => exact congrArg _ (decodeTransaction_regwr sel 0#32 wdata)
  | bufrd sel off => exact congrArg _ (decodeTransaction_bufrd sel off 0#64)
  | bufwr sel off wdata => exact congrArg _ (decodeTransaction_bufwr sel off wdata)
  | encrypt ksel msel => cases ksel <;> cases msel <;> rfl
  | decrypt ksel msel => cases ksel <;> cases msel <;> rfl
  | _ => rfl

theorem kselBits_kselOfBits (k : BitVec 2) : kselBits (kselOfBits k) = k.setWidth 16 <<< 8 := by
  revert k; decide

theorem mselBits_mselOfBits (m : BitVec 1) : mselBits (mselOfBits m) = m.setWidth 16 <<< 10 := by
  revert m; decide

/-- The mask of the rows of ENCRYPT and DECRYPT leaves out bits 10:8, which are KSEL and MSEL (30_encoding.md R119). -/
theorem command_split (w : BitVec 16) :
    (w &&& 0xF8FF#16) ||| ((cmdKsel w).setWidth 16 <<< 8) ||| ((cmdMsel w).setWidth 16 <<< 10) = w := by
  have hmask : ∀ j : Fin 16, (0xF8FF#16).getLsbD j = decide (j.val < 8 ∨ 11 ≤ j.val) := by decide
  refine BitVec.eq_of_getLsbD_eq fun i hi => ?_
  simp only [BitVec.getLsbD_or, BitVec.getLsbD_and, hmask ⟨i, hi⟩, BitVec.getLsbD_shiftLeft, BitVec.getLsbD_setWidth,
    cmdKsel, cmdMsel, BitVec.getLsbD_extractLsb']
  rcases (show i < 8 ∨ i = 8 ∨ i = 9 ∨ i = 10 ∨ 11 ≤ i by omega) with h | rfl | rfl | rfl | h
  · simp [h, show i < 10 by omega]
  · simp
  · simp
  · simp
  · simp [h, show ¬ i - 8 < 2 by omega, show ¬ i - 10 < 1 by omega]

/-- A word that the masked row `op` selects is `op` with the bits of its two selectors. -/
theorem selectors_of_masked {w op : BitVec 16} (h : w &&& 0xF8FF#16 = op) :
    op ||| kselBits (kselOfBits (cmdKsel w)) ||| mselBits (mselOfBits (cmdMsel w)) = w := by
  rw [kselBits_kselOfBits, mselBits_mselOfBits, ← h, command_split]

/-- The rows of the table whose bits are all fixed, as `decodeCommand_cases` lists them (30_encoding.md R120). -/
def plainRows : List (BitVec 16 × Instr) :=
  [(0x0001#16, .crc16), (0x0002#16, .encode), (0x0003#16, .decode), (0x0004#16, .loadScbk), (0x0005#16, .loadIv),
    (0x0006#16, .deriveKeys), (0x0007#16, .cryptogram), (0x0008#16, .genMac), (0x0009#16, .verifyMac),
    (0x000C#16, .send), (0x000D#16, .receive), (0x000E#16, .mclear)]

theorem encode_of_decodeCommand {w : BitVec 16} {i : Instr} (h : decodeCommand w = .ok i) : encode i = .command w := by
  rcases decodeCommand_cases h with hmem | ⟨hw, rfl⟩ | ⟨hw, rfl⟩
  · have hrows : ∀ p ∈ plainRows, encode p.2 = .command p.1 := by decide
    exact hrows (w, i) hmem
  · exact congrArg Encoded.command (selectors_of_masked hw)
  · exact congrArg Encoded.command (selectors_of_masked hw)

/-- Settles O2: the word of each row of the table is the encoder's. -/
theorem encodeAgreesWithDecode : Obligations.EncodeAgreesWithDecode :=
  fun _ _ h => ⟨encode_of_decodeCommand h, Machine.isOperation_of_decodeCommand h⟩

/-- Settles O5. -/
theorem fewWordsDecode : Obligations.FewWordsDecode := by
  unfold Obligations.FewWordsDecode
  decide

/-! ### Illegal words -/

/-- The fields of a legal command word (30_encoding.md R123): bits 15:11 are 0, OP is in the table, and a selector is
non-zero only where OP uses it. -/
def LegalFields (w : BitVec 16) : Prop :=
  cmdReserved w = 0#5 ∧ 1 ≤ (cmdOp w).toNat ∧ (cmdOp w).toNat ≤ 14 ∧
    ((cmdKsel w = 0#2 ∧ cmdMsel w = 0#1) ∨ cmdOp w = 0x0A#8 ∨ cmdOp w = 0x0B#8)

/-- OP and the reserved bits lie under the mask of the rows of ENCRYPT and DECRYPT. -/
theorem cmdOp_reserved_masked (w : BitVec 16) :
    cmdOp (w &&& 0xF8FF#16) = cmdOp w ∧ cmdReserved (w &&& 0xF8FF#16) = cmdReserved w := by
  have hop : (0xF8FF#16).extractLsb' 0 8 = BitVec.allOnes 8 := by decide
  have hres : (0xF8FF#16).extractLsb' 11 5 = BitVec.allOnes 5 := by decide
  simp only [cmdOp, cmdReserved, BitVec.extractLsb'_and, hop, hres, BitVec.and_allOnes, and_self]

theorem legalFields_of_decodeCommand {w : BitVec 16} {i : Instr} (h : decodeCommand w = .ok i) : LegalFields w := by
  obtain ⟨hop, hres⟩ := cmdOp_reserved_masked w
  rcases decodeCommand_cases h with hmem | ⟨hw, -⟩ | ⟨hw, -⟩
  · have hrows : ∀ p ∈ plainRows, LegalFields p.1 := by
      unfold LegalFields
      decide
    exact hrows (w, i) hmem
  · rw [hw] at hop hres
    exact ⟨hres.symm, hop ▸ by decide, hop ▸ by decide, .inr (.inl hop.symm)⟩
  · rw [hw] at hop hres
    exact ⟨hres.symm, hop ▸ by decide, hop ▸ by decide, .inr (.inr hop.symm)⟩

/-- A command word is the concatenation of its fields (30_encoding.md R119). -/
theorem command_fields (w : BitVec 16) : cmdReserved w ++ cmdMsel w ++ cmdKsel w ++ cmdOp w = w := by
  refine BitVec.eq_of_getLsbD_eq fun i hi => ?_
  simp only [cmdReserved, cmdMsel, cmdKsel, cmdOp, BitVec.getLsbD_append, BitVec.getLsbD_extractLsb']
  split_ifs with hop hksel hmsel
  · simp [hop]
  · simp [hksel, show 8 + (i - 8) = i by omega]
  · simp [hmsel, show 10 + (i - 8 - 2) = i by omega]
  · simp [show i - 8 - 2 - 1 < 5 by omega, show 11 + (i - 8 - 2 - 1) = i by omega]

/-- Each OP of the table decodes with no selector, and 0x0A and 0x0B with each of the eight pairs of selectors. -/
theorem decodeCommand_of_fields : ∀ (op : Fin 15) (k : BitVec 2) (m : BitVec 1), 1 ≤ op.val →
    ((k = 0#2 ∧ m = 0#1) ∨ op.val = 10 ∨ op.val = 11) →
    (decodeCommand (0#5 ++ m ++ k ++ BitVec.ofNat 8 op)).isOk = true := by
  decide

theorem decodeCommand_of_legalFields {w : BitVec 16} (h : LegalFields w) : ∃ i, decodeCommand w = .ok i := by
  obtain ⟨hres, hlo, hhi, hsel⟩ := h
  have hop : BitVec.ofNat 8 (cmdOp w).toNat = cmdOp w := by simp
  have hok := decodeCommand_of_fields ⟨(cmdOp w).toNat, by omega⟩ (cmdKsel w) (cmdMsel w) hlo
    (hsel.imp_right (Or.imp (congrArg BitVec.toNat) (congrArg BitVec.toNat)))
  rw [hop, ← hres, command_fields] at hok
  cases hd : decodeCommand w with
  | ok i => exact ⟨i, rfl⟩
  | error e => rw [hd] at hok; cases hok

theorem decodeCommand_error_iff (w : BitVec 16) : (∃ e, decodeCommand w = .error e) ↔ ¬ LegalFields w := by
  constructor
  · rintro ⟨e, he⟩ hl
    obtain ⟨i, hi⟩ := decodeCommand_of_legalFields hl
    rw [he] at hi
    cases hi
  · intro hl
    cases hd : decodeCommand w with
    | ok i => exact absurd (legalFields_of_decodeCommand hd) hl
    | error e => exact ⟨e, rfl⟩

end Sys2Proof

namespace Sys2Proof.Machine

open Sys2Proof

theorem step_of_illegal {s : State} {e : DecodeError} (hm : mover s = .sequencer) (hb : s.status.busy = true)
    (he : decodeCommand s.curCmd = .error e) : step s = .next (complete .illegalOperation (moved s)) := by
  simp [step, fetch, hm, fetchCommand, hb, he]

/-- Settles O3: the illegal words are those without legal fields, and the step on one is a completion alone. -/
theorem illegalWords : Obligations.IllegalWords := by
  refine ⟨fun w => ?_, fun s e hm hb he => ⟨_, step_of_illegal hm hb he, onlyCompleted_complete _ _⟩⟩
  rw [decodeCommand_error_iff]
  show ¬ LegalFields w ↔ (cmdOp w).toNat = 0 ∨ 0x0F ≤ (cmdOp w).toNat ∨ cmdReserved w ≠ 0#5 ∨
    ((cmdKsel w ≠ 0#2 ∨ cmdMsel w ≠ 0#1) ∧ cmdOp w ≠ 0x0A#8 ∧ cmdOp w ≠ 0x0B#8)
  have hlo : 1 ≤ (cmdOp w).toNat ↔ ¬ (cmdOp w).toNat = 0 := by omega
  have hhi : (cmdOp w).toNat ≤ 14 ↔ ¬ 0x0F ≤ (cmdOp w).toNat := by omega
  rw [LegalFields, hlo, hhi]
  tauto

/-- Settles O14: the register file's case for CMD is `accept`. -/
theorem commandAccepted : Obligations.CommandAccepted := by
  intro s v
  have hcmd : regWritten s 0x00#8 v = some (accept s (v.setWidth 16)) := rfl
  rcases execRegwr_cases 0x00#8 v s with ⟨he, hr⟩ | ⟨hb, t, ht, he⟩
  · refine ⟨fun hb => ?_, fun _ => turnedAway_of_exec he⟩
    rw [hb, hcmd] at hr
    simp at hr
  · rw [hcmd] at ht
    cases ht
    exact ⟨fun _ => he, fun hbusy => absurd (hb.symm.trans hbusy) Bool.false_ne_true⟩

end Sys2Proof.Machine
end

section
/-! SUPPORT. The frame of bank MT in the words of 30_encoding.md R100: the names of the encoder spelled out, and what
ENCODE leaves in TXF. -/

namespace Sys2Proof.Machine

open Sys2Proof

theorem mtSecured_iff (s : State) : mtSecured s = true ↔ s.mt.secure = 1#1 := by
  simp [mtSecured]

theorem mtMacBearing_iff (s : State) : mtMacBearing s = true ↔ s.mt.secure = 1#1 ∧ 0x14 < s.mt.sbtype.toNat := by
  rw [mtMacBearing, Bool.and_eq_true_iff, mtSecured_iff, decide_eq_true_iff]
  rfl

theorem mtSecureBlock_eq (s : State) : mtSecureBlock s = if s.mt.secure = 1#1 then
    [BitVec.ofNat 8 (2 + s.mt.sblen.toNat), s.mt.sbtype] ++ memRead s .mtSbdata 0 s.mt.sblen.toNat else [] := by
  simp only [mtSecureBlock, mtSecured_iff]

theorem macField_mtMacBearing (s : State) : macField (mtMacBearing s) =
    if s.mt.secure = 1#1 ∧ 0x14 < s.mt.sbtype.toNat then 4 else 0 := by
  simp only [macField, mtMacBearing_iff, macLen]

theorem mtCtrl_eq {s : State} (h : s.mt.seq.toNat ≤ 3) :
    mtCtrl s = BitVec.ofNat 8 (s.mt.seq.toNat + 4 + 8 * s.mt.secure.toNat) := by
  rw [mtCtrl, Nat.mod_eq_of_lt (by omega)]

/-- LEN, low byte first (30_encoding.md R103). -/
theorem le16_ofNat {n : Nat} (h : n < 65536) :
    le16 (BitVec.ofNat 16 n) = [BitVec.ofNat 8 (n % 256), BitVec.ofNat 8 (n / 256)] := by
  have hn : fromLe16 (BitVec.ofNat 8 (n % 256)) (BitVec.ofNat 8 (n / 256)) = n := by
    simp only [fromLe16, BitVec.toNat_ofNat]
    omega
  rw [← le16_fromLe16, hn]

/-- The frame up to its MAC field, byte by byte (30_encoding.md R100 to R105). -/
theorem mtFront_eq {s : State} (hseq : s.mt.seq.toNat ≤ 3) (htotal : mtTotal s < 65536) :
    mtFront s = [0x53#8, s.mt.addr &&& 0x7F#8, BitVec.ofNat 8 (mtTotal s % 256), BitVec.ofNat 8 (mtTotal s / 256),
      BitVec.ofNat 8 (s.mt.seq.toNat + 4 + 8 * s.mt.secure.toNat)] ++ mtSecureBlock s ++ [s.mt.code] ++
      memRead s .mtPayload 0 s.mt.plen.toNat := by
  rw [mtFront, le16_ofNat htotal, mtCtrl_eq hseq]
  rfl

theorem mtCheck_eq_none {s : State} (hseq : s.mt.seq.toNat ≤ 3)
    (hsec : s.mt.secure = 1#1 → s.mt.sblen.toNat ≤ 253 ∧ 0x11 ≤ s.mt.sbtype.toNat ∧ s.mt.sbtype.toNat ≤ 0x18) :
    mtCheck s = none := by
  rw [← mtSecured_iff] at hsec
  rcases mtCheck_cases s with ⟨-, h⟩ | ⟨-, -, h, hlen⟩ | ⟨-, -, h, -, htype⟩ | ⟨h, -⟩
  · omega
  · have := hsec h
    omega
  · have := hsec h
    omega
  · exact h

theorem encodeMt_of_checks {s : State} (hcheck : mtCheck s = none) (htotal : mtTotal s ≤ s.cfg.frameMax) :
    encodeMt s = .ok (withCrc (mtFront s ++ zeros (macField (mtMacBearing s)))) := by
  rw [encodeMt, hcheck]
  exact if_neg (by omega)

theorem exec_encode_of_ok {s : State} {f : Bytes} (h : encodeMt s = .ok f) :
    exec .encode s = .next (complete .ok (setTxf s f)) := by
  rcases execEncode_cases s with ⟨e, -, he⟩ | ⟨g, hx, hg⟩
  · rw [h] at he
    cases he
  · rw [h] at hg
    cases hg
    exact hx

/-- What ENCODE leaves of the frame it built (10_state.md R43, 41_codec.md R150). -/
theorem encode_result {s : State} {f : Bytes} (h : encodeMt s = .ok f) (hlen : f.length < 65536) :
    ∃ t, exec .encode s = .next t ∧ Completed .ok s t ∧ memRead t .txf 0 f.length = f ∧ t.txfLen.toNat = f.length ∧
      t.status.txfV = true ∧ SameBytesBut [.txf] s t ∧
      undoCompletion s { t with mem := s.mem, txfLen := s.txfLen,
                                status := { t.status with txfV := s.status.txfV } } = s := by
  have htxfLen : (BitVec.ofNat 16 f.length).toNat = f.length := by
    rw [BitVec.toNat_ofNat]
    omega
  refine ⟨_, exec_encode_of_ok h, completed_complete rfl, ?_, htxfLen, rfl, ?_, rfl⟩
  · have hread := txfFrame_setTxf s (f := f) (by omega)
    rwa [txfFrame, setTxf_txfLen, htxfLen] at hread
  · exact sameBytesBut_congr (sameBytesBut_setBuffer (sameBytesBut_of_mem rfl rfl) (by simp) f) rfl rfl

/-- Settles O23: each part that the statement spells out is a name of the encoder. -/
theorem encodeBuildsFrame : Obligations.EncodeBuildsFrame := by
  intro s sb front f mac total hlegal hseq hsec hsb hmac htotal hmax hfront hf
  obtain ⟨⟨-, hframe⟩, -⟩ := hlegal
  rw [← mtSecureBlock_eq] at hsb
  rw [← macField_mtMacBearing] at hmac
  obtain rfl : total = mtTotal s := by
    rw [htotal, hsb, hmac]
    rfl
  subst hsb hmac
  have hlt : mtTotal s < 65536 := by omega
  have hf : f = withCrc (mtFront s ++ zeros (macField (mtMacBearing s))) := by
    rw [hf, hfront, ← mtFront_eq hseq hlt]
    rfl
  have hok : encodeMt s = .ok f := hf ▸ encodeMt_of_checks (mtCheck_eq_none hseq hsec) hmax
  have hlen := length_encodeMt hok
  exact ⟨hok, hlen, hlen ▸ encode_result hok (hlen ▸ hlt)⟩

end Sys2Proof.Machine
end

section
/-! SUPPORT. A frame cut into the parts of 30_encoding.md R100 where it stands in the buffer. -/

namespace Sys2Proof.Machine

open Sys2Proof

/-! ### Cutting a slice -/

theorem slice_split (s : Bytes) (a : Nat) {k n : Nat} (h : k ≤ n) :
    slice s a n = slice s a k ++ slice s (a + k) (n - k) := by
  have hn : n = k + (n - k) := by omega
  unfold slice
  rw [← List.drop_drop, ← List.take_add, ← hn]

theorem slice_succ {s : Bytes} {i : Nat} (h : i < s.length) (n : Nat) :
    slice s i (n + 1) = byteAt s i :: slice s (i + 1) n := by
  have hb : byteAt s i = s[i] := by simp [byteAt, h]
  rw [slice, List.drop_eq_getElem_cons h, List.take_succ_cons, hb, slice]

theorem slice_zero (s : Bytes) (i : Nat) : slice s i 0 = [] := List.take_zero

/-! ### The parts of a frame that passed every check -/

/-- The secure block of a decoded frame as it stands in the buffer (30_encoding.md R108). -/
def Frame.secureBlock (r : Frame) : Bytes :=
  if r.scb = 1#1 then [BitVec.ofNat 8 (2 + r.sbdata.length), r.sbtype] ++ r.sbdata else []

/-- The MAC field of a decoded frame as it stands in the buffer (30_encoding.md R110). -/
def Frame.macBytes (r : Frame) : Bytes := if r.macv = true then r.mac else []

/-- The MAC field, between the payload and the CRC (30_encoding.md R110). -/
theorem slice_macBytes (g : Bytes) (p : Nat) :
    slice g (frameLen g - 2 - macField (frameMacBearing g)) (macField (frameMacBearing g)) =
      (frameFields p g).macBytes := by
  show _ = if frameMacBearing g = true then
    (if frameMacBearing g then slice g (frameLen g - 6) macLen else zeros macLen) else []
  cases frameMacBearing g
  · exact slice_zero _ _
  · rw [if_pos rfl, if_pos rfl, macField, if_pos rfl]
    rfl

section
variable {g : Bytes} (h : frameCheck g = none)
include h

/-- SOM, ADDR, LEN and CTRL. -/
theorem slice_header : slice g 0 5 = [som, byteAt g 1, BitVec.ofNat 8 (frameLen g % 256),
    BitVec.ofNat 8 (frameLen g / 256), byteAt g 4] := by
  obtain ⟨h8, h0, -⟩ := frameCheck_none h
  have hlen : [byteAt g 2, byteAt g 3] = [BitVec.ofNat 8 (frameLen g % 256), BitVec.ofNat 8 (frameLen g / 256)] := by
    rw [← le16_ofNat (frameLen_lt g), frameLen, le16_fromLe16]
  simp only [List.cons.injEq, and_true] at hlen
  obtain ⟨h2, h3⟩ := hlen
  rw [slice_succ (by omega), slice_succ (by omega), slice_succ (by omega), slice_succ (by omega),
    slice_succ (by omega), slice_zero, h0, h2, h3]

theorem length_sbdata (p : Nat) (hs : frameSecured g = true) :
    2 + (frameFields p g).sbdata.length = (byteAt g 5).toNat := by
  obtain ⟨-, -, hlen, hneed, hsbl, -⟩ := frameCheck_none h
  have hge := hsbl hs
  simp only [frameNeed, frameCodeAt, hs, if_true] at hneed
  simp only [frameFields, hs, if_true]
  rw [length_slice (by omega)]
  omega

/-- The secure block, from SBL to the last byte before CODE (30_encoding.md R108). -/
theorem slice_secureBlock (p : Nat) : slice g 5 (frameCodeAt g - 5) = (frameFields p g).secureBlock := by
  have hscb : (frameFields p g).scb = 1#1 ↔ frameSecured g = true := (frameSecured_iff g).symm
  rw [Frame.secureBlock, if_congr hscb rfl rfl]
  obtain ⟨h8, -, -, -, hsbl, -⟩ := frameCheck_none h
  split
  · rename_i hs
    have hn : frameCodeAt g - 5 = (byteAt g 5).toNat - 2 + 1 + 1 := by
      have hge := hsbl hs
      simp only [frameCodeAt, hs, if_true]
      omega
    rw [length_sbdata h p hs, BitVec.ofNat_toNat, BitVec.setWidth_eq, hn, slice_succ (by omega), slice_succ (by omega)]
    simp only [frameFields, hs, if_true]
    rfl
  · rename_i hs
    rw [frameCodeAt, if_neg hs, slice_zero]

/-- The CRC, low byte first (40_crc.md R143). -/
theorem slice_crc : slice g (frameLen g - 2) 2 = le16 (crc16 (slice g 0 (frameLen g - 2))) := by
  obtain ⟨-, -, hlen, hneed, -, hcrc⟩ := frameCheck_none h
  have hmin := frameNeed_ge g
  rw [hcrc, le16_fromLe16, slice_succ (by omega), slice_succ (by omega), slice_zero,
    show frameLen g - 2 + 1 = frameLen g - 1 by omega]

/-- The whole frame, part by part. -/
theorem slice_frame (p : Nat) : slice g 0 (frameLen g) =
    [som, byteAt g 1, BitVec.ofNat 8 (frameLen g % 256), BitVec.ofNat 8 (frameLen g / 256), byteAt g 4] ++
      (frameFields p g).secureBlock ++ [(frameFields p g).code] ++ (frameFields p g).payload ++
      (frameFields p g).macBytes ++ le16 (crc16 (slice g 0 (frameLen g - 2))) := by
  obtain ⟨-, -, hlen, hneed, -⟩ := frameCheck_none h
  have hcode : 5 ≤ frameCodeAt g := by
    unfold frameCodeAt
    split <;> omega
  have hone : slice g (frameCodeAt g) 1 = [(frameFields p g).code] := by
    have hlt : frameCodeAt g < g.length := by
      unfold frameNeed at hneed
      omega
    rw [slice_succ hlt, slice_zero]
    rfl
  have hpayload : slice g (frameCodeAt g + 1) (frameLen g - frameNeed g) = (frameFields p g).payload := rfl
  rw [← slice_header h, ← slice_secureBlock h p, ← hone, ← hpayload, ← slice_macBytes g p, ← slice_crc h]
  unfold frameNeed crcLen at *
  generalize macField (frameMacBearing g) = m at *
  rw [slice_split g 0 (show frameLen g - 2 ≤ frameLen g by omega),
    slice_split g 0 (show frameLen g - 2 - m ≤ frameLen g - 2 by omega),
    slice_split g 0 (show frameCodeAt g + 1 ≤ frameLen g - 2 - m by omega),
    slice_split g 0 (show frameCodeAt g ≤ frameCodeAt g + 1 by omega), slice_split g 0 hcode]
  rw [show frameLen g - (frameLen g - 2) = 2 by omega, show frameLen g - 2 - (frameLen g - 2 - m) = m by omega,
    show frameLen g - 2 - m - (frameCodeAt g + 1) = frameLen g - (frameCodeAt g + 1 + m + 2) by omega,
    Nat.add_sub_cancel_left]
  simp only [Nat.zero_add]

end

theorem length_mac {g : Bytes} (h : frameCheck g = none) (p : Nat) : (frameFields p g).mac.length = 4 := by
  obtain ⟨-, -, hlen, hneed, -⟩ := frameCheck_none h
  have hmin := frameNeed_ge g
  simp only [frameFields]
  split
  · rename_i hm
    simp only [frameNeed, frameCodeAt, hm, macField, macLen, crcLen, if_true] at hneed
    exact length_slice (by unfold macLen; split at hneed <;> omega)
  · rfl

/-- Settles O28: the buffer is cut at the marker, at LEN, and between the parts of the frame. -/
theorem decodedFrameParts : Obligations.DecodedFrameParts := by
  intro b r hr
  have hsound := decodeFrame_sound hr
  obtain ⟨noise, rest, hnoise, rfl, hcheck, rfl⟩ := decodeFrame_ok hr
  set g := som :: rest with hg
  have hraw : (frameFields noise.length g).raw = slice g 0 (frameLen g) := rfl
  have htake : (slice g 0 (frameLen g)).take (frameLen g - 2) = slice g 0 (frameLen g - 2) := by
    rw [slice, slice, List.take_take, Nat.min_eq_left (by omega)]
  have hmacv : (frameFields noise.length g).macv = decide ((frameFields noise.length g).scb = 1#1 ∧
      0x14 < (frameFields noise.length g).sbtype.toNat) := by
    exact Bool.eq_iff_iff.mpr (hsound.macv.trans decide_eq_true_iff.symm)
  refine ⟨noise, g.drop (frameLen g), byteAt g 1, ?_, hnoise, rfl, hsound.raw, hsound.minLen, hsound.maxLen, ?_, rfl,
    hsound.sqn, hsound.crcf, hsound.scb, hsound.sbdata, length_mac hcheck _, hsound.plain, hmacv, ?_⟩
  · rw [hraw, slice, List.drop_zero, List.append_assoc, List.take_append_drop]
  · rw [hraw]
    show _ = _ ++ le16 (crc16 ((slice g 0 (frameLen g)).take (frameLen g - 2)))
    rw [htake]
    exact slice_frame hcheck noise.length
  · intro hm
    have hm : frameMacBearing g = false := hm
    simp only [frameFields, hm]
    rfl

end Sys2Proof.Machine
end

section
/-! SUPPORT. What `decode` answers for a buffer built of noise, a frame and what follows it. -/

namespace Sys2Proof.Machine

open Sys2Proof

/-! ### Each check, for the string from the marker on -/

theorem frameCheck_short {f : Bytes} (h : f.length < 8) : frameCheck f = some .incomplete := if_pos h

theorem frameCheck_beyond {f : Bytes} (h8 : 8 ≤ f.length) (h0 : byteAt f 0 = som) (h : f.length < frameLen f) :
    frameCheck f = some .incomplete := by
  rw [frameCheck_eq h8 h0, if_pos h]

theorem frameCheck_invalidLength {f : Bytes} (h8 : 8 ≤ f.length) (h0 : byteAt f 0 = som) (hl : frameLen f ≤ f.length)
    (h : (frameSecured f = true ∧ (byteAt f 5).toNat < 2) ∨ frameLen f < frameNeed f) :
    frameCheck f = some .invalidLength := by
  rw [frameCheck_eq h8 h0, if_neg (by omega), if_pos h]

/-- The bytes of the MAC field of a secure block of type `ty` (30_encoding.md R110). -/
theorem macField_of_type (ty : Byte) :
    macField (decide (scsMacThreshold < ty.toNat)) = if 0x14 < ty.toNat then 4 else 0 := by
  rw [macField, if_congr decide_eq_true_iff rfl rfl]
  rfl

theorem frameNeed_secured {f : Bytes} (h : frameSecured f = true) :
    frameNeed f = 8 + (byteAt f 5).toNat + (if 0x14 < (byteAt f 6).toNat then 4 else 0) := by
  simp only [frameNeed, frameCodeAt, frameMacBearing, h, Bool.true_and, macField_of_type, crcLen, if_true]
  omega

/-! ### `decode` -/

theorem decodeFrame_short {b : Bytes} (h : b.length < 8) : decodeFrame b = .error .incomplete := by
  rw [decodeFrame, frameCheck_short (by rw [List.length_drop]; omega)]

theorem decodeFrame_of_check_error {noise f : Bytes} {e : Code} (hn : som ∉ noise)
    (h : frameCheck (som :: f) = some e) : decodeFrame (noise ++ som :: f) = .error e := by
  rw [decodeFrame_noise hn, h]

theorem decodeFrame_of_check_none {noise f : Bytes} (hn : som ∉ noise) (h : frameCheck (som :: f) = none) :
    decodeFrame (noise ++ som :: f) = .ok (frameFields noise.length (som :: f)) := by
  rw [decodeFrame_noise hn, h]

section
variable {a ctrl code ty : Byte} {l : BitVec 16} {sb pl mac data : Bytes}

/-- LEN of a frame as laid out is the LEN it was laid out with. -/
theorem frameLen_layout (tail : Bytes) : frameLen (layout a l ctrl sb code pl mac ++ tail) = l.toNat := by
  have hcons : layout a l ctrl sb code pl mac ++ tail = som :: a :: l.extractLsb' 0 8 :: l.extractLsb' 8 8 :: ctrl ::
      (sb ++ code :: (pl ++ mac ++ tail)) := by simp [le16]
  rw [hcons]
  exact fromLe16_le16 l

/-- A frame as laid out, behind noise and before any bytes, decodes exactly when its trailer is its CRC. -/
theorem decodeFrame_layout {noise : Bytes} (hn : som ∉ noise)
    (hsb : if ctrl.getLsbD 3 = true then sb = [BitVec.ofNat 8 (2 + data.length), ty] ++ data ∧ data.length ≤ 253
      else sb = [] ∧ data = [] ∧ ty = 0#8)
    (hmac : mac.length = macField (ctrl.getLsbD 3 && decide (scsMacThreshold < ty.toNat)))
    (hlen : l.toNat = (layout a l ctrl sb code pl mac).length + 2) (x y : Byte) (rest : Bytes) :
    decodeFrame (noise ++ layout a l ctrl sb code pl mac ++ [x, y] ++ rest) =
      if [x, y] = le16 (crc16 (layout a l ctrl sb code pl mac)) then
        .ok (frameFields noise.length (withCrc (layout a l ctrl sb code pl mac) ++ rest))
      else .error .checksumFailed := by
  set body := layout a l ctrl sb code pl mac with hbody
  obtain ⟨f, hf⟩ : ∃ f, body ++ [x, y] ++ rest = som :: f := ⟨_, rfl⟩
  have h8 : 8 ≤ (body ++ [x, y]).length := by simp [hbody, le16]; omega
  have hcheck : frameCheck (som :: f) = frameCheck (body ++ [x, y]) := by
    rw [← hf]
    refine frameCheck_append h8 rfl ?_ rest
    rw [frameLen_layout, hlen, hbody, List.length_append (bs := [x, y])]
    rfl
  rw [frameCheck_layout hsb hmac hlen] at hcheck
  rw [List.append_assoc, List.append_assoc, ← List.append_assoc body, hf]
  split
  · rename_i hcrc
    rw [if_pos hcrc] at hcheck
    rw [decodeFrame_of_check_none hn hcheck, ← hf, withCrc, hcrc]
  · rename_i hcrc
    rw [if_neg hcrc] at hcheck
    exact decodeFrame_of_check_error hn hcheck

end

/-! ### The corner cases -/

/-- A LEN beyond the buffer, and one too small for the frame it heads (41_codec.md R163, R164, R166). -/
theorem decodeFrame_bad_len {noise : Bytes} (hn : som ∉ noise) (c : Bytes) (a l0 l1 ctrl sbl ty x : Byte) :
    let b := noise ++ [som, a, l0, l1, ctrl, sbl, ty, x] ++ c
    (8 + c.length < fromLe16 l0 l1 → decodeFrame b = .error .incomplete) ∧
    (fromLe16 l0 l1 < 8 → decodeFrame b = .error .invalidLength) ∧
    (fromLe16 l0 l1 ≤ 8 + c.length → ctrl.getLsbD 3 = true →
      (sbl.toNat < 2 ∨ fromLe16 l0 l1 < 8 + sbl.toNat + (if 0x14 < ty.toNat then 4 else 0)) →
      decodeFrame b = .error .invalidLength) := by
  intro b
  set f := a :: l0 :: l1 :: ctrl :: sbl :: ty :: x :: c with hf
  have hb : b = noise ++ som :: f := List.append_assoc _ _ _
  have hlength : (som :: f).length = 8 + c.length := by simp [hf]; omega
  have h8 : 8 ≤ (som :: f).length := by omega
  have hlen : frameLen (som :: f) = fromLe16 l0 l1 := rfl
  have hneed := frameNeed_ge (som :: f)
  rw [hb, ← hlen, ← hlength]
  refine ⟨fun h => ?_, fun h => ?_, fun h hs hbad => ?_⟩
  · exact decodeFrame_of_check_error hn (frameCheck_beyond h8 rfl h)
  · exact decodeFrame_of_check_error hn (frameCheck_invalidLength h8 rfl (by omega) (.inr (by omega)))
  · have hs : frameSecured (som :: f) = true := hs
    refine decodeFrame_of_check_error hn (frameCheck_invalidLength h8 rfl h ?_)
    rw [frameNeed_secured hs]
    exact hbad.imp_left fun h2 => ⟨hs, h2⟩

/-- A frame of the statement of R100 is one as laid out: where CTRL bit 3 is 0 it has neither data nor a type. -/
theorem layout_parts {ctrl ty : Byte} {sb data mac : Bytes}
    (hsb : if ctrl.getLsbD 3 = true then data.length ≤ 253 ∧ sb = [BitVec.ofNat 8 (2 + data.length), ty] ++ data
      else sb = [])
    (hmac : mac.length = (if ctrl.getLsbD 3 = true ∧ 0x14 < ty.toNat then 4 else 0)) :
    ∃ (ty' : Byte) (data' : Bytes),
      (if ctrl.getLsbD 3 = true then sb = [BitVec.ofNat 8 (2 + data'.length), ty'] ++ data' ∧ data'.length ≤ 253
        else sb = [] ∧ data' = [] ∧ ty' = 0#8) ∧
      mac.length = macField (ctrl.getLsbD 3 && decide (scsMacThreshold < ty'.toNat)) ∧
      (ctrl.getLsbD 3 = true → ty' = ty ∧ data' = data) := by
  cases hc : ctrl.getLsbD 3
  · simp only [hc, Bool.false_eq_true, false_and, if_false] at hsb hmac
    exact ⟨0#8, [], by simpa using hsb, by simpa [macField] using hmac, by simp⟩
  · simp only [hc, true_and, if_true] at hsb hmac
    refine ⟨ty, data, by simpa using hsb.symm, ?_, by simp⟩
    rw [hmac, Bool.true_and, macField_of_type]

/-- Settles O26: each clause is a check of `decode`, met or failed by a buffer that is built to. -/
theorem decodeCornerCases : Obligations.DecodeCornerCases := by
  refine ⟨fun b => decodeFrame_short, fun b h8 hn => ?_, ?_, ?_, fun b e => decodeFrame_error⟩
  · rw [decodeFrame_no_marker hn, if_neg (by omega)]
  · intro noise c a l0 l1 ctrl sbl ty x len hn hlen
    subst hlen
    exact decodeFrame_bad_len hn c a l0 l1 ctrl sbl ty x
  · intro noise rest sb data pl mac front a ctrl ty code x y n hn hsb hmac htotal hlt hfront
    obtain ⟨ty', data', hsb', hmac', hparts⟩ := layout_parts hsb hmac
    have hl : (BitVec.ofNat 16 n).toNat = n := by
      rw [BitVec.toNat_ofNat]
      omega
    have hfront : front = layout a (BitVec.ofNat 16 n) ctrl sb code pl mac := by
      rw [hfront, layout, le16_ofNat hlt]
      rfl
    have hlen : (BitVec.ofNat 16 n).toNat = (layout a (BitVec.ofNat 16 n) ctrl sb code pl mac).length + 2 := by
      rw [hl, htotal]
      simp [le16]
      omega
    subst hfront
    rw [decodeFrame_layout hn hsb' hmac' hlen]
    split
    · rename_i hcrc
      obtain ⟨-, hfields⟩ := decode_layout hsb' hmac' hlen noise.length rest
      refine ⟨_, rfl, ?_⟩
      rw [hfields, hcrc]
      refine ⟨rfl, hl, rfl, rfl, rfl, rfl, congrArg _ hl, hparts, fun hne => ?_⟩
      cases hm : ctrl.getLsbD 3 && decide (scsMacThreshold < ty'.toNat)
      · rw [hm] at hmac'
        exact absurd (List.length_eq_zero_iff.mp hmac') hne
      · simp
    · rfl

end Sys2Proof.Machine
end

section
/-! SUPPORT. CRC16 (40_crc.md R145): what it leaves, and one byte of the CRC as the eight equal shifts of R141. -/

namespace Sys2Proof.Machine

open Sys2Proof

/-- One shift with the conditional xor written after the shift, as R141 has it. -/
theorem crcShift_eq_xor (c : BitVec 16) :
    crcShift c = (c <<< 1) ^^^ (if c.msb then 0x1021#16 else 0#16) := by
  rw [crcShift, BitVec.msb_eq_getLsbD_last]
  cases c.getLsbD 15
  · exact BitVec.xor_zero.symm
  · rfl

theorem crcByte_eq_iterate (c : BitVec 16) (b : Byte) : crcByte c b = crcShift^[8] (c ^^^ (b.setWidth 16 <<< 8)) := rfl

theorem crcFrom_singleton (c : BitVec 16) (b : Byte) : crcFrom c [b] = crcByte c b := rfl

theorem crc16_append (a b : Bytes) : crc16 (a ++ b) = crcFrom (crc16 a) b := crcFrom_append crcInit a b

theorem crc16_nil : crc16 [] = crcInit := rfl

/-- The check value of 95_test_vectors.md section 2: the CRC of "123456789". -/
theorem crc16_check_string : crc16 ((List.range 9).map (fun k => BitVec.ofNat 8 (0x31 + k))) = 0xE5CC#16 := by
  simp [List.range_succ, crc16, crcFrom, crcByte, crcShift, crcInit, crcPoly]

theorem opbOperand_eq_nil {s : State} (h : s.opbLen = 0#16) : opbOperand s = [] :=
  List.eq_nil_of_length_eq_zero (by rw [length_opbOperand, h]; rfl)

/-- What CRC16 leaves (40_crc.md R145): CRC_OUT, which is the initial value for an empty operand, and the completion. -/
theorem crc16_result (s : State) :
    ∃ t, exec .crc16 s = .next t ∧ Completed .ok s t ∧ t.crcOut = crc16 (opbOperand s) ∧
      (s.opbLen = 0#16 → t.crcOut = 0x1D0F#16) ∧ undoCompletion s { t with crcOut := s.crcOut } = s := by
  refine ⟨_, execCrc16_cases s, completed_complete rfl, rfl, fun hempty => ?_, rfl⟩
  rw [complete_crcOut, opbOperand_eq_nil hempty, crc16_nil]
  rfl

/-- Settles O20: the instruction by its one case, a string in two parts by the fold, and a byte by eight shifts, each
of them R141's. -/
theorem crc16Computes : Obligations.Crc16Computes := by
  refine ⟨crc16_result, crc16_append, crc16_nil, fun c x => ?_, crc16_check_string⟩
  rw [crcFrom_singleton, crcByte_eq_iterate, funext crcShift_eq_xor]

end Sys2Proof.Machine
end

section
/-! SUPPORT. One byte's change in a string that ends in its CRC (40_crc.md R143, 41_codec.md R170): what is left never
ends in its own CRC. -/

namespace Sys2Proof.Machine

open Sys2Proof

/-- Settles O21: the register tells the two bytes apart, and every byte after them keeps it apart. -/
theorem crcDetectsOneByte : Obligations.CrcDetectsOneByte := by
  intro a b x y hne h
  rw [crc16_append, crc16_append, crcFrom_cons, crcFrom_cons] at h
  exact hne (crcByte_inj_byte (crcFrom_inj h))

theorem le16_inj {v w : BitVec 16} (h : le16 v = le16 w) : v = w := by
  simp only [le16, List.cons.injEq, and_true] at h
  obtain ⟨hlow, hhigh⟩ := h
  apply BitVec.eq_of_toNat_eq
  rw [← fromLe16_le16 v, ← fromLe16_le16 w, hlow, hhigh]

theorem crc16_set_ne {a : Bytes} {i : Nat} {b : Byte} (hi : i < a.length) (hb : a[i] ≠ b) :
    crc16 (a.set i b) ≠ crc16 a := by
  have hset : a.set i b = a.take i ++ b :: a.drop (i + 1) := List.set_eq_take_append_cons_drop.trans (if_pos hi)
  have hself : a = a.take i ++ a[i] :: a.drop (i + 1) := by simp
  rw [hset]
  conv_rhs => rw [hself]
  exact crcDetectsOneByte _ _ _ _ hb.symm

/-- A byte changed before the trailer changes the CRC and not the trailer; one changed in the trailer, only the
trailer. -/
theorem withCrc_set_ne {a c : Bytes} {i : Nat} {b : Byte} (hi : i < (withCrc a).length)
    (hb : (withCrc a)[i]? ≠ some b) : (withCrc a).set i b ≠ withCrc c := by
  intro h
  have hlen : a.length = c.length := by
    have := congrArg List.length h
    simp only [List.length_set, length_withCrc] at this
    omega
  by_cases hia : i < a.length
  · rw [withCrc, List.set_append_left _ _ hia, withCrc] at h
    obtain ⟨hac, hcrc⟩ := List.append_inj h (by rw [List.length_set, hlen])
    rw [withCrc, List.getElem?_append_left hia, List.getElem?_eq_getElem hia] at hb
    refine crc16_set_ne hia (fun he => hb (congrArg some he)) ?_
    rw [hac, le16_inj hcrc]
  · have hset : (withCrc a).set i b = a ++ (le16 (crc16 a)).set (i - a.length) b :=
      List.set_append_right _ _ (by omega)
    obtain rfl : a = c := (List.append_inj (hset.symm.trans h) hlen).1
    rw [← h, List.getElem?_set_self hi] at hb
    exact hb rfl

end Sys2Proof.Machine
end

section
/-! SUPPORT. Which of the decoder's checks can still fail once the whole frame is there (41_codec.md R161), and what
bytes appended to it change (R167): nothing. -/

namespace Sys2Proof.Machine

open Sys2Proof

/-- A frame that is there whole is refused for a length or for its CRC, if at all. -/
theorem frameCheck_whole {f : Bytes} (h8 : 8 ≤ f.length) (h0 : byteAt f 0 = som) (hl : frameLen f ≤ f.length) :
    frameCheck f = none ∨ frameCheck f = some .checksumFailed ∨ frameCheck f = some .invalidLength := by
  rw [frameCheck_eq h8 h0, if_neg (by omega)]
  split
  · exact .inr (.inr rfl)
  · split
    · exact .inr (.inl rfl)
    · exact .inl rfl

/-- A frame that fills its string ends in the CRC of what precedes it. -/
theorem eq_withCrc_of_check {f : Bytes} (h : frameCheck f = none) (hl : frameLen f = f.length) :
    f = withCrc (slice f 0 (frameLen f - 2)) := by
  obtain ⟨h8, -⟩ := frameCheck_none h
  have hall : slice f 0 (frameLen f) = f := by rw [slice, List.drop_zero, hl, List.take_length]
  have hsplit := slice_split f 0 (show frameLen f - 2 ≤ frameLen f by omega)
  rw [hall, Nat.zero_add, show frameLen f - (frameLen f - 2) = 2 by omega, slice_crc h] at hsplit
  exact hsplit

/-- Only Incomplete is answered before LEN is read and its frame is there. -/
theorem whole_of_frameCheck_error {f : Bytes} {e : Code} (h0 : byteAt f 0 = som) (h : frameCheck f = some e)
    (he : e ≠ .incomplete) : 8 ≤ f.length ∧ frameLen f ≤ f.length := by
  have h8 : 8 ≤ f.length := by
    by_contra hshort
    rw [frameCheck_short (by omega)] at h
    exact he (Option.some.inj h).symm
  refine ⟨h8, ?_⟩
  by_contra hbeyond
  rw [frameCheck_beyond h8 h0 (by omega)] at h
  exact he (Option.some.inj h).symm

theorem decodeFrame_ok_append {b : Bytes} {r : Frame} (h : decodeFrame b = .ok r) (rest : Bytes) :
    decodeFrame (b ++ rest) = .ok r := by
  obtain ⟨noise, f, hn, rfl, hcheck, rfl⟩ := decodeFrame_ok h
  obtain ⟨h8, h0, hl, -⟩ := frameCheck_none hcheck
  rw [List.append_assoc, List.cons_append, ← frameFields_append hcheck _ rest]
  exact decodeFrame_of_check_none hn ((frameCheck_append h8 h0 hl rest).trans hcheck)

theorem decodeFrame_error_append {b : Bytes} {e : Code} (h : decodeFrame b = .error e) (hinc : e ≠ .incomplete)
    (hsom : e ≠ .invalidStartOfMessage) (rest : Bytes) : decodeFrame (b ++ rest) = .error e := by
  rcases marker_split b with hn | ⟨noise, f, hn, rfl⟩
  · rw [decodeFrame_no_marker hn] at h
    cases h
    split at hinc
    · exact absurd rfl hinc
    · exact absurd (if_neg ‹_›) hsom
  · have hcheck : frameCheck (som :: f) = some e := by
      rw [decodeFrame_noise hn] at h
      split at h
      · rename_i hc
        rw [hc, Except.error.inj h]
      · cases h
    obtain ⟨h8, hl⟩ := whole_of_frameCheck_error rfl hcheck hinc
    rw [List.append_assoc, List.cons_append]
    exact decodeFrame_of_check_error hn ((frameCheck_append h8 rfl hl rest).trans hcheck)

/-- Settles O27: such a result is read from the frame that LEN spans, and that frame is already there. -/
theorem decodeResultIsFinal : Obligations.DecodeResultIsFinal :=
  fun _ rest => ⟨fun _ h => decodeFrame_ok_append h rest,
    fun _ h hinc hsom => decodeFrame_error_append h hinc hsom rest⟩

end Sys2Proof.Machine
end

section
/-! SUPPORT. The decoder on what the encoder built (41_codec.md R170): the frame itself, the frame cut
short, and the frame with one byte changed. -/

namespace Sys2Proof.Machine

open Sys2Proof

/-! ### The frame -/

/-- The block type a frame of bank MT decodes to: 0 without a secure block (41_codec.md R161). -/
def mtFrameType (s : State) : Byte := if mtSecured s then s.mt.sbtype else 0#8

/-- The secure-block data a frame of bank MT decodes to. -/
def mtFrameData (s : State) : Bytes := if mtSecured s then memRead s .mtSbdata 0 s.mt.sblen.toNat else []

/-- The frame that decoding a frame of bank MT gives, `p` bytes into the buffer (41_codec.md R170). -/
def mtFrame (s : State) (p : Nat) (f : Bytes) : Frame :=
  { addr := s.mt.addr &&& addrMask, len := f.length, ctrl := mtCtrl s, sqn := (mtCtrl s).extractLsb' 0 2,
    crcf := 1#1, scb := s.mt.secure, sbtype := mtFrameType s, sbdata := mtFrameData s, code := s.mt.code,
    payload := payload s .mt, macv := mtMacBearing s, mac := zeros macLen, raw := f, consumed := p + f.length }

/-- What the encoder's checks, all passed, say of bank MT. -/
theorem bounds_of_mtCheck {s : State} (h : mtCheck s = none) :
    s.mt.seq.toNat ≤ 3 ∧ (mtSecured s = true → s.mt.sblen.toNat ≤ 253) := by
  rcases mtCheck_cases s with ⟨he, -⟩ | ⟨he, -⟩ | ⟨he, -⟩ | ⟨-, hseq, hsec⟩
  case inr.inr.inr =>
    exact ⟨hseq, fun hs => (hsec hs).1⟩
  all_goals
    rw [h] at he
    cases he

/-- The control byte of a frame that the encoder's checks let through (30_encoding.md R105). -/
theorem mtCtrl_of_mtCheck {s : State} (h : mtCheck s = none) : (mtCtrl s).getLsbD 3 = mtSecured s ∧
    ((mtCtrl s).extractLsb' 0 2).toNat = s.mt.seq.toNat ∧ (mtCtrl s).extractLsb' 2 1 = 1#1 ∧
      (mtCtrl s).extractLsb' 3 1 = s.mt.secure :=
  mtCtrl_fields (bounds_of_mtCheck h).1

/-- The secure block the encoder writes is the one its control byte announces (30_encoding.md R105, R108). -/
theorem mtSecureBlock_layout {s : State} (h : mtCheck s = none) :
    if (mtCtrl s).getLsbD 3 = true then
      mtSecureBlock s = [BitVec.ofNat 8 (2 + (mtFrameData s).length), mtFrameType s] ++ mtFrameData s ∧
        (mtFrameData s).length ≤ 253
    else mtSecureBlock s = [] ∧ mtFrameData s = [] ∧ mtFrameType s = 0#8 := by
  obtain ⟨hscb, -⟩ := mtCtrl_of_mtCheck h
  rw [hscb]
  split
  · rename_i hs
    simp only [mtSecureBlock, mtFrameData, mtFrameType, hs, if_true, length_memRead, true_and]
    exact (bounds_of_mtCheck h).2 hs
  · rename_i hs
    exact ⟨if_neg hs, if_neg hs, if_neg hs⟩

theorem mtMacBearing_layout {s : State} (h : mtCheck s = none) :
    ((mtCtrl s).getLsbD 3 && decide (scsMacThreshold < (mtFrameType s).toNat)) = mtMacBearing s := by
  obtain ⟨hscb, -⟩ := mtCtrl_of_mtCheck h
  rw [hscb, mtMacBearing, mtFrameType]
  cases mtSecured s <;> rfl

/-- What the encoder builds passes every check of the decoder, which reads its fields back. -/
theorem decode_encodeMt {s : State} {f : Bytes} (hc : s.cfg.frameMax ≤ 65535) (h : encodeMt s = .ok f) (p : Nat)
    (rest : Bytes) : frameCheck (f ++ rest) = none ∧ frameFields p (f ++ rest) = mtFrame s p f := by
  obtain ⟨hf, htotal, hcheck⟩ := encodeMt_ok h
  have hlength := length_encodeMt h
  have hl : (BitVec.ofNat 16 (mtTotal s)).toNat = f.length := by
    rw [BitVec.toNat_ofNat]
    omega
  have hmac : (zeros (macField (mtMacBearing s))).length =
      macField ((mtCtrl s).getLsbD 3 && decide (scsMacThreshold < (mtFrameType s).toNat)) := by
    rw [mtMacBearing_layout hcheck, zeros, List.length_replicate]
  have hzeros : (if mtMacBearing s then zeros (macField (mtMacBearing s)) else zeros macLen) = zeros macLen := by
    cases mtMacBearing s <;> rfl
  rw [mtFront_layout] at hf
  have hlen := hl.trans ((congrArg List.length hf).trans (length_withCrc _))
  obtain ⟨hnone, hfields⟩ := decode_layout (mtSecureBlock_layout hcheck) hmac hlen p rest
  obtain ⟨-, -, hcrcf, hscb⟩ := mtCtrl_of_mtCheck hcheck
  rw [mtMacBearing_layout hcheck, hzeros, hl, hcrcf, hscb, ← hf] at hfields
  rw [← hf] at hnone
  refine ⟨hnone, hfields.trans ?_⟩
  rw [mtFrame, BitVec.and_assoc, BitVec.and_self]

/-- Behind noise and before any bytes (41_codec.md R170 (a)). -/
theorem decodeFrame_encodeMt {s : State} {f noise : Bytes} (hc : s.cfg.frameMax ≤ 65535) (h : encodeMt s = .ok f)
    (hn : som ∉ noise) (rest : Bytes) : decodeFrame (noise ++ f ++ rest) = .ok (mtFrame s noise.length f) := by
  obtain ⟨hcheck, hfields⟩ := decode_encodeMt hc h noise.length rest
  obtain ⟨-, -, ⟨g, hg⟩, -⟩ := encodeMt_head hc h
  rw [← hfields, List.append_assoc]
  rw [hg, List.cons_append] at hcheck ⊢
  exact decodeFrame_of_check_none hn hcheck

/-- The frame cut short is shorter than any frame, or than the LEN it carries (41_codec.md R170 (b)). -/
theorem decodeFrame_take_encodeMt {s : State} {f : Bytes} (hc : s.cfg.frameMax ≤ 65535) (h : encodeMt s = .ok f)
    {n : Nat} (hn : n < f.length) : decodeFrame (f.take n) = .error .incomplete := by
  obtain ⟨-, -, ⟨g, hg⟩, hlen⟩ := encodeMt_head hc h
  have hlength : (f.take n).length = n := List.length_take_of_le hn.le
  by_cases h8 : n < 8
  · exact decodeFrame_short (by omega)
  · obtain ⟨-, -, hhead, -⟩ := frameHead_append (f := f.take n) (by omega) (f.drop n)
    rw [List.take_append_drop, hlen] at hhead
    obtain ⟨m, rfl⟩ : ∃ m, n = m + 1 := ⟨n - 1, by omega⟩
    rw [hg, List.take_succ_cons] at hlength hhead ⊢
    exact decodeFrame_of_check_error (noise := []) (by simp)
      (frameCheck_beyond (by omega) rfl (by rw [hg] at hn; omega))

/-- Settles O25: the decoder's fields of the encoder's frame, one by one, and the frame cut short. -/
theorem decodeRecoversEncode : Obligations.DecodeRecoversEncode := by
  intro s f noise rest hlegal h hnoise
  obtain ⟨⟨-, hc⟩, -⟩ := hlegal
  obtain ⟨-, -, hcheck⟩ := encodeMt_ok h
  obtain ⟨-, hsqn, -⟩ := mtCtrl_of_mtCheck hcheck
  refine ⟨⟨mtFrame s noise.length f, decodeFrame_encodeMt hc h hnoise rest, rfl, rfl, hsqn, rfl, rfl, rfl,
    fun hsec => ?_, fun hplain => ?_, ?_, rfl, rfl, rfl, rfl⟩, fun n => decodeFrame_take_encodeMt hc h⟩
  · have hs := (mtSecured_iff s).mpr hsec
    exact ⟨if_pos hs, if_pos hs⟩
  · have hs : ¬ mtSecured s = true := by
      rw [mtSecured_iff, hplain]
      decide
    exact ⟨if_neg hs, if_neg hs⟩
  · exact Bool.eq_iff_iff.mpr ((mtMacBearing_iff s).trans decide_eq_true_iff.symm)

/-! ### One byte changed -/

theorem byteAt_set_ne (f : Bytes) (b : Byte) {i j : Nat} (h : i ≠ j) : byteAt (f.set i b) j = byteAt f j := by
  rw [byteAt, byteAt, List.getD_eq_getElem?_getD, List.getD_eq_getElem?_getD, List.getElem?_set_ne h]

/-- Settles O22: SOM and LEN stand, so the frame is still there whole; its trailer is no longer its CRC. -/
theorem corruptFrameNeverDecodes : Obligations.CorruptFrameNeverDecodes := by
  intro s f i b hlegal h hi hplace hb
  obtain ⟨⟨-, hc⟩, -⟩ := hlegal
  obtain ⟨hf, -⟩ := encodeMt_ok h
  obtain ⟨h8, -, ⟨g, hg⟩, hlen⟩ := encodeMt_head hc h
  simp only [List.mem_cons, List.not_mem_nil, or_false, not_or] at hplace
  obtain ⟨hi0, hi2, hi3⟩ := hplace
  have hlength : (f.set i b).length = f.length := List.length_set
  have hlen' : frameLen (f.set i b) = (f.set i b).length := by
    rw [frameLen, byteAt_set_ne f b hi2, byteAt_set_ne f b hi3, hlength]
    exact hlen
  have h0 : byteAt (f.set i b) 0 = som := by
    rw [byteAt_set_ne f b hi0, hg]
    rfl
  have hbad : frameCheck (f.set i b) ≠ none := fun hnone => by
    have hcrc := eq_withCrc_of_check hnone hlen'
    rw [hf] at hi hb hcrc
    exact withCrc_set_ne hi hb hcrc
  obtain ⟨g', hg'⟩ : ∃ g', f.set i b = som :: g' := by
    obtain ⟨j, rfl⟩ : ∃ j, i = j + 1 := ⟨i - 1, by omega⟩
    exact ⟨g.set j b, by rw [hg, List.set_cons_succ]⟩
  have hdecode {e : Code} (he : frameCheck (f.set i b) = some e) : decodeFrame (f.set i b) = .error e := by
    rw [hg'] at he ⊢
    exact decodeFrame_of_check_error (noise := []) (by simp) he
  rcases frameCheck_whole (by omega) h0 hlen'.le with hnone | hcrc | hinv
  · exact absurd hnone hbad
  · exact .inl (hdecode hcrc)
  · exact .inr (hdecode hinv)

end Sys2Proof.Machine
end

section
/-! SUPPORT. The errors of ENCODE (41_codec.md R151), one lemma per check, in their order. -/

namespace Sys2Proof.Machine

open Sys2Proof

theorem mtCheck_of_seq {s : State} (h : 3 < s.mt.seq.toNat) : mtCheck s = some .invalidSequenceNumber := by
  rcases mtCheck_cases s with ⟨he, -⟩ | ⟨-, hseq, -⟩ | ⟨-, hseq, -⟩ | ⟨-, hseq, -⟩
  · exact he
  all_goals omega

theorem mtCheck_of_sblen {s : State} (hseq : s.mt.seq.toNat ≤ 3) (hsec : mtSecured s = true)
    (h : 253 < s.mt.sblen.toNat) : mtCheck s = some .secureBlockTooLarge := by
  rcases mtCheck_cases s with ⟨-, hbad⟩ | ⟨he, -⟩ | ⟨-, -, -, hlen, -⟩ | ⟨-, -, hpass⟩
  · omega
  · exact he
  · omega
  · have := hpass hsec
    omega

theorem mtCheck_of_sbtype {s : State} (hseq : s.mt.seq.toNat ≤ 3) (hsec : mtSecured s = true)
    (hlen : s.mt.sblen.toNat ≤ 253) (h : s.mt.sbtype.toNat < 0x11 ∨ 0x18 < s.mt.sbtype.toNat) :
    mtCheck s = some .invalidSecureBlockType := by
  rcases mtCheck_cases s with ⟨-, hbad⟩ | ⟨-, -, -, hbad⟩ | ⟨he, -⟩ | ⟨-, -, hpass⟩
  · omega
  · omega
  · exact he
  · have := hpass hsec
    omega

/-- `total` in the registers of bank MT (41_codec.md R151). -/
theorem mtTotal_eq (s : State) : mtTotal s =
    8 + s.mt.plen.toNat + (if s.mt.secure = 1#1 then 2 + s.mt.sblen.toNat else 0) +
      (if s.mt.secure = 1#1 ∧ 0x14 < s.mt.sbtype.toNat then 4 else 0) := by
  have hblock : (mtSecureBlock s).length = if s.mt.secure = 1#1 then 2 + s.mt.sblen.toNat else 0 := by
    rw [mtSecureBlock_eq]
    split
    · rw [List.length_append, length_memRead]
      rfl
    · rfl
  rw [mtTotal, hblock, macField_mtMacBearing, crcLen]
  omega

theorem encodeMt_of_check {s : State} {e : Code} (h : mtCheck s = some e) : encodeMt s = .error e := by
  rw [encodeMt, h]

theorem encodeMt_of_total {s : State} (hcheck : mtCheck s = none) (h : s.cfg.frameMax < mtTotal s) :
    encodeMt s = .error .invalidLength := by
  rw [encodeMt, hcheck]
  exact if_pos h

theorem raises_encode {s : State} {e : Code} (h : encodeMt s = .error e) : Raises .encode e s s := by
  rcases execEncode_cases s with ⟨e', hx, he⟩ | ⟨f, -, hf⟩
  · rw [h] at he
    cases he
    exact raises_of_exec hx
  · rw [h] at hf
    cases hf

/-- Settles O24: each clause is the check it names, failed after the earlier ones have passed. -/
theorem encodeRaises : Obligations.EncodeRaises := by
  intro s
  refine ⟨fun h => ?_, fun hseq hsec h => ?_, fun hseq hsec hlen h => ?_, fun hseq hsec h => ?_⟩
  · exact raises_encode (encodeMt_of_check (mtCheck_of_seq h))
  · exact raises_encode (encodeMt_of_check (mtCheck_of_sblen hseq ((mtSecured_iff s).mpr hsec) h))
  · exact raises_encode (encodeMt_of_check (mtCheck_of_sbtype hseq ((mtSecured_iff s).mpr hsec) hlen h))
  · rw [← mtTotal_eq] at h
    exact raises_encode (encodeMt_of_total (mtCheck_eq_none hseq hsec) h)

end Sys2Proof.Machine
end

section
/-! SUPPORT. What DECODE leaves (41_codec.md R160, R168): a decoded frame in bank MR and its buffers, or two flags
clear. -/

namespace Sys2Proof.Machine

open Sys2Proof

/-- The four buffers of a commit read back what was committed. -/
theorem memRead_commit {b : Bytes} {f : Frame} (hf : decodeFrame b = .ok f) (s : State) :
    memRead (commit f s) .mrSbdata 0 f.sbdata.length = f.sbdata ∧
    memRead (commit f s) .mrPayload 0 f.payload.length = f.payload ∧
    memRead (commit f s) .mrMac 0 f.mac.length = f.mac ∧ memRead (commit f s) .rxf 0 f.raw.length = f.raw := by
  obtain ⟨hsb, hpay, hmac, hraw⟩ := decodeFrame_lengths hf
  have hspan {n : Nat} (hn : n ≤ 65535) : n ≤ bufSpan := by unfold bufSpan; omega
  have hmac' : 0 + f.mac.length ≤ bufSpan := hspan (by omega)
  have hcommit (c : Buf) (n : Nat) : memRead (commit f s) c 0 n = memRead (commitBuffers f s) c 0 n :=
    memRead_congr (commit_mem f s) (by rw [commit_freeCount, commitBuffers_freeCount]) c 0 n
  rw [hcommit, hcommit, hcommit, hcommit, commitBuffers]
  refine ⟨?_, ?_, ?_, memRead_setBuffer_same _ .rxf _ (hspan hraw)⟩
  · rw [memRead_setBuffer_other _ (by decide) _ (hspan (by omega)),
      memRead_memWrite_other _ (by decide) _ hmac' (hspan (by omega)),
      memRead_setBuffer_other _ (by decide) _ (hspan (by omega)), memRead_setBuffer_same _ _ _ (hspan (by omega))]
  · rw [memRead_setBuffer_other _ (by decide) _ (hspan (by omega)),
      memRead_memWrite_other _ (by decide) _ hmac' (hspan (by omega)), memRead_setBuffer_same _ _ _ (hspan hpay)]
  · rw [memRead_setBuffer_other _ (by decide) _ hmac', memRead_memWrite_same]

theorem length_mac_of_decode {b : Bytes} {f : Frame} (h : decodeFrame b = .ok f) : f.mac.length = 4 := by
  obtain ⟨noise, rest, -, -, hcheck, rfl⟩ := decodeFrame_ok h
  exact length_mac hcheck _

/-- CONSUMED counts bytes of the buffer. -/
theorem consumed_le_of_decode {b : Bytes} {f : Frame} (h : decodeFrame b = .ok f) : f.consumed ≤ b.length := by
  obtain ⟨noise, rest, -, rfl, hcheck, rfl⟩ := decodeFrame_ok h
  obtain ⟨-, -, hlen, -⟩ := frameCheck_none hcheck
  rw [List.length_append]
  exact Nat.add_le_add_left hlen _

theorem toNat_ofNat_of_lt {w n : Nat} (h : n < 2 ^ w) : (BitVec.ofNat w n).toNat = n :=
  (BitVec.toNat_ofNat n w).trans (Nat.mod_eq_of_lt h)

/-- Every register of bank MR is wide enough for what a commit puts there. -/
theorem bankHolds_commit {b : Bytes} {f : Frame} (hf : decodeFrame b = .ok f) (hb : b.length < 4294967296) (s : State) :
    BankHolds f (commit f s) := by
  have hsound := decodeFrame_sound hf
  obtain ⟨hsb, hpay, -, -⟩ := decodeFrame_lengths hf
  have hsb : f.sbdata.length < 2 ^ 8 := by omega
  have hpay : f.payload.length < 2 ^ 16 := by omega
  have hconsumed : f.consumed < 2 ^ 32 := (consumed_le_of_decode hf).trans_lt hb
  obtain ⟨rsbdata, rpayload, rmac, rrxf⟩ := memRead_commit hf s
  rw [length_mac_of_decode hf] at rmac
  rw [hsound.raw] at rrxf
  simp only [BankHolds, commit_mr, commitBank, commit_rxfLen, commit_consumed, true_and]
  exact ⟨toNat_ofNat_of_lt hsb, rsbdata, toNat_ofNat_of_lt hpay, rpayload, toNat_ofNat_of_lt hsound.maxLen, rmac,
    toNat_ofNat_of_lt hsound.maxLen, rrxf, toNat_ofNat_of_lt hconsumed⟩

theorem bankHolds_complete {f : Frame} {s : State} (h : BankHolds f s) (o : Code) : BankHolds f (complete o s) := by
  simpa only [BankHolds, complete_mr, complete_rxfLen, complete_consumed, memRead_complete] using h

theorem sameBytesBut_commit {b : Bytes} {f : Frame} (hf : decodeFrame b = .ok f) (s : State) :
    SameBytesBut [.mrSbdata, .mrPayload, .mrMac, .rxf] s (commit f s) := by
  obtain ⟨-, -, hmac, -⟩ := decodeFrame_lengths hf
  intro c hc
  exact sameBytes_of_within (within_commit hmac s) (by simpa using hc) (by simp)

theorem exec_decode_of_ok {s : State} {f : Frame} (h : decodeFrame (opbOperand s) = .ok f) :
    exec .decode s = .next (complete .ok (commit f s)) := by
  rcases execDecode_cases s with ⟨e, -, he⟩ | ⟨g, hx, hg⟩
  · rw [h] at he
    cases he
  · rw [h] at hg
    cases hg
    exact hx

theorem exec_decode_of_error {s : State} {e : Code} (h : decodeFrame (opbOperand s) = .error e) :
    exec .decode s = .next (complete e (setMrValid s false)) := by
  rcases execDecode_cases s with ⟨e', hx, he⟩ | ⟨g, -, hg⟩
  · rw [h] at he
    cases he
    exact hx
  · rw [h] at hg
    cases hg

/-- A commit writes nothing but bank MR, its buffers, RXF_LEN, CONSUMED and the two flags. -/
theorem undo_commit (f : Frame) (s : State) :
    undoCompletion s (undoDecode s { complete .ok (commit f s) with mem := s.mem }) = s := by
  simp [undoCompletion, undoDecode]

/-- Settles O29: the commit of a decoded frame, or the two flags cleared, and in either case the completion. -/
theorem decodeCommits : Obligations.DecodeCommits := by
  intro s
  refine ⟨fun f hf => ?_, fun e he => ?_⟩
  · have hb : (opbOperand s).length < 4294967296 := by
      have := s.opbLen.isLt
      rw [length_opbOperand]
      omega
    exact ⟨_, exec_decode_of_ok hf, completed_complete (commit_curCmd f s), commit_status_mrValid f s,
      commit_status_macOk f s, bankHolds_complete (bankHolds_commit hf hb s) .ok,
      sameBytesBut_congr (sameBytesBut_commit hf s) rfl rfl, undo_commit f s⟩
  · exact ⟨_, exec_decode_of_error he, completed_complete rfl, rfl, rfl, rfl, rfl, rfl, rfl⟩

end Sys2Proof.Machine
end

section
/-! SUPPORT. AES_D undoes AES_E and AES_E undoes AES_D (42_aes128.md R181, R190): the rounds between the first and the
last round key as two folds over the same keys, each of which takes the other back key by key. -/

namespace Sys2Proof.Machine

open Sys2Proof

/-! ### The middle rounds as folds -/

/-- A round of AES_E but the last. -/
def encRound (s k : Bytes) : Bytes := xorBytes (mixColumns (shiftRows (subBytes s))) k

/-- A round of AES_D but the last. -/
def decRound (s k : Bytes) : Bytes := invMixColumns (xorBytes (invSubBytes (invShiftRows s)) k)

theorem length_encRound {k : Bytes} (hk : k.length = 16) (s : Bytes) : (encRound s k).length = 16 := by
  simp [encRound, hk]

theorem length_decRound (s k : Bytes) : (decRound s k).length = 16 := length_invMixColumns _

theorem encRounds_concat (s kl : Bytes) (ks : List Bytes) :
    encRounds s (ks ++ [kl]) = xorBytes (shiftRows (subBytes (ks.foldl encRound s))) kl := by
  induction ks generalizing s with
  | nil => rfl
  | cons k ks ih =>
    have hstep : encRounds s (k :: (ks ++ [kl])) = encRounds (encRound s k) (ks ++ [kl]) := by cases ks <;> rfl
    exact hstep.trans (ih _)

theorem decRounds_concat (s kl : Bytes) (ks : List Bytes) :
    decRounds s (ks ++ [kl]) = xorBytes (invSubBytes (invShiftRows (ks.foldl decRound s))) kl := by
  induction ks generalizing s with
  | nil => rfl
  | cons k ks ih =>
    have hstep : decRounds s (k :: (ks ++ [kl])) = decRounds (decRound s k) (ks ++ [kl]) := by cases ks <;> rfl
    exact hstep.trans (ih _)

/-- AES_E and AES_D under a first, a list of middle and a last round key. -/
theorem encWithKeys_eq (b k kl : Bytes) (ks : List Bytes) :
    encWithKeys b (k :: (ks ++ [kl])) =
      xorBytes (shiftRows (subBytes (ks.foldl encRound (xorBytes b k)))) kl :=
  encRounds_concat (xorBytes b k) kl ks

theorem decWithKeys_reverse_eq (c k kl : Bytes) (ks : List Bytes) :
    decWithKeys c (k :: (ks ++ [kl])).reverse =
      xorBytes (invSubBytes (invShiftRows (ks.reverse.foldl decRound (xorBytes c kl)))) k := by
  rw [List.reverse_cons, List.reverse_concat]
  exact decRounds_concat (xorBytes c kl) k ks.reverse

/-! ### Each fold takes the other back -/

theorem decRound_encRound {k : Bytes} (hk : k.length = 16) (s : Bytes) :
    decRound (shiftRows (subBytes (encRound s k))) k = shiftRows (subBytes s) := by
  rw [decRound, round_undone (length_encRound hk s), encRound, mix_undone (length_shiftRows _) hk]

theorem encRound_decRound {k : Bytes} (hk : k.length = 16) (s : Bytes) :
    encRound (invSubBytes (invShiftRows (decRound s k))) k = invSubBytes (invShiftRows s) := by
  rw [encRound, round_redone (length_decRound s k), decRound, mix_redone (by simp) hk]

theorem foldl_decRound_encRound {ks : List Bytes} (hk : ∀ k ∈ ks, k.length = 16) (s : Bytes) :
    ks.reverse.foldl decRound (shiftRows (subBytes (ks.foldl encRound s))) = shiftRows (subBytes s) := by
  induction ks generalizing s with
  | nil => rfl
  | cons k ks ih =>
    rw [List.forall_mem_cons] at hk
    rw [List.reverse_cons, List.foldl_concat, List.foldl_cons, ih hk.2, decRound_encRound hk.1]

theorem foldl_encRound_decRound {ks : List Bytes} (hk : ∀ k ∈ ks, k.length = 16) (s : Bytes) :
    ks.foldl encRound (invSubBytes (invShiftRows (ks.reverse.foldl decRound s))) = invSubBytes (invShiftRows s) := by
  induction ks with
  | nil => rfl
  | cons k ks ih =>
    rw [List.forall_mem_cons] at hk
    rw [List.reverse_cons, List.foldl_concat, List.foldl_cons, encRound_decRound hk.1, ih hk.2]

/-! ### The whole cipher -/

/-- The round keys: the key itself, those of the middle rounds, the last. -/
theorem expandKey_eq_cons_concat {k : Bytes} (hk : k.length = 16) : ∃ ks kl, expandKey k = k :: (ks ++ [kl]) ∧
    (∀ x ∈ ks, x.length = 16) ∧ kl.length = 16 := by
  obtain ⟨k1, k2, k3, k4, k5, k6, k7, k8, k9, k10, hkeys, hlen⟩ := expandKey_eq hk
  exact ⟨[k1, k2, k3, k4, k5, k6, k7, k8, k9], k10, hkeys,
    fun x hx => hlen x (List.mem_cons_of_mem _ (List.mem_append_left [k10] hx)),
    hlen k10 (by simp)⟩

theorem aesD_aesE {k b : Bytes} (hk : k.length = 16) (hb : b.length = 16) : aesD k (aesE k b) = b := by
  obtain ⟨ks, kl, hkeys, hks, hkl⟩ := expandKey_eq_cons_concat hk
  rw [aesD, aesE, hkeys, encWithKeys_eq, decWithKeys_reverse_eq, xorBytes_cancel (by simp [hkl]),
    foldl_decRound_encRound hks, round_undone (by simp [hb, hk]), xorBytes_cancel (by simp [hb, hk])]

theorem aesE_aesD {k b : Bytes} (hk : k.length = 16) (hb : b.length = 16) : aesE k (aesD k b) = b := by
  obtain ⟨ks, kl, hkeys, hks, hkl⟩ := expandKey_eq_cons_concat hk
  have hx : (xorBytes b kl).length = 16 := by simp [hb, hkl]
  rw [aesE, aesD, hkeys, decWithKeys_reverse_eq, encWithKeys_eq, xorBytes_cancel (by simp [hk]),
    foldl_encRound_decRound hks, round_redone hx, xorBytes_cancel (by simp [hb, hkl])]

/-- Settles O30: each way the middle rounds come back key by key, and the outer layers cancel. -/
theorem cipherInverse : Obligations.CipherInverse := fun _ _ hk hb => ⟨aesD_aesE hk hb, aesE_aesD hk hb⟩

/-- Settles O31 by running the cipher in the kernel. -/
theorem cipherKnownAnswer : Obligations.CipherKnownAnswer := by
  unfold Obligations.CipherKnownAnswer
  decide +kernel

end Sys2Proof.Machine
end

section
/-! SUPPORT. Padding and chaining undone (42_aes128.md R191 to R194). -/

namespace Sys2Proof.Machine

open Sys2Proof

theorem unpad16_eq_some_iff (q u : Bytes) :
    unpad16 q = some u ↔ ∃ z, q = u ++ padMark :: List.replicate z 0#8 := by
  constructor
  · exact unpad16_eq_some
  · rintro ⟨z, rfl⟩
    exact unpad16_marked u z

theorem unpad16_pad16 (s : Bytes) : unpad16 (pad16 s) = some s :=
  (unpad16_eq_some_iff _ _).mpr ⟨15 - s.length % 16, by simp [pad16, zeros]⟩

/-- Settles O32: what strips is marked, and a padded string is a marked one. -/
theorem paddingInverse : Obligations.PaddingInverse :=
  ⟨fun s => ⟨unpad16_pad16 s, length_pad16 s⟩, unpad16_eq_some_iff⟩

/-! ### Chaining -/

/-- The blocks of a string of a multiple of 16 bytes make it up. -/
theorem flatten_blocks {s : Bytes} (hs : s.length % 16 = 0) : (blocks s).flatten = s := by
  obtain ⟨n, hn⟩ : ∃ n, s.length = 16 * n := ⟨s.length / 16, by omega⟩
  clear hs
  induction n generalizing s with
  | zero => rw [List.eq_nil_of_length_eq_zero hn, blocks_nil, List.flatten_nil]
  | succ n ih =>
    have hhead : (s.take 16).length = 16 := by rw [List.length_take]; omega
    have htail : (blocks (s.drop 16)).flatten = s.drop 16 := ih (by rw [List.length_drop]; omega)
    rw [← List.take_append_drop 16 s, blocks_append hhead, List.flatten_cons, htail]

/-- What encryption hands on is the last block of the ciphertext. -/
theorem cbcEncBlocks_snd {k v : Bytes} {bs : List Bytes} (hk : k.length = 16) (hv : v.length = 16)
    (hbs : ∀ b ∈ bs, b.length = 16) (hne : bs ≠ []) :
    (cbcEncBlocks k v bs).2 = (cbcEncBlocks k v bs).1.drop (16 * (bs.length - 1)) := by
  induction bs generalizing v with
  | nil => exact absurd rfl hne
  | cons b bs ih =>
    rw [List.forall_mem_cons] at hbs
    have hc : (aesE k (xorBytes b v)).length = 16 := length_aesE hk (by simp [hbs.1, hv])
    cases bs with
    | nil => simp [cbcEncBlocks]
    | cons b' bs =>
      have hdrop : 16 * ((b :: b' :: bs).length - 1) =
          (aesE k (xorBytes b v)).length + 16 * ((b' :: bs).length - 1) := by
        simp only [hc, List.length_cons]
        omega
      rw [cbcEncBlocks, ih hc hbs.2 (List.cons_ne_nil _ _), hdrop, List.drop_length_add_append]

/-- Decrypting block by block under the chained ciphertext gives the blocks back. -/
theorem cbcDecBlocks_cbcEncBlocks {k v : Bytes} {bs : List Bytes} (hk : k.length = 16) (hv : v.length = 16)
    (hbs : ∀ b ∈ bs, b.length = 16) :
    cbcDecBlocks k v (blocks (cbcEncBlocks k v bs).1) = (bs.flatten, (cbcEncBlocks k v bs).2) := by
  induction bs generalizing v with
  | nil => simp only [cbcEncBlocks, blocks_nil, cbcDecBlocks, List.flatten_nil]
  | cons b bs ih =>
    rw [List.forall_mem_cons] at hbs
    have hx : (xorBytes b v).length = 16 := by simp [hbs.1, hv]
    have hc : (aesE k (xorBytes b v)).length = 16 := length_aesE hk hx
    rw [cbcEncBlocks, blocks_append hc, cbcDecBlocks, ih hc hbs.2, aesD_aesE hk hx,
      xorBytes_cancel (by simp [hbs.1, hv]), List.flatten_cons]

/-- Settles O33: encryption and decryption run over the same blocks. -/
theorem chainingInverse : Obligations.ChainingInverse := by
  intro k iv s hk hiv hs hne
  have hbs : ∀ b ∈ blocks s, b.length = 16 := fun _ hb => length_of_mem_blocks hb
  have hcount : (blocks s).length = s.length / 16 := by simp [blocks, blockLen]
  have hpos : 0 < s.length := List.length_pos_iff.mpr hne
  have hlast : 16 * ((blocks s).length - 1) = s.length - 16 := by omega
  refine ⟨?_, ?_, ?_⟩
  · rw [(length_cbcEncrypt hk hiv s).1]
    omega
  · rw [← hlast]
    exact cbcEncBlocks_snd hk hiv hbs (List.ne_nil_of_length_pos (by omega))
  · exact (cbcDecBlocks_cbcEncBlocks hk hiv hbs).trans (by rw [flatten_blocks hs]; rfl)

end Sys2Proof.Machine
end

section
/-! SUPPORT. How an operation of the secure channel ends (43_secure_channel.md R200): with the error of the check that
fails, or with the writes of its body, which stay inside its footprint. -/

namespace Sys2Proof.Machine

open Sys2Proof

/-! ### Bodies run to their end -/

/-- The errors are raised in the state `u` in which the body began. -/
theorem raises_of_body {i : Instr} {s u : State} {body : Except Code State} {e : Code}
    (hx : exec i s = .next (finish u body)) (hb : body = .error e) : Raises i e s u := by
  subst hb
  exact raises_of_exec hx

theorem exec_of_body {i : Instr} {s t u : State} {body : Except Code State}
    (hx : exec i s = .next (finish u body)) (hb : body = .ok t) : exec i s = .next (complete .ok t) := by
  subst hb
  exact hx

/-- An operation leaves alone the bytes of the buffers that its footprint does not name. -/
theorem sameBytesBut_of_footprint {i : Instr} {s t : State} {bs : List Buf} (hi : isOperation i = true)
    (h : exec i s = .next t) (hbs : ∀ b, Place.bytes b ∈ footprint s.cfg i → b ∈ bs) : SameBytesBut bs s t :=
  fun b hb => sameBytes_of_within (exec_within_footprint i s t h) (fun hm => hb (hbs b hm)) 
    (host_not_written hi _ (by simp))

/-! ### Reads -/

@[simp] theorem keyBytes_complete (o : Code) (s : State) (b : Buf) : keyBytes (complete o s) b = keyBytes s b :=
  keyBytes_congr rfl rfl b

@[simp] theorem keyBytes_setKeyFlags (s : State) (x y z : Bool) (b : Buf) :
    keyBytes (setKeyFlags s x y z) b = keyBytes s b := keyBytes_congr rfl rfl b

@[simp] theorem keyBytes_setMacOk (s : State) (v : Bool) (b : Buf) : keyBytes (setMacOk s v) b = keyBytes s b :=
  keyBytes_congr rfl rfl b

theorem keyBytes_forget_other (s : State) {b b' : Buf} (hb : b' ≠ b) : keyBytes (forget s b) b' = keyBytes s b' :=
  keyBytes_setBuffer_other s hb []

theorem keyBytes_sameBytesBut {bs : List Buf} {s t : State} {b : Buf} (h : SameBytesBut bs s t) (hb : b ∉ bs) :
    keyBytes t b = keyBytes s b := memRead_sameBytes (h b hb) (by decide)

theorem take_memRead (s : State) (b : Buf) (off : Nat) {k n : Nat} (h : k ≤ n) :
    (memRead s b off n).take k = memRead s b off k := by
  rw [memRead, ← List.map_take, List.take_range, Nat.min_eq_left h, memRead]

end Sys2Proof.Machine
end

section
/-! SUPPORT. LOAD_SCBK, LOAD_IV, DERIVE_KEYS and CRYPTOGRAM (43_secure_channel.md R201 to R205): each lemma says what
the buffers written hold afterwards. -/

namespace Sys2Proof.Machine

open Sys2Proof

/-! ### Loading key material -/

/-- The base key stands through the loss of the keys of the old session (43_secure_channel.md R201). -/
theorem keyBytes_loadScbk (s : State) {v : Bytes} (hv : v.length = 16) :
    keyBytes (forget (forget (forget (forget (setBuffer s .scbk v) .sEnc) .sMac1) .sMac2) .ivc) .scbk = v := by
  rw [keyBytes_forget_other _ (by decide), keyBytes_forget_other _ (by decide), keyBytes_forget_other _ (by decide),
    keyBytes_forget_other _ (by decide), keyBytes_setBuffer_same s .scbk hv]

/-- Settles O34: LOAD_SCBK's one check, then its writes. -/
theorem loadScbkLoads : Obligations.LoadScbkLoads := by
  intro s
  rcases execLoadScbk_cases s with ⟨hx, hlen⟩ | ⟨hx, hlen⟩
  · exact ⟨fun _ => raises_of_exec hx, fun h => absurd (congrArg BitVec.toNat h) hlen⟩
  · refine ⟨fun h => absurd (BitVec.eq_of_toNat_eq hlen) h, fun _ => ⟨_, hx,
      completed_complete (by simp [forget]), ?_, rfl, rfl, rfl, sameBytesBut_of_footprint rfl hx (by simp), ?_⟩⟩
    · rw [keyBytes_complete, keyBytes_setKeyFlags, keyBytes_loadScbk s (length_memRead ..)]
    · simp [undoCompletion, forget]

/-- Settles O35: LOAD_IV's one check, then its writes. -/
theorem loadIvLoads : Obligations.LoadIvLoads := by
  intro s
  rcases execLoadIv_cases s with ⟨hx, hlen⟩ | ⟨hx, hlen⟩
  · exact ⟨fun _ => raises_of_exec hx, fun h => absurd (congrArg BitVec.toNat h) hlen⟩
  · refine ⟨fun h => absurd (BitVec.eq_of_toNat_eq hlen) h, fun _ => ⟨_, hx, completed_complete rfl, ?_, rfl,
      sameBytesBut_of_footprint rfl hx (by simp), rfl⟩⟩
    rw [keyBytes_complete, keyBytes_setKeyFlags, keyBytes_setBuffer_same s .ivc (length_memRead ..)]

/-! ### Session keys and cryptogram -/

/-- The template of a session key, of which the last two challenge bytes are no part (43_secure_channel.md R204). -/
theorem keyTemplate_challenge (s : State) (x y : Byte) :
    keyTemplate x y (memRead s .opb 0 8) = [x, y] ++ memRead s .opb 0 6 ++ List.replicate 8 0#8 := by
  rw [keyTemplate, take_memRead s .opb 0 (by decide), zeros]

/-- Three keys written one after the other, and the IV forgotten, read back (43_secure_channel.md R203). -/
theorem keyBytes_deriveKeys (s : State) {x y z : Bytes} (hx : x.length = 16) (hy : y.length = 16)
    (hz : z.length = 16) :
    let t := forget (setBuffer (setBuffer (setBuffer s .sEnc x) .sMac1 y) .sMac2 z) .ivc
    keyBytes t .sEnc = x ∧ keyBytes t .sMac1 = y ∧ keyBytes t .sMac2 = z := by
  refine ⟨?_, ?_, ?_⟩ <;> rw [keyBytes_forget_other _ (by decide)]
  · rw [keyBytes_setBuffer_other _ (by decide), keyBytes_setBuffer_other _ (by decide), keyBytes_setBuffer_same s _ hx]
  · rw [keyBytes_setBuffer_other _ (by decide), keyBytes_setBuffer_same _ _ hy]
  · exact keyBytes_setBuffer_same _ _ hz

/-- Settles O36: DERIVE_KEYS's checks in their order, then the key of each template. -/
theorem deriveKeysDerives : Obligations.DeriveKeysDerives := by
  intro s
  rcases execDeriveKeys_cases s with ⟨hx, hkey⟩ | ⟨hx, hkey, hlen⟩ | ⟨hx, hkey, hlen⟩
  · exact ⟨fun _ => raises_of_exec hx, fun h => absurd (hkey.symm.trans h) Bool.false_ne_true,
      fun h => absurd (hkey.symm.trans h) Bool.false_ne_true⟩
  · exact ⟨fun h => absurd (h.symm.trans hkey) Bool.false_ne_true, fun _ _ => raises_of_exec hx,
      fun _ h => absurd (congrArg BitVec.toNat h) hlen⟩
  · refine ⟨fun h => absurd (h.symm.trans hkey) Bool.false_ne_true,
      fun _ h => absurd (BitVec.eq_of_toNat_eq hlen) h, fun _ _ => ⟨_, hx,
      completed_complete (by simp [forget]), ?_, rfl, rfl, sameBytesBut_of_footprint rfl hx (by simp), ?_⟩⟩
    · simp only [keyTemplate_challenge, List.forall_mem_cons, keyBytes_complete, keyBytes_setKeyFlags]
      have hlen (y : Byte) : (aesE (keyBytes s .scbk)
          ([0x01#8, y] ++ memRead s .opb 0 6 ++ List.replicate 8 0#8)).length = 16 :=
        length_aesE (length_keyBytes s .scbk) (by simp)
      obtain ⟨henc, hmac1, hmac2⟩ := keyBytes_deriveKeys s (hlen 0x82#8) (hlen 0x01#8) (hlen 0x02#8)
      exact ⟨henc, hmac1, hmac2, by simp⟩
    · simp [undoCompletion, forget]

/-- Settles O37: CRYPTOGRAM's checks in their order, then the block in RES. -/
theorem cryptogramEncrypts : Obligations.CryptogramEncrypts := by
  intro s
  rcases execCryptogram_cases s with ⟨hx, hkey⟩ | ⟨hx, hkey, hlen⟩ | ⟨hx, hkey, hlen⟩
  · exact ⟨fun _ => raises_of_exec hx, fun h => absurd (hkey.symm.trans h) Bool.false_ne_true,
      fun h => absurd (hkey.symm.trans h) Bool.false_ne_true⟩
  · exact ⟨fun h => absurd (h.symm.trans hkey) Bool.false_ne_true, fun _ _ => raises_of_exec hx,
      fun _ h => absurd (congrArg BitVec.toNat h) hlen⟩
  · refine ⟨fun h => absurd (h.symm.trans hkey) Bool.false_ne_true,
      fun _ h => absurd (BitVec.eq_of_toNat_eq hlen) h, fun _ _ => ⟨_, hx, completed_complete rfl, ?_, rfl,
      sameBytesBut_of_footprint rfl hx (by simp), rfl⟩⟩
    have hblock := length_aesE (length_keyBytes s .sEnc) (length_memRead s .opb 0 16)
    exact keyBytes_setBuffer_same s .res hblock

end Sys2Proof.Machine
end

section
/-! SUPPORT. ENCRYPT and DECRYPT (43_secure_channel.md R220, R225): their checks in order, and what they leave of the
payload, its length and the IV. -/

namespace Sys2Proof.Machine

open Sys2Proof

/-! ### The state they leave -/

/-- The end of ENCRYPT and of DECRYPT: the payload of bank `m` is `p` and the IV `v`. -/
def ciphered (m : BankSel) (p v : Bytes) (s : State) : State := complete .ok (setBuffer (setPayload s m p) .ivc v)

theorem mselBuf_ne_ivc (m : BankSel) : mselBuf m ≠ .ivc := by cases m <;> decide

theorem mselLen_ciphered (m : BankSel) (p v : Bytes) (s : State) :
    mselLen (ciphered m p v s) m = BitVec.ofNat 16 p.length := by cases m <;> rfl

theorem mselLen_le_span (s : State) (m : BankSel) : (mselLen s m).toNat ≤ bufSpan :=
  ((mselLen s m).isLt.trans (by decide)).le

theorem payload_ciphered {m : BankSel} {p v : Bytes} {s : State} (hp : p.length ≤ 65535) :
    payload (ciphered m p v s) m = p := by
  have hlen : mselLen (ciphered m p v s) m = mselLen (setPayload s m p) m := by
    rw [mselLen_ciphered, setPayload_mselLen]
  rw [payload, hlen, ciphered, memRead_complete,
    memRead_setBuffer_other _ (mselBuf_ne_ivc m) _ (by rw [Nat.zero_add]; exact mselLen_le_span _ m)]
  exact payload_setPayload s m hp

theorem keyBytes_ciphered {m : BankSel} {p v : Bytes} {s : State} (hv : v.length = 16) :
    keyBytes (ciphered m p v s) .ivc = v := by
  rw [ciphered, keyBytes_complete, keyBytes_setBuffer_same _ _ hv]

theorem completed_ciphered (m : BankSel) (p v : Bytes) (s : State) : Completed .ok s (ciphered m p v s) :=
  completed_complete (by simp)

/-- Nothing but the payload of bank `m`, its length, the IV and the completion registers differs. -/
def CipherFrame (m : BankSel) (s t : State) : Prop :=
  SameBytesBut [mselBuf m, .ivc] s t ∧
  (m = .mt → t.mr = s.mr ∧ { t.mt with plen := s.mt.plen } = s.mt) ∧
  (m = .mr → t.mt = s.mt ∧ { t.mr with plen := s.mr.plen } = s.mr) ∧
  undoCompletion s { t with mem := s.mem, mt := s.mt, mr := s.mr } = s

theorem cipherFrame_ciphered (m : BankSel) (p v : Bytes) (s : State) : CipherFrame m s (ciphered m p v s) := by
  refine ⟨?_, ?_, ?_, ?_⟩
  · have hpayload : SameBytesBut [mselBuf m, .ivc] s (setPayload s m p) :=
      sameBytesBut_congr (sameBytesBut_setBuffer (fun b _ => sameBytes_refl b s) (by simp) p)
        (setPayload_mem s m p) (setPayload_freeCount s m p)
    exact sameBytesBut_congr (sameBytesBut_setBuffer hpayload (by simp) v) rfl rfl
  · rintro rfl
    exact ⟨rfl, rfl⟩
  · rintro rfl
    exact ⟨rfl, rfl⟩
  · simp [undoCompletion, ciphered]

/-! ### ENCRYPT -/

theorem length_pad16_payload (s : State) (m : BankSel) :
    (pad16 (payload s m)).length = 16 * ((mselLen s m).toNat / 16 + 1) := by rw [length_pad16, length_payload]

/-- The size check in terms of the length register (43_secure_channel.md R220). -/
theorem payCap_lt_pad16_iff (s : State) (m : BankSel) :
    payCap < (pad16 (payload s m)).length ↔ 65520 ≤ (mselLen s m).toNat := by
  rw [length_pad16_payload, payCap]
  omega

/-- The ciphertext of the payload and the next IV (43_secure_channel.md R220). -/
def encrypted (k : KeySel) (m : BankSel) (s : State) : Bytes × Bytes :=
  cbcEncrypt (keyBytes s (kselBuf k)) (keyBytes s .ivc) (pad16 (payload s m))

theorem length_encrypted (k : KeySel) (m : BankSel) (s : State) :
    (encrypted k m s).1.length = 16 * ((mselLen s m).toNat / 16 + 1) ∧ (encrypted k m s).2.length = 16 := by
  obtain ⟨hc, hv⟩ := length_cbcEncrypt (length_keyBytes s (kselBuf k)) (length_keyBytes s .ivc) (pad16 (payload s m))
  rw [length_pad16_payload] at hc
  exact ⟨hc.trans (by omega), hv⟩

theorem exec_encrypt_of_checks {k : KeySel} {m : BankSel} {s : State} (hkey : kselFlag s k = true)
    (hiv : s.status.ivcV = true) (hlen : (mselLen s m).toNat < 65520) :
    exec (.encrypt k m) s = .next (ciphered m (encrypted k m s).1 (encrypted k m s).2 s) := by
  have hcap : ¬ payCap < (pad16 (payload s m)).length := by
    rw [payCap_lt_pad16_iff]
    omega
  refine exec_of_body rfl ?_
  rw [encryptBody, if_neg (by simp [hkey]), if_neg (by simp [hiv]), if_neg hcap]
  rfl

/-- Settles O40: ENCRYPT's checks in their order, then the ciphertext and its last block. -/
theorem encryptTransforms : Obligations.EncryptTransforms := by
  intro k m s
  split_ifs with hkey hiv hlen
  · exact raises_of_body rfl (if_pos hkey)
  · exact raises_of_body rfl ((if_neg hkey).trans (if_pos hiv))
  · exact raises_of_body rfl ((if_neg hkey).trans ((if_neg hiv).trans (if_pos ((payCap_lt_pad16_iff s m).mpr hlen))))
  · obtain ⟨hc, hv⟩ := length_encrypted k m s
    have hp : (encrypted k m s).1.length ≤ 65535 := by omega
    refine ⟨_, exec_encrypt_of_checks (Bool.eq_true_of_not_eq_false hkey) (Bool.eq_true_of_not_eq_false hiv) (by omega),
      completed_ciphered m _ _ s, ?_, ?_, cipherFrame_ciphered m _ _ s⟩
    · rw [payload_ciphered hp, keyBytes_ciphered hv]
      rfl
    · rw [mselLen_ciphered, toNat_ofNat_of_lt (by omega), hc]

/-! ### DECRYPT -/

/-- The plaintext of the payload, its padding still on, and the next IV (43_secure_channel.md R225). -/
def decrypted (k : KeySel) (m : BankSel) (s : State) : Bytes × Bytes :=
  cbcDecrypt (keyBytes s (kselBuf k)) (keyBytes s .ivc) (payload s m)

theorem length_decrypted_snd (k : KeySel) (m : BankSel) (s : State) : (decrypted k m s).2.length = 16 :=
  length_cbcDecrypt (length_keyBytes s .ivc) (payload s m)

/-- No plaintext is longer than what it was decrypted from. -/
theorem length_of_unpad16_decrypted {k : KeySel} {m : BankSel} {s : State} {u : Bytes}
    (h : unpad16 (decrypted k m s).1 = some u) : u.length ≤ 65535 := by
  have hstrip := length_unpad16_le h
  have hplain := length_cbcDecrypt_le (k := keyBytes s (kselBuf k)) (length_keyBytes s .ivc) (payload s m)
  have hlen := (mselLen s m).isLt
  rw [length_payload] at hplain
  rw [decrypted] at hstrip
  omega

section
variable {k : KeySel} {m : BankSel} {s : State} (hkey : kselFlag s k = true) (hiv : s.status.ivcV = true)
  (hmod : (mselLen s m).toNat % 16 = 0) (hpos : (mselLen s m).toNat ≠ 0)
include hkey hiv hmod hpos

/-- DECRYPT past its checks on the flags and on the length turns on the marker. -/
theorem decryptBody_of_checks : decryptBody k m s = (unpad16 (decrypted k m s).1).elim (.error .unpaddedCiphertext)
    (fun u => .ok (setBuffer (setPayload s m u) .ivc (decrypted k m s).2)) := by
  have hlen : ¬ ((mselLen s m).toNat % blockLen ≠ 0 ∨ (mselLen s m).toNat = 0) := by
    rw [blockLen]
    omega
  rw [decryptBody, if_neg (by simp [hkey]), if_neg (by simp [hiv]), if_neg hlen]
  dsimp only
  rw [← decrypted]
  cases unpad16 (decrypted k m s).1 <;> rfl

theorem raises_decrypt_of_unmarked (h : unpad16 (decrypted k m s).1 = none) :
    Raises (.decrypt k m) .unpaddedCiphertext s s :=
  raises_of_body rfl (by rw [decryptBody_of_checks hkey hiv hmod hpos, h, Option.elim_none])

theorem exec_decrypt_of_marked {u : Bytes} (h : unpad16 (decrypted k m s).1 = some u) :
    exec (.decrypt k m) s = .next (ciphered m u (decrypted k m s).2 s) :=
  exec_of_body rfl (by rw [decryptBody_of_checks hkey hiv hmod hpos, h, Option.elim_some])

end

/-- Settles O41: DECRYPT's checks in their order, the marker the last of them, then the plaintext before it. -/
theorem decryptTransforms : Obligations.DecryptTransforms := by
  intro k m s q last hq
  change (q, last) = decrypted k m s at hq
  split_ifs with hkey hiv hlen
  · exact raises_of_body rfl (if_pos hkey)
  · exact raises_of_body rfl ((if_neg hkey).trans (if_pos hiv))
  · exact raises_of_body rfl ((if_neg hkey).trans ((if_neg hiv).trans (if_pos hlen)))
  · have hkey := Bool.eq_true_of_not_eq_false hkey
    have hiv := Bool.eq_true_of_not_eq_false hiv
    obtain ⟨hmod, hpos⟩ := not_or.mp hlen
    have hmod := not_not.mp hmod
    refine ⟨fun hunmarked => raises_decrypt_of_unmarked hkey hiv hmod hpos ?_, fun u z hz => ?_⟩
    · rw [← hq, Option.eq_none_iff_forall_ne_some]
      intro u hu
      obtain ⟨z, hz⟩ := unpad16_eq_some hu
      exact hunmarked u z hz
    · have hu : unpad16 (decrypted k m s).1 = some u := by
        rw [← hq]
        exact (unpad16_eq_some_iff q u).mpr ⟨z, hz⟩
      have hlen := length_of_unpad16_decrypted hu
      have hlast := length_decrypted_snd k m s
      have hx := exec_decrypt_of_marked hkey hiv hmod hpos hu
      rw [← hq] at hlast hx
      refine ⟨_, hx, completed_ciphered m u last s, payload_ciphered hlen, ?_, keyBytes_ciphered hlast,
        cipherFrame_ciphered m u last s⟩
      rw [mselLen_ciphered, toNat_ofNat_of_lt (by omega)]

/-! ### There and back -/

/-- Settles O43: DECRYPT runs over the blocks that ENCRYPT left, with the key and the IV it began with. -/
theorem payloadRoundTrip : Obligations.PayloadRoundTrip := by
  intro k m s t u hlen hkey hiv hx hpay hkeyU hivU hkeyEq hivEq
  rw [exec_encrypt_of_checks hkey hiv hlen] at hx
  cases hx
  obtain ⟨hc, hv⟩ := length_encrypted k m s
  obtain ⟨-, hlast, hback⟩ := chainingInverse _ _ (pad16 (payload s m)) (length_keyBytes s (kselBuf k))
    (length_keyBytes s .ivc) (by rw [length_pad16]; omega) (by simp [pad16])
  rw [length_pad16_payload] at hlast
  rw [payload_ciphered (by omega)] at hpay
  have hlenU : (mselLen u m).toNat = 16 * ((mselLen s m).toNat / 16 + 1) := by rw [← length_payload, hpay, hc]
  have hdec : decrypted k m u = (pad16 (payload s m), (encrypted k m s).2) := by
    rw [decrypted, hpay, hkeyEq, hivEq]
    exact hback
  have hxU := exec_decrypt_of_marked (m := m) hkeyU hivU (by omega) (by omega) (u := payload s m)
    (by rw [hdec, unpad16_pad16])
  have hpayS : (payload s m).length ≤ 65535 := by rw [length_payload]; omega
  rw [payload_ciphered (by omega), keyBytes_ciphered hv, mselLen_ciphered, toNat_ofNat_of_lt (by omega), hc]
  refine ⟨hlast, _, hxU, rfl, payload_ciphered hpayS, ?_⟩
  rw [hdec, keyBytes_ciphered hv]

end Sys2Proof.Machine
end

section
/-! SUPPORT. GEN_MAC and VERIFY_MAC (43_secure_channel.md R210, R215): their checks in order, what they leave, and that
the one accepts the frame of the other (R216). -/

namespace Sys2Proof.Machine

open Sys2Proof

/-! ### GEN_MAC -/

/-- The MAC and its CRC are the last 6 bytes of a frame that has them (43_secure_channel.md R210). -/
theorem beforeMac_withCrc (front : Bytes) {mac : Bytes} (h : mac.length = 4) :
    beforeMac (withCrc (front ++ mac)) = front := by
  have hlen : (withCrc (front ++ mac)).length - (macLen + crcLen) = front.length := by
    rw [length_withCrc, List.length_append, h, macLen, crcLen]
    omega
  rw [beforeMac, hlen, withCrc, List.append_assoc, List.take_left]

/-- What GEN_MAC computes the MAC of is the frame of bank MT up to its MAC field. -/
theorem beforeMac_encodeMt {s : State} {f : Bytes} (h : encodeMt s = .ok f) (hb : mtMacBearing s = true) :
    beforeMac f = mtFront s := by
  obtain ⟨rfl, -⟩ := encodeMt_ok h
  exact beforeMac_withCrc _ (by rw [hb]; rfl)

/-- The bounds of an encoded frame under legal parameters (00_scope.md R12). -/
theorem length_encodeMt_bounds {s : State} {f : Bytes} (hc : s.cfg.Legal) (h : encodeMt s = .ok f) :
    8 ≤ f.length ∧ f.length ≤ 65535 := by
  obtain ⟨⟨-, hmax⟩, -⟩ := hc
  obtain ⟨hmin, hlt, -⟩ := encodeMt_head hmax h
  exact ⟨hmin, by omega⟩

section
variable {s : State} {f : Bytes}

theorem macedFrame_txfLen (hc : s.cfg.Legal) (h : encodeMt s = .ok f) :
    (macedFrame s f).txfLen.toNat = f.length := by
  obtain ⟨hmin, hmax⟩ := length_encodeMt_bounds hc h
  obtain ⟨hmac, -⟩ := length_sessionMac s (beforeMac f)
  have hreg : (macedFrame s f).txfLen = BitVec.ofNat 16 f.length := by
    rw [← length_withCrc_beforeMac (by omega : 6 ≤ f.length) hmac]
    simp [macedFrame]
  rw [hreg, toNat_ofNat_of_lt (by omega)]

/-- The three buffers GEN_MAC writes read back (43_secure_channel.md R210). -/
theorem memRead_macedFrame (hc : s.cfg.Legal) (h : encodeMt s = .ok f) :
    txfFrame (macedFrame s f) = withCrc (beforeMac f ++ (sessionMac s (beforeMac f)).1) ∧
    memRead (macedFrame s f) .mtMac 0 4 = (sessionMac s (beforeMac f)).1 ∧
    keyBytes (macedFrame s f) .ivc = (sessionMac s (beforeMac f)).2 := by
  obtain ⟨hmin, hmax⟩ := length_encodeMt_bounds hc h
  obtain ⟨hmac, hlast⟩ := length_sessionMac s (beforeMac f)
  have hlen := length_withCrc_beforeMac (f := f) (by omega) hmac
  have htxf := txfFrame_setTxf s (hlen.trans_le hmax)
  have htxfLen := macedFrame_txfLen hc h
  rw [txfFrame, setTxf_txfLen, hlen, toNat_ofNat_of_lt (by omega)] at htxf
  have hspan : 0 + (sessionMac s (beforeMac f)).1.length ≤ bufSpan := by rw [hmac]; decide
  refine ⟨?_, ?_, keyBytes_setBuffer_same _ .ivc hlast⟩
  · rw [txfFrame, htxfLen, macedFrame, memRead_setBuffer_other _ (by decide) _ (by unfold bufSpan; omega),
      memRead_memWrite_other _ (by decide) _ hspan (by unfold bufSpan; omega), htxf]
  · rw [macedFrame, memRead_setBuffer_other _ (by decide) _ (by decide)]
    have hread := memRead_memWrite_same (setTxf s (withCrc (beforeMac f ++ (sessionMac s (beforeMac f)).1))) .mtMac 0
      (sessionMac s (beforeMac f)).1
    rwa [hmac] at hread

/-- GEN_MAC past its checks on the flags turns on `encode_mt` (43_secure_channel.md R210). -/
theorem genMacBody_of_checks (hb : mtMacBearing s = true) (hkey : s.status.skV = true) (hiv : s.status.ivcV = true) :
    (∀ e, encodeMt s = .error e → genMacBody s = .error e) ∧
    ∀ f, encodeMt s = .ok f → genMacBody s = .ok (macedFrame s f) := by
  rw [genMacBody, if_neg (by simp [hb]), if_neg (by simp [hkey]), if_neg (by simp [hiv])]
  exact ⟨fun e h => by rw [h], fun f h => by rw [h]⟩

/-- GEN_MAC raises a code that is seen in ERR, or builds its frame. -/
theorem genMac_ok {t : State} (h : exec .genMac s = .next t) (herr : t.err = 0#8) :
    ∃ f, mtMacBearing s = true ∧ encodeMt s = .ok f ∧ t = complete .ok (macedFrame s f) := by
  have hraise {e : Code} (hb : genMacBody s = .error e) (he : e ≠ .ok) : False := by
    obtain ⟨t', ht, ⟨hcode, -⟩, -⟩ := raises_of_body (i := .genMac) rfl hb
    obtain rfl : t' = t := Host.Outcome.next.inj (ht.symm.trans h)
    exact he ((code_number_eq_zero e).mp (hcode.symm.trans herr))
  rcases genMacBody_cases s with ⟨hb, -⟩ | ⟨hb, -⟩ | ⟨hb, -⟩ | ⟨hmac, -, -, ⟨e, hb, he⟩ | ⟨f, hb, hf⟩⟩
  · exact (hraise hb (by decide)).elim
  · exact (hraise hb (by decide)).elim
  · exact (hraise hb (by decide)).elim
  · exact (hraise hb (by rintro rfl; exact absurd (encodeMt_error he) (by decide))).elim
  · exact ⟨f, hmac, hf, Host.Outcome.next.inj (h.symm.trans (exec_of_body rfl hb))⟩

end

theorem undo_macedFrame (s : State) (f : Bytes) :
    undoCompletion s { complete .ok (macedFrame s f) with
      mem := s.mem, txfLen := s.txfLen,
      status := { (complete .ok (macedFrame s f)).status with txfV := s.status.txfV } } = s := by
  simp [undoCompletion, macedFrame]

/-- Settles O38: GEN_MAC's checks in their order, those of `encode_mt` the last, then the frame with its MAC. -/
theorem genMacBuildsFrame : Obligations.GenMacBuildsFrame := by
  intro s hc
  have hbearing := mtMacBearing_iff s
  refine ⟨fun hplain => ?_, fun hsec htype => ?_⟩
  · have hno : mtMacBearing s = false := by
      rw [Bool.eq_false_iff, Ne, hbearing]
      rintro ⟨hsec, htype⟩
      rcases hplain with h | h
      · exact absurd (h.symm.trans hsec) (by decide)
      · omega
    exact raises_of_body rfl (if_pos hno)
  · have hb : mtMacBearing s = true := hbearing.mpr ⟨hsec, htype⟩
    have hb' : ¬ mtMacBearing s = false := by simp [hb]
    refine ⟨fun hkey => raises_of_body rfl ((if_neg hb').trans (if_pos hkey)), fun hkey hiv => ?_, fun hkey hiv => ?_⟩
    · exact raises_of_body rfl ((if_neg hb').trans ((if_neg (by simp [hkey])).trans (if_pos hiv)))
    · obtain ⟨hraise, hbuild⟩ := genMacBody_of_checks hb hkey hiv
      refine ⟨fun e he => raises_of_body rfl (hraise e he), fun f front mac last hf hfront hmac => ?_⟩
      change (mac, last) = sessionMac s front at hmac
      have hx : exec .genMac s = .next (complete .ok (macedFrame s f)) := exec_of_body rfl (hbuild f hf)
      obtain ⟨htxf, hmtMac, hivc⟩ := memRead_macedFrame hc hf
      have htxfLen := macedFrame_txfLen hc hf
      obtain rfl : front = beforeMac f := hfront
      rw [← hmac] at htxf hmtMac hivc
      rw [txfFrame, htxfLen] at htxf
      refine ⟨_, hx, completed_complete (by simp [macedFrame]), htxfLen, ?_, macedFrame_txfV s f, ?_, ?_,
        sameBytesBut_of_footprint rfl hx (by simp), undo_macedFrame s f⟩
      · rw [memRead_complete, htxf, withCrc]
      · rw [memRead_complete, hmtMac]
      · rw [keyBytes_complete, hivc]

/-! ### VERIFY_MAC -/

/-- The MAC VERIFY_MAC compares with MR_MAC, and the block it is cut from (43_secure_channel.md R215). -/
def receivedMac (s : State) : Bytes × Bytes := sessionMac s (memRead s .rxf 0 (s.rxfLen.toNat - 6))

theorem length_receivedMac (s : State) : (receivedMac s).2.length = 16 := by
  obtain ⟨-, hlast⟩ := length_sessionMac s (memRead s .rxf 0 (s.rxfLen.toNat - 6))
  exact hlast

theorem receivedMac_setMacOk (s : State) (b : Bool) : receivedMac (setMacOk s b) = receivedMac s := by
  simp [receivedMac, sessionMac]

section
variable {s : State} (hvalid : s.status.mrValid = true) (hsec : ¬ (s.mr.secure = 0#1 ∨ s.mr.macv = 0#1))
  (hkey : s.status.skV = true) (hiv : s.status.ivcV = true)
include hvalid hsec hkey hiv

/-- VERIFY_MAC past its checks on the flags and on bank MR turns on the comparison. -/
theorem verifyMacBody_of_checks : verifyMacBody s = if (receivedMac s).1 ≠ memRead s .mrMac 0 4 then
    .error .macMismatch else .ok (setBuffer (setMacOk s true) .ivc (receivedMac s).2) := by
  rw [verifyMacBody, if_neg (by simp [hvalid]), if_neg hsec, if_neg (by simp [hkey]), if_neg (by simp [hiv])]
  rfl

theorem raises_verifyMac_of_mismatch (h : (receivedMac s).1 ≠ memRead s .mrMac 0 4) :
    Raises .verifyMac .macMismatch s (setMacOk s false) := by
  refine raises_of_body rfl ((verifyMacBody_of_checks (s := setMacOk s false) hvalid hsec hkey hiv).trans (if_pos ?_))
  rwa [receivedMac_setMacOk, memRead_setMacOk]

/-- A match sets MAC_OK and advances IVC, and VERIFY_MAC writes nothing else (43_secure_channel.md R215). -/
theorem verifyMac_of_match (h : (receivedMac s).1 = memRead s .mrMac 0 4) :
    ∃ t, exec .verifyMac s = .next t ∧ Completed .ok s t ∧ t.status.macOk = true ∧
      keyBytes t .ivc = (receivedMac s).2 ∧ SameBytesBut [.ivc] s t ∧
      undoCompletion s { t with mem := s.mem, status := { t.status with macOk := s.status.macOk } } = s := by
  have hmatch : ¬ (receivedMac (setMacOk s false)).1 ≠ memRead (setMacOk s false) .mrMac 0 4 := by
    rw [receivedMac_setMacOk, memRead_setMacOk]
    exact not_not.mpr h
  have hx : exec .verifyMac s = .next _ :=
    exec_of_body rfl ((verifyMacBody_of_checks (s := setMacOk s false) hvalid hsec hkey hiv).trans (if_neg hmatch))
  rw [receivedMac_setMacOk] at hx
  refine ⟨_, hx, completed_complete rfl, rfl, ?_, sameBytesBut_of_footprint rfl hx (by simp), rfl⟩
  rw [keyBytes_complete, keyBytes_setBuffer_same _ .ivc (length_receivedMac s)]

end

/-- Settles O39: VERIFY_MAC's checks in their order, all made with MAC_OK clear, then the match. -/
theorem verifyMacChecks : Obligations.VerifyMacChecks := by
  intro s mac last hm
  have hmac : mac = (receivedMac s).1 := congrArg Prod.fst hm
  have hlast : last = (receivedMac s).2 := congrArg Prod.snd hm
  split_ifs with hvalid hsec hkey hiv hmatch
  · exact raises_of_body rfl (if_pos hvalid)
  · exact raises_of_body rfl ((if_neg hvalid).trans (if_pos hsec))
  · exact raises_of_body rfl ((if_neg hvalid).trans ((if_neg hsec).trans (if_pos hkey)))
  · exact raises_of_body rfl ((if_neg hvalid).trans ((if_neg hsec).trans ((if_neg hkey).trans (if_pos hiv))))
  all_goals
    have hvalid := Bool.eq_true_of_not_eq_false hvalid
    have hkey := Bool.eq_true_of_not_eq_false hkey
    have hiv := Bool.eq_true_of_not_eq_false hiv
    rw [hmac] at hmatch
  · exact raises_verifyMac_of_mismatch hvalid hsec hkey hiv hmatch
  · rw [hlast]
    exact verifyMac_of_match hvalid hsec hkey hiv (not_not.mp hmatch)

/-! ### Both ends -/

/-- A frame of bank MT decodes with the MAC that stands in its MAC field (41_codec.md R161). -/
theorem decodeFrame_maced {s : State} {f mac : Bytes} (hc : s.cfg.Legal) (h : encodeMt s = .ok f)
    (hb : mtMacBearing s = true) (hm : mac.length = 4) :
    ∃ r, decodeFrame (withCrc (mtFront s ++ mac)) = .ok r ∧ r.scb = 1#1 ∧ r.macv = true ∧ r.mac = mac ∧
      r.raw = withCrc (mtFront s ++ mac) := by
  obtain ⟨hf, -, hcheck⟩ := encodeMt_ok h
  obtain ⟨-, hmax⟩ := length_encodeMt_bounds hc h
  obtain ⟨-, -, -, hscb⟩ := mtCtrl_of_mtCheck hcheck
  obtain ⟨hsec, -⟩ := (mtMacBearing_iff s).mp hb
  have hfield : macField (mtMacBearing s) = 4 := by rw [hb]; rfl
  have hmac : mac.length = macField ((mtCtrl s).getLsbD 3 && decide (scsMacThreshold < (mtFrameType s).toNat)) := by
    rw [mtMacBearing_layout hcheck, hm, hfield]
  have hlength : (withCrc (mtFront s ++ mac)).length = mtTotal s := by
    rw [← length_encodeMt h, hf]
    simp [length_withCrc, zeros, hm, hfield]
  have hl : (BitVec.ofNat 16 (mtTotal s)).toNat = (withCrc (mtFront s ++ mac)).length := by
    rw [hlength, toNat_ofNat_of_lt (by rw [← length_encodeMt h]; omega)]
  obtain ⟨hnone, hfields⟩ := decode_layout (mtSecureBlock_layout hcheck) hmac (hl.trans (length_withCrc _)) 0 []
  rw [List.append_nil, ← mtFront_layout] at hnone hfields
  refine ⟨_, decodeFrame_of_check_none (noise := []) (by simp) hnone, ?_⟩
  rw [mtMacBearing_layout hcheck, hb] at hfields
  exact ⟨(congrArg Frame.scb hfields).trans (hscb.trans hsec), congrArg Frame.macv hfields, congrArg Frame.mac hfields,
    congrArg Frame.raw hfields⟩

/-- What VERIFY_MAC reads of bank MR and of RXF, when they hold a decoded frame (43_secure_channel.md R215). -/
theorem verifyMac_reads {r : Frame} {t : State} (h : BankHolds r t) :
    t.mr.secure = r.scb ∧ t.mr.macv = BitVec.ofBool r.macv ∧ memRead t .mrMac 0 4 = r.mac ∧ t.rxfLen.toNat = r.len ∧
      memRead t .rxf 0 r.len = r.raw := by
  obtain ⟨-, -, -, hsecure, -, -, -, -, -, -, -, hmacv, -, hmac, hrxfLen, hrxf, -⟩ := h
  exact ⟨hsecure, hmacv, hmac, hrxfLen, hrxf⟩

/-- DECODE leaves the keys and the IV alone, so the MAC is that of the committed frame (41_codec.md R168). -/
theorem receivedMac_commit {b : Bytes} {r : Frame} (hr : decodeFrame b = .ok r) (hb : b.length < 4294967296) (u : State) :
    receivedMac (complete .ok (commit r u)) = sessionMac u (beforeMac r.raw) := by
  have hsame := sameBytesBut_congr (u := complete .ok (commit r u)) (sameBytesBut_commit hr u) rfl rfl
  obtain ⟨-, -, -, hrxfLen, hrxf⟩ := verifyMac_reads (bankHolds_complete (bankHolds_commit hr hb u) .ok)
  rw [receivedMac, hrxfLen, ← take_memRead _ _ _ (Nat.sub_le r.len 6), hrxf, ← (decodeFrame_sound hr).raw, sessionMac,
    keyBytes_sameBytesBut hsame (by decide), keyBytes_sameBytesBut hsame (by decide),
    keyBytes_sameBytesBut hsame (by decide)]
  rfl

/-- Settles O42: the receiver computes the MAC over the same bytes, under the same keys and IV. -/
theorem macAgreement : Obligations.MacAgreement := by
  intro s t u hc hx herr hopb hkey hiv hmac1 hmac2 hivc
  obtain ⟨f, hb, hf, rfl⟩ := genMac_ok hx herr
  obtain ⟨htxf, -, hlast⟩ := memRead_macedFrame hc hf
  rw [beforeMac_encodeMt hf hb] at htxf hlast
  obtain ⟨hmacLen, -⟩ := length_sessionMac s (mtFront s)
  have hopb : opbOperand u = withCrc (mtFront s ++ (sessionMac s (mtFront s)).1) := by
    rw [hopb, ← htxf, txfFrame, memRead_complete, complete_txfLen, txfFrame]
  obtain ⟨r, hdecode, hscb, hmacv, hmac, hraw⟩ := decodeFrame_maced hc hf hb hmacLen
  rw [← hopb] at hdecode
  have hlen : (opbOperand u).length < 4294967296 := by
    rw [length_opbOperand]
    exact u.opbLen.isLt.trans (by decide)
  have hsender : sessionMac u (mtFront s) = sessionMac s (mtFront s) := by
    rw [sessionMac, hmac1, hmac2, hivc, sessionMac]
  have hreceived : receivedMac (complete .ok (commit r u)) = sessionMac s (mtFront s) := by
    rw [receivedMac_commit hdecode hlen, hraw, beforeMac_withCrc _ hmacLen, hsender]
  obtain ⟨hbankScb, hbankMacv, hmrMac, -⟩ := verifyMac_reads (bankHolds_complete (bankHolds_commit hdecode hlen u) .ok)
  have hsec : ¬ ((complete .ok (commit r u)).mr.secure = 0#1 ∨ (complete .ok (commit r u)).mr.macv = 0#1) := by
    rw [hbankScb, hbankMacv, hscb, hmacv]
    decide
  obtain ⟨w, hverify, ⟨hcode, -⟩, hmacOk, hivcW, -⟩ :=
    verifyMac_of_match (s := complete .ok (commit r u)) (commit_status_mrValid r u) hsec
      ((commit_status_skV r u).trans hkey) ((commit_status_ivcV r u).trans hiv) (by rw [hreceived, hmrMac, hmac])
  refine ⟨_, w, exec_decode_of_ok hdecode, rfl, hverify, hcode, hmacOk, ?_⟩
  rw [hivcW, hreceived, keyBytes_complete, hlast]

end Sys2Proof.Machine
end

section
/-! SUPPORT. What one stretch of SEND or of RECEIVE does (44_messenger.md R245, R250): the call in flight selects the
stretch, and the oldest answer selects its branch. -/

namespace Sys2Proof.Machine

open Sys2Proof

/-! ### The stretch of the call in flight -/

theorem exec_send_of_none {s : State} (hc : s.call = .none) : exec .send s = .next (sendStart s) := by
  simp only [exec, execSend, hc]

theorem exec_send_of_transmit {s : State} {f : Bytes} (hc : s.call = .transmit f) :
    exec .send s = .next (sendAnswer s) := by
  simp only [exec, execSend, hc]

theorem exec_receive_of_none {s : State} (hc : s.call = .none) : exec .receive s = .next (receiveStart s) := by
  simp only [exec, execReceive, hc]

theorem exec_receive_of_receive {s : State} (hc : s.call = .receive) :
    exec .receive s = .next (receiveAnswer s) := by
  simp only [exec, execReceive, hc]

theorem exec_receive_of_reset {s : State} (hc : s.call = .reset) : exec .receive s = .next (resetAnswer s) := by
  simp only [exec, execReceive, hc]

/-! ### The answers -/

theorem receiveAnswer_of_nil {s : State} (hq : s.env.receiveQ = []) : receiveAnswer s = s := by
  simp only [receiveAnswer, hq]

theorem receiveAnswer_of_error {s : State} {rest : List ReceiveAnswer} (hq : s.env.receiveQ = .receiveError :: rest) :
    receiveAnswer s = complete .receiveError (terminal (received s rest) .failed) := by
  simp only [receiveAnswer, hq]

section Bytes

variable {s : State} {r : Bytes} {rest : List ReceiveAnswer} (hq : s.env.receiveQ = .bytes r :: rest)
include hq

theorem receiveAnswer_of_overflow (h : s.cfg.accCap < s.accLen.toNat + r.length) :
    receiveAnswer s = complete .accumulatorOverflow (terminal (received s rest) .failed) := by
  simp only [receiveAnswer, hq, if_pos h]

theorem receiveAnswer_of_fit (h : s.accLen.toNat + r.length ≤ s.cfg.accCap) :
    receiveAnswer s = receiveDecode (accAppend (received s rest) r) := by
  simp only [receiveAnswer, hq, if_neg (Nat.not_lt.mpr h)]

end Bytes

/-! ### What was received, decoded -/

theorem receiveDecode_of_incomplete {s : State} (h : decodeFrame (accBytes s) = .error .incomplete) :
    receiveDecode s = receiveTurn s := by
  simp only [receiveDecode, h]

theorem receiveDecode_of_error {s : State} {e : Code} (h : decodeFrame (accBytes s) = .error e) (he : e ≠ .incomplete) :
    receiveDecode s = complete e (terminal s .failed) := by
  rcases receiveDecode_cases s with ⟨h', -⟩ | ⟨e', -, h', heq⟩ | ⟨f, h', -⟩ <;> rw [h] at h' <;> cases h'
  · exact absurd rfl he
  · exact heq

theorem receiveDecode_of_ok {s : State} {f : Frame} (h : decodeFrame (accBytes s) = .ok f) :
    receiveDecode s = complete .ok (terminal (commit f s) .complete) := by
  simp only [receiveDecode, h]

/-- Under legal parameters the accumulator has room for its own cells alone, so an answer that fits is appended. -/
theorem accBytes_received {s : State} (hc : s.cfg.Legal) {r : Bytes} (rest : List ReceiveAnswer)
    (h : s.accLen.toNat + r.length ≤ s.cfg.accCap) :
    accBytes (accAppend (received s rest) r) = accBytes s ++ r :=
  accBytes_accAppend (received s rest) r (h.trans_lt (cap_lt_span hc .acc))

/-! ### Bytes kept -/

theorem sameBytesBut_accClear {bs : List Buf} {s t : State} (h : SameBytesBut bs s t) (hb : Buf.acc ∈ bs) :
    SameBytesBut bs s (accClear t) :=
  sameBytesBut_congr (sameBytesBut_setBuffer h hb []) rfl rfl

/-- An append that fits stays inside ACC. -/
theorem sameBytesBut_received {s : State} (hc : s.cfg.Legal) {r : Bytes} (rest : List ReceiveAnswer)
    (h : s.accLen.toNat + r.length ≤ s.cfg.accCap) : SameBytesBut [.acc] s (accAppend (received s rest) r) :=
  sameBytesBut_congr (t := memWrite s .acc s.accLen.toNat r)
    (sameBytesBut_memWrite (sameBytesBut_of_mem rfl rfl) (by simp) (h.trans (cap_lt_span hc .acc).le)) rfl rfl

end Sys2Proof.Machine
end

section
/-! SUPPORT. SEND (44_messenger.md R245): frame assembly does not look at MSTATE, and the answer to `Tx.transmit`. -/

namespace Sys2Proof.Machine

open Sys2Proof

/-! ### Frame assembly -/

section MState

variable (s : State) (m : MState)

theorem encodeMt_setMState : encodeMt (setMState s m) = encodeMt s := rfl

theorem encodeBody_setMState : encodeBody (setMState s m) = (encodeBody s).map (setMState · m) := by
  simp only [encodeBody, encodeMt_setMState]
  cases encodeMt s <;> rfl

theorem genMacBody_setMState : genMacBody (setMState s m) = (genMacBody s).map (setMState · m) := by
  have hm : mtMacBearing (setMState s m) = mtMacBearing s := rfl
  simp only [genMacBody, encodeMt_setMState, hm, setMState_status_skV, setMState_status_ivcV,
    apply_ite (Except.map (setMState · m))]
  cases encodeMt s <;> rfl

/-- MSTATE is neither read nor written by the assembly of the frame. -/
theorem sendBody_setMState : sendBody (setMState s m) = (sendBody s).map (setMState · m) := by
  have hp : sendMacPath (setMState s m) = sendMacPath s := rfl
  rw [sendBody, sendBody, hp, encodeBody_setMState, genMacBody_setMState]
  split <;> rfl

end MState

/-- The MAC path in the registers that decide it (44_messenger.md R245). -/
theorem sendMacPath_iff (s : State) :
    sendMacPath s = true ↔ s.ctrl.getLsbD 1 = true ∧ s.mt.secure = 1#1 ∧ 0x14 < s.mt.sbtype.toNat := by
  rw [sendMacPath, Bool.and_eq_true, mtMacBearing_iff, ctrlScActive]

/-- The operation whose body SEND runs ends as that body does. -/
theorem exec_of_sendBody {s : State} {i : Instr}
    (hi : i = if s.ctrl.getLsbD 1 = true ∧ s.mt.secure = 1#1 ∧ 0x14 < s.mt.sbtype.toNat then .genMac else .encode) :
    exec i s = .next (finish s (sendBody s)) := by
  subst hi
  rw [sendBody]
  by_cases hp : sendMacPath s = true
  · rw [if_pos ((sendMacPath_iff s).mp hp), if_pos hp]
    rfl
  · rw [if_neg (mt (sendMacPath_iff s).mpr hp), if_neg hp]
    rfl

theorem sendStart_of_error {s : State} {e : Code} (hm : s.status.mstate ≠ .awaitingResponse)
    (h : sendBody s = .error e) : sendStart s = complete e (setMState s .failed) := by
  rw [sendStart, if_neg hm, sendBody_setMState, h]
  rfl

theorem sendStart_of_ok {s u : State} (hm : s.status.mstate ≠ .awaitingResponse) (h : sendBody s = .ok u) :
    sendStart s = setCall (setMState u .sending) (.transmit (txfFrame u)) := by
  rw [sendStart, if_neg hm, sendBody_setMState, h]
  rfl

theorem sendBody_error_ne_ok {s : State} {e : Code} (h : sendBody s = .error e) : e ≠ .ok := by
  rintro rfl
  exact absurd (sendBody_error h) (by decide)

/-- Frame assembly leaves the completion registers to the end of SEND. -/
theorem sendBody_completion {s u : State} (h : sendBody s = .ok u) : u.err = s.err ∧ u.errOp = s.errOp ∧
    u.status.errf = s.status.errf ∧ u.status.done = s.status.done ∧ u.status.busy = s.status.busy :=
  within_sendBody h .completion (by simp)

/-- Settles O44: SEND runs the body of the operation of its path, which ends as that operation does. -/
theorem sendAssembles : Obligations.SendAssembles := by
  intro s i hc hm hi
  refine ⟨_, _, exec_of_sendBody hi, exec_send_of_none hc, ?_⟩
  cases h : sendBody s with
  | error e =>
    rw [sendStart_of_error hm h]
    exact ⟨fun _ => rfl, fun herr => absurd (complete_err_eq_zero.mp herr) (sendBody_error_ne_ok h)⟩
  | ok u =>
    obtain ⟨herr, herrOp, herrf, hdone, hbusy⟩ := sendBody_completion h
    rw [sendStart_of_ok hm h, ← herr, ← herrOp, ← herrf, ← hdone, ← hbusy]
    exact ⟨fun hne => absurd rfl hne, fun _ => rfl⟩

/-- Settles O45: each answer by its branch. -/
theorem sendAnswered : Obligations.SendAnswered := by
  intro s f rest hc
  rw [exec_send_of_transmit hc, sendAnswer]
  refine ⟨fun hq => ?_, fun hq => ?_, fun hq => ?_⟩ <;> rw [hq] <;> rfl

end Sys2Proof.Machine
end

section
/-! SUPPORT. RECEIVE (44_messenger.md R250 to R255): its first turn, each answer to `Tx.receive` and the answer to
`Tx.reset`; and MCLEAR (R258). -/

namespace Sys2Proof.Machine

open Sys2Proof

/-! ### The turn of the loop -/

theorem receiveTurn_of_deadline {s : State} (h : s.dl.toNat ≤ elapsed s.cfg (nextNow s) s.t0) :
    receiveTurn s = setCall (terminal (sampled s) .timedOut) .reset := if_pos h

theorem receiveTurn_of_time_left {s : State} (h : ¬ s.dl.toNat ≤ elapsed s.cfg (nextNow s) s.t0) :
    receiveTurn s = setCall (sampled s) .receive := if_neg h

theorem receiveStart_of_awaiting {s : State} (h : s.status.mstate = .awaitingResponse) :
    receiveStart s = receiveTurn (entered s) := if_neg (not_not.mpr h)

/-- A turn of the loop writes no byte outside ACC. -/
theorem sameBytesBut_receiveTurn {s t : State} (h : SameBytesBut [.acc] s t) : SameBytesBut [.acc] s (receiveTurn t) := by
  intro b hb
  exact sameBytes_trans (h b hb) (sameBytes_of_within (within_receiveTurn t) (by simpa using hb) (by simp))

/-- A turn of the loop writes no register but those that `undoCycle` takes back. -/
theorem undoCycle_receiveTurn (s u : State) : undoCycle s { receiveTurn u with mem := s.mem } =
    undoCycle s { u with mem := s.mem } := by
  rcases receiveTurn_cases u with ⟨-, he⟩ | ⟨-, he⟩ <;> rw [he] <;> rfl

/-- Settles O46: RECEIVE enters its loop and takes one turn of it. -/
theorem receiveStarts : Obligations.ReceiveStarts := by
  rintro s s1 s2 hc hm rfl rfl
  refine ⟨_, exec_receive_of_none hc, ?_⟩
  rw [receiveStart_of_awaiting hm]
  have hbytes : SameBytesBut [.acc] s (receiveTurn (entered s)) :=
    sameBytesBut_receiveTurn (sameBytesBut_of_mem rfl rfl)
  split_ifs with hdl
  · rw [receiveTurn_of_deadline (s := entered s) hdl] at hbytes ⊢
    exact ⟨rfl, rfl, rfl, rfl, rfl, ⟨rfl, rfl, rfl⟩, hbytes, by simp [undoCycle, terminal]⟩
  · rw [receiveTurn_of_time_left (s := entered s) hdl] at hbytes ⊢
    exact ⟨rfl, rfl, rfl, rfl, rfl, ⟨rfl, hm, rfl, sameBytes_of_mem rfl rfl⟩, hbytes, by simp [undoCycle]⟩

/-! ### An answer that ends the cycle -/

/-- A cycle that fails with the accumulator in whatever state the answer left it. -/
theorem cycleFails_terminal (o : Code) {s : State} {rest : List ReceiveAnswer} (m : Memory) (n : BitVec 32)
    (h : SameBytesBut [.acc] s { received s rest with mem := m, accLen := n }) :
    CycleFails o rest s (complete o (terminal { received s rest with mem := m, accLen := n } .failed)) :=
  ⟨completed_complete rfl, rfl, rfl, rfl, rfl, rfl, rfl,
    sameBytesBut_congr (sameBytesBut_accClear h (by simp)) rfl rfl, by simp [undoCompletion, undoCycle, terminal]⟩

theorem cycleFails_received (o : Code) (s : State) (rest : List ReceiveAnswer) :
    CycleFails o rest s (complete o (terminal (received s rest) .failed)) :=
  cycleFails_terminal o s.mem s.accLen (sameBytesBut_of_mem rfl rfl)

/-- Bank MR and its buffers are apart from ACC, and the registers of the bank bound what is read of them. -/
theorem bankHolds_of_sameBytesBut {f : Frame} {s t : State} (h : BankHolds f s) (hb : SameBytesBut [.acc] s t)
    (hmr : t.mr = s.mr) (hrxf : t.rxfLen = s.rxfLen) (hcons : t.consumed = s.consumed) : BankHolds f t := by
  have hread {b : Buf} {n : Nat} (hne : b ∉ [Buf.acc]) (hn : n ≤ 65536) : memRead t b 0 n = memRead s b 0 n :=
    memRead_sameBytes (hb b hne) (by unfold bufSpan; omega)
  obtain ⟨hcode, haddr, hseq, hsec, htype, hsblen, hsb, hplen, hpay, hlen, hcrcf, hmacv, hctrl, hmac, hrxfLen, hraw,
    hconsumed⟩ := h
  have hsbBound : f.sbdata.length ≤ 65536 := by have := s.mr.sblen.isLt; omega
  have hpayBound : f.payload.length ≤ 65536 := by have := s.mr.plen.isLt; omega
  have hrawBound : f.len ≤ 65536 := by have := s.rxfLen.isLt; omega
  unfold BankHolds
  rw [hmr, hrxf, hcons, hread (by decide) hsbBound, hread (by decide) hpayBound, hread (by decide) hrawBound,
    hread (by decide) (by decide)]
  exact ⟨hcode, haddr, hseq, hsec, htype, hsblen, hsb, hplen, hpay, hlen, hcrcf, hmacv, hctrl, hmac, hrxfLen, hraw,
    hconsumed⟩

theorem sameBytesBut_terminal (s : State) (m : MState) : SameBytesBut [.acc] s (terminal s m) :=
  sameBytesBut_congr (sameBytesBut_accClear (sameBytesBut_of_mem rfl rfl) (by simp)) rfl rfl

theorem bankHolds_terminal {f : Frame} {s : State} (h : BankHolds f s) (m : MState) : BankHolds f (terminal s m) :=
  bankHolds_of_sameBytesBut h (sameBytesBut_terminal s m) rfl rfl rfl

theorem sameBytesBut_trans {bs bs' cs : List Buf} {s t u : State} (h : SameBytesBut bs s t) (h' : SameBytesBut bs' t u)
    (hbs : ∀ b ∈ bs, b ∈ cs) (hbs' : ∀ b ∈ bs', b ∈ cs) : SameBytesBut cs s u :=
  fun b hb => sameBytes_trans (sameBytesBut_mono h hbs b hb) (sameBytesBut_mono h' hbs' b hb)

/-- `u` with the frame of its accumulator committed and the cycle ended (44_messenger.md R250, R254). -/
abbrev committed (f : Frame) (u : State) : State := complete .ok (terminal (commit f u) .complete)

theorem committed_registers (f : Frame) (u : State) :
    (terminal (commit f u) .complete).curCmd = u.curCmd ∧ (committed f u).status.mstate = .complete ∧
      (committed f u).status.mrValid = true ∧ (committed f u).status.macOk = false ∧ (committed f u).accLen = 0#32 ∧
      (committed f u).call = u.call ∧ (committed f u).env = u.env ∧ (committed f u).t0 = u.t0 ∧
      (committed f u).dl = u.dl := by
  simp [committed, terminal]

section Complete

variable {s : State} {f : Frame} {r : Bytes} {rest : List ReceiveAnswer} (hc : s.cfg.Legal)
  (hfit : s.accLen.toNat + r.length ≤ s.cfg.accCap) (hf : decodeFrame (accBytes s ++ r) = .ok f)
include hc hfit hf

theorem bankHolds_committed : BankHolds f (committed f (accAppend (received s rest) r)) := by
  have hlen : (accBytes s ++ r).length < 4294967296 := by
    have hspan : s.cfg.accCap < 4294967296 := cap_lt_span hc .acc
    rw [List.length_append, length_accBytes]
    omega
  exact bankHolds_complete (bankHolds_terminal (bankHolds_commit hf hlen _) _) _

theorem sameBytesBut_committed : SameBytesBut [.mrSbdata, .mrPayload, .mrMac, .rxf, .acc] s
    (committed f (accAppend (received s rest) r)) := by
  have hcommit := sameBytesBut_trans (cs := [.mrSbdata, .mrPayload, .mrMac, .rxf, .acc])
    (sameBytesBut_received hc rest hfit) (sameBytesBut_commit hf _) (by simp) (by simp)
  exact sameBytesBut_congr (sameBytesBut_trans hcommit (sameBytesBut_terminal _ .complete) (by simp) (by simp)) rfl rfl

end Complete

/-- What the cycle that ends with a frame writes is bank MR, its flags and buffers, and what every cycle writes. -/
theorem undo_committed (f : Frame) (s : State) (r : Bytes) (rest : List ReceiveAnswer) :
    undoCompletion s (undoDecode s (undoCycle s
      { committed f (accAppend (received s rest) r) with mem := s.mem })) = s := by
  simp [undoCompletion, undoDecode, undoCycle, terminal]

/-- Settles O47: each answer by its branch; what follows a decode error or a decoded frame is the terminal transition
from the accumulator as appended. -/
theorem receiveEnds : Obligations.ReceiveEnds := by
  intro s rest hc hcall
  rw [exec_receive_of_receive hcall]
  refine ⟨fun hq => ?_, fun r hq => ⟨fun hover => ?_, fun hfit => ?_⟩⟩
  · exact ⟨_, rfl, receiveAnswer_of_error hq ▸ cycleFails_received _ s rest⟩
  · exact ⟨_, rfl, receiveAnswer_of_overflow hq hover ▸ cycleFails_received _ s rest⟩
  · rw [receiveAnswer_of_fit hq hfit]
    have hbytes := accBytes_received hc rest hfit
    refine ⟨fun e he hinc => ?_, fun f hf => ?_⟩
    · rw [receiveDecode_of_error (hbytes ▸ he) hinc]
      exact ⟨_, rfl, cycleFails_terminal e _ _ (sameBytesBut_received hc rest hfit)⟩
    · rw [receiveDecode_of_ok (hbytes ▸ hf)]
      obtain ⟨hcmd, hmstate, hvalid, hmac, hacc, hnone, henv, ht0, hdl⟩ :=
        committed_registers f (accAppend (received s rest) r)
      exact ⟨_, rfl, completed_complete hcmd, hmstate, hvalid, hmac, hacc, hnone, henv, ht0, hdl,
        bankHolds_committed hc hfit hf, sameBytesBut_committed hc hfit hf, undo_committed f s r rest⟩

/-! ### An answer after which the loop turns -/

/-- Settles O48: the answer is appended and the loop takes one turn. -/
theorem receiveAccumulates : Obligations.ReceiveAccumulates := by
  intro s s1 r rest hc hcall
  rw [exec_receive_of_receive hcall]
  refine ⟨fun hq => by rw [receiveAnswer_of_nil hq], ?_⟩
  rintro hq hfit hinc rfl
  have hacc := accBytes_received hc rest hfit
  have hbytes := sameBytesBut_receiveTurn (sameBytesBut_received hc rest hfit)
  have hundo : undoCycle s { receiveTurn (accAppend (received s rest) r) with mem := s.mem } = s :=
    undoCycle_receiveTurn s _
  rw [receiveAnswer_of_fit hq hfit, receiveDecode_of_incomplete (hacc ▸ hinc)]
  refine ⟨_, rfl, ?_⟩
  split_ifs with hdl
  · rw [receiveTurn_of_deadline (s := accAppend (received s rest) r) hdl] at hbytes hundo ⊢
    exact ⟨rfl, rfl, rfl, ⟨rfl, rfl, rfl⟩, hbytes, hundo⟩
  · rw [receiveTurn_of_time_left (s := accAppend (received s rest) r) hdl] at hbytes hundo ⊢
    have hlen : (accAppend (received s rest) r).accLen.toNat = s.accLen.toNat + r.length := by
      rw [← length_accBytes, hacc, List.length_append, length_accBytes]
    exact ⟨rfl, rfl, rfl, ⟨rfl, rfl, hacc, hlen⟩, hbytes, hundo⟩

/-! ### After the timeout -/

/-- Settles O50: each answer by its branch. -/
theorem resetAnswered : Obligations.ResetAnswered := by
  intro s rest hc
  rw [exec_receive_of_reset hc, resetAnswer]
  refine ⟨fun hq => ?_, fun hq => ?_, fun hq => ?_⟩ <;> rw [hq] <;> rfl

/-! ### MCLEAR -/

/-- Settles O52: MCLEAR has one case, whose only write to memory empties ACC. -/
theorem mclearReturnsToIdle : Obligations.MclearReturnsToIdle := by
  intro s
  have hx := execMclear_cases s
  exact ⟨_, hx, completed_complete rfl, rfl, rfl, rfl, rfl, sameBytesBut_of_footprint rfl hx (by simp),
    by simp [undoCompletion]⟩

end Sys2Proof.Machine
end

section
/-! SUPPORT. The states of the messenger over a step (44_messenger.md R240, R241, R252): who moves MSTATE, along which
arrow, and when `Tx.reset` is called. -/

namespace Sys2Proof.Machine

open Sys2Proof

/-! ### Instructions that leave the messenger alone -/

theorem exec_keeps_messenger {i : Instr} {s t : State} (hs : i ≠ .send) (hr : i ≠ .receive) (hm : i ≠ .mclear)
    (h : exec i s = .next t) : t.status.mstate = s.status.mstate ∧ t.call = s.call :=
  exec_within_footprint i s t h .messenger (messenger_not_written hs hr hm)

theorem transaction_keeps_messenger {w : BitVec 106} {s t : State} (h : exec (decodeTransaction w) s = .next t) :
    t.status.mstate = s.status.mstate ∧ t.call = s.call :=
  within_transaction (isOperation_decodeTransaction w) t h .messenger (by simp)

/-- Settles O51: the refusal comes first in SEND and in RECEIVE, and the other footprints leave the messenger out. -/
theorem illegalStateRefused : Obligations.IllegalStateRefused := by
  refine ⟨fun s hc => ⟨fun hm => ?_, fun hm => ?_⟩, fun i s t hs hr hm h => ?_⟩
  · exact raises_of_exec ((exec_send_of_none hc).trans (congrArg _ (if_pos hm)))
  · exact raises_of_exec ((exec_receive_of_none hc).trans (congrArg _ (if_pos hm)))
  · obtain ⟨hmstate, hcall⟩ := exec_keeps_messenger hs hr hm h
    exact ⟨hmstate, hcall, exec_within_footprint i s t h .accLen (acc_not_written hr hm _ (by simp))⟩

/-! ### The call of `Tx.reset` -/

/-- The sampled `NOW` is at least DL ticks past T0, and RECEIVE has timed out (44_messenger.md R252). -/
def TimedOutBy (t : State) : Prop := t.status.mstate = .timedOut ∧ t.dl.toNat ≤ elapsed t.cfg t.env.now t.t0

theorem receiveTurn_reset {s : State} (h : (receiveTurn s).call = .reset) : TimedOutBy (receiveTurn s) := by
  by_cases hdl : s.dl.toNat ≤ elapsed s.cfg (nextNow s) s.t0
  · rw [receiveTurn_of_deadline hdl]
    exact ⟨rfl, hdl⟩
  · rw [receiveTurn_of_time_left hdl] at h
    cases h

theorem receiveStart_reset {s : State} (h : (receiveStart s).call = .reset) :
    s.call = .reset ∨ TimedOutBy (receiveStart s) := by
  rcases receiveStart_cases s with ⟨he, -⟩ | ⟨-, he⟩ <;> rw [he] at h ⊢
  · exact .inl h
  · exact .inr (receiveTurn_reset h)

theorem receiveDecode_reset {s : State} (h : (receiveDecode s).call = .reset) :
    s.call = .reset ∨ TimedOutBy (receiveDecode s) := by
  rcases receiveDecode_cases s with ⟨-, he⟩ | ⟨e, -, -, he⟩ | ⟨f, -, he⟩ <;> rw [he] at h ⊢
  · exact .inr (receiveTurn_reset h)
  · exact .inl (by simpa using h)
  · exact .inl (by simpa using h)

theorem receive_reset {s t : State} (h : exec .receive s = .next t) (ht : t.call = .reset) :
    s.call = .reset ∨ TimedOutBy t := by
  rcases execReceive_cases s with ⟨-, he⟩ |
      ⟨-, ⟨-, he⟩ | ⟨rest, -, he⟩ | ⟨r, rest, -, ⟨-, he⟩ | ⟨-, he⟩⟩⟩ |
      ⟨hc, -⟩ | ⟨f, -, he⟩
  case inr.inr.inl => exact .inl hc
  all_goals rw [h] at he; cases he
  · exact receiveStart_reset ht
  · exact .inl ht
  · cases ht
  · cases ht
  · exact (receiveDecode_reset ht).imp_left fun hc => by simp at hc
  · exact .inl ht

theorem send_reset {s t : State} (h : exec .send s = .next t) (ht : t.call = .reset) : s.call = .reset := by
  rcases execSend_cases s with ⟨-, he⟩ | ⟨f, -, ⟨-, he⟩ | ⟨rest, -, he⟩ | ⟨rest, -, he⟩⟩ | ⟨-, he⟩ <;>
    rw [h] at he <;> cases he
  · rcases sendStart_cases s with ⟨he, -⟩ | ⟨-, ⟨e, -, he⟩ | ⟨u, -, he⟩⟩ <;> rw [he] at ht
    · exact ht
    · exact ht
    · cases ht
  · exact ht
  · cases ht
  · cases ht
  · exact ht

/-- Only RECEIVE makes the call, and only at the deadline. -/
theorem exec_reset {i : Instr} {s t : State} (h : exec i s = .next t) (ht : t.call = .reset) :
    s.call = .reset ∨ (i = .receive ∧ TimedOutBy t) := by
  by_cases hr : i = .receive
  · subst hr
    exact (receive_reset h ht).imp_right fun hto => ⟨rfl, hto⟩
  by_cases hs : i = .send
  · subst hs
    exact .inl (send_reset h ht)
  by_cases hm : i = .mclear
  · subst hm
    rw [execMclear_cases] at h
    cases h
    exact .inl (by simpa using ht)
  · obtain ⟨-, hcall⟩ := exec_keeps_messenger hs hr hm h
    exact .inl (hcall ▸ ht)

/-- Settles O49: of all steps, only RECEIVE's turn at the deadline puts the call in flight. -/
theorem resetOnlyAfterDeadline : Obligations.ResetOnlyAfterDeadline := by
  intro s t hstep ht
  rcases step_cases s with ⟨-, he⟩ | ⟨-, -, he⟩ | ⟨hm, hb, ⟨e, -, he⟩ | ⟨i, hd, he⟩⟩ |
    ⟨-, ⟨-, he⟩ | ⟨w, rest, -, he⟩⟩ <;> rw [hstep] at he
  · cases he
    cases ht
  · cases he
    exact .inl ht
  · cases he
    exact .inl ht
  · rcases exec_reset he.symm ht with hc | ⟨rfl, hmstate, hdl⟩
    · exact .inl hc
    · exact .inr ⟨hm, hb, curCmd_of_receive hd, hmstate, hdl⟩
  · cases he
    exact .inl ht
  · obtain ⟨-, hcall⟩ := transaction_keeps_messenger he.symm
    exact .inl (hcall.symm.trans ht)

/-! ### The arrows -/

/-- The arrows of SEND (44_messenger.md R241): its stretch up to the call, and the answer to the call. -/
def SendArrow (s t : State) : Prop :=
  (s.status.mstate ∈ [MState.idle, MState.complete, MState.timedOut, MState.failed] ∧
    ((t.status.mstate = .sending ∧ t.status.busy = true ∧ t.call = .transmit (txfFrame t)) ∨
     (t.status.mstate = .failed ∧ ∃ o, o ∈ [Code.invalidSequenceNumber, .secureBlockTooLarge,
        .invalidSecureBlockType, .invalidLength, .invalidKeyLength, .invalidIVLength] ∧ Completed o s t))) ∨
  (s.status.mstate = .sending ∧
    ((t.status.mstate = .awaitingResponse ∧ Completed .ok s t) ∨
     (t.status.mstate = .failed ∧ Completed .transmitError s t)))

/-- The arrows of RECEIVE (44_messenger.md R241). -/
def ReceiveArrow (s t : State) : Prop :=
  s.status.mstate = .awaitingResponse ∧
    ((t.status.mstate = .complete ∧ Completed .ok s t) ∨
     (t.status.mstate = .failed ∧ ∃ o, o ∈ [Code.invalidStartOfMessage, .invalidLength, .checksumFailed,
        .receiveError, .accumulatorOverflow] ∧ Completed o s t) ∨
     (t.status.mstate = .timedOut ∧ t.status.busy = true ∧ t.call = .reset))

section Arrow

variable {s t : State} (hm : mover s = .sequencer) (hb : s.status.busy = true)
include hm hb

theorem messengerArrow_of_send (hcmd : s.curCmd = 0x000C#16) (h : SendArrow s t) : MessengerArrow s t := by
  rcases h with ⟨hfrom, hto⟩ | ⟨hfrom, hto⟩
  · exact .inr (.inr ⟨hm, hb, .inr (.inl ⟨hcmd, hfrom, hto⟩)⟩)
  · exact .inr (.inr ⟨hm, hb, .inr (.inr (.inl ⟨hcmd, hfrom, hto⟩))⟩)

theorem messengerArrow_of_receive (hcmd : s.curCmd = 0x000D#16) (h : ReceiveArrow s t) : MessengerArrow s t := by
  obtain ⟨hfrom, hto⟩ := h
  exact .inr (.inr ⟨hm, hb, .inr (.inr (.inr ⟨hcmd, hfrom, hto⟩))⟩)

theorem messengerArrow_of_mclear (hcmd : s.curCmd = 0x000E#16) (hidle : t.status.mstate = .idle)
    (hok : Completed .ok s t) : MessengerArrow s t :=
  .inr (.inr ⟨hm, hb, .inl ⟨hcmd, hidle, hok⟩⟩)

end Arrow

/-! ### SEND along its arrows -/

/-- A state SEND may start from (44_messenger.md R240). -/
theorem mem_startStates {m : MState} (hs : m ≠ .sending) (ha : m ≠ .awaitingResponse) :
    m ∈ [MState.idle, MState.complete, MState.timedOut, MState.failed] := by
  cases m <;> simp_all

/-- The frame of the call is the one that stands in TXF. -/
theorem txfFrame_setCall (s : State) (c : TxCall) : txfFrame (setCall s c) = txfFrame s := rfl

theorem sendStart_arrow {s : State} (hb : s.status.busy = true) (hs : s.status.mstate ≠ .sending) :
    (sendStart s).status.mstate = s.status.mstate ∨ SendArrow s (sendStart s) := by
  rcases sendStart_cases s with ⟨he, -⟩ | ⟨hm, ⟨e, herr, he⟩ | ⟨u, hu, he⟩⟩ <;> rw [he]
  · exact .inl rfl
  · exact .inr (.inl ⟨mem_startStates hs hm, .inr ⟨rfl, e, sendBody_error herr, completed_complete rfl⟩⟩)
  · obtain ⟨-, -, -, -, hbusy⟩ := sendBody_completion hu
    obtain ⟨hmstate, -⟩ := within_sendBody hu .messenger (by simp)
    exact .inr (.inl ⟨mem_startStates hs hm, .inl ⟨hmstate, hbusy.trans hb, by rw [txfFrame_setCall]; rfl⟩⟩)

theorem send_arrow {s t : State} (hsound : MessengerSound s) (hb : s.status.busy = true)
    (h : exec .send s = .next t) : t.status.mstate = s.status.mstate ∨ SendArrow s t := by
  rcases execSend_cases s with ⟨hc, he⟩ | ⟨f, hc, ⟨-, he⟩ | ⟨rest, -, he⟩ | ⟨rest, -, he⟩⟩ | ⟨-, he⟩ <;>
    rw [h] at he <;> cases he
  · obtain ⟨hs, -⟩ := hsound.quiet hc
    exact sendStart_arrow hb hs
  · exact .inl rfl
  · obtain ⟨-, hs, -⟩ := hsound.transmit f hc
    exact .inr (.inr ⟨hs, .inl ⟨rfl, completed_complete rfl⟩⟩)
  · obtain ⟨-, hs, -⟩ := hsound.transmit f hc
    exact .inr (.inr ⟨hs, .inr ⟨rfl, completed_complete rfl⟩⟩)
  · exact .inl rfl

/-! ### RECEIVE along its arrows -/

/-- A turn of the loop, begun in `u` inside the RECEIVE that found `s`. -/
theorem receiveTurn_arrow {s u : State} (hb : u.status.busy = true) (hm : s.status.mstate = .awaitingResponse)
    (hu : u.status.mstate = s.status.mstate) :
    (receiveTurn u).status.mstate = s.status.mstate ∨ ReceiveArrow s (receiveTurn u) := by
  rcases receiveTurn_cases u with ⟨-, he⟩ | ⟨-, he⟩ <;> rw [he]
  · exact .inr ⟨hm, .inr (.inr ⟨rfl, hb, rfl⟩)⟩
  · exact .inl hu

theorem receiveStart_arrow {s : State} (hb : s.status.busy = true) :
    (receiveStart s).status.mstate = s.status.mstate ∨ ReceiveArrow s (receiveStart s) := by
  rcases receiveStart_cases s with ⟨he, -⟩ | ⟨hm, he⟩ <;> rw [he]
  · exact .inl rfl
  · exact receiveTurn_arrow hb hm rfl

/-- The errors of `decode` that end a cycle: AddressOutOfRange is none of them (41_codec.md R161). -/
theorem decodeFrame_final_error {b : Bytes} {e : Code} (h : decodeFrame b = .error e) (he : e ≠ .incomplete) :
    e ∈ [Code.invalidStartOfMessage, .invalidLength, .checksumFailed, .receiveError, .accumulatorOverflow] := by
  have hmem := decodeFrame_error h
  simp only [List.mem_cons, List.not_mem_nil, or_false] at hmem ⊢
  tauto

theorem receiveDecode_arrow {s u : State} (hb : u.status.busy = true) (hm : s.status.mstate = .awaitingResponse)
    (hu : u.status.mstate = s.status.mstate) (hcmd : u.curCmd = s.curCmd) :
    (receiveDecode u).status.mstate = s.status.mstate ∨ ReceiveArrow s (receiveDecode u) := by
  rcases receiveDecode_cases u with ⟨-, he⟩ | ⟨e, hinc, herr, he⟩ | ⟨f, -, he⟩ <;> rw [he]
  · exact receiveTurn_arrow hb hm hu
  · exact .inr ⟨hm, .inr (.inl ⟨rfl, e, decodeFrame_final_error herr hinc, completed_complete hcmd⟩)⟩
  · exact .inr ⟨hm, .inl ⟨rfl, completed_complete (by simpa using hcmd)⟩⟩

theorem receive_arrow {s t : State} (hsound : MessengerSound s) (hb : s.status.busy = true)
    (h : exec .receive s = .next t) : t.status.mstate = s.status.mstate ∨ ReceiveArrow s t := by
  rcases execReceive_cases s with ⟨-, he⟩ |
      ⟨hc, ⟨-, he⟩ | ⟨rest, -, he⟩ | ⟨r, rest, -, ⟨-, he⟩ | ⟨-, he⟩⟩⟩ |
      ⟨-, ⟨-, he⟩ | ⟨rest, -, he⟩ | ⟨rest, -, he⟩⟩ | ⟨f, -, he⟩ <;> rw [h] at he <;> cases he
  · exact receiveStart_arrow hb
  · exact .inl rfl
  · obtain ⟨-, hm, -⟩ := hsound.receive hc
    exact .inr ⟨hm, .inr (.inl ⟨rfl, .receiveError, by simp, completed_complete rfl⟩)⟩
  · obtain ⟨-, hm, -⟩ := hsound.receive hc
    exact .inr ⟨hm, .inr (.inl ⟨rfl, .accumulatorOverflow, by simp, completed_complete rfl⟩)⟩
  · obtain ⟨-, hm, -⟩ := hsound.receive hc
    exact receiveDecode_arrow hb hm rfl rfl
  · exact .inl rfl
  · exact .inl rfl
  · exact .inl rfl
  · exact .inl rfl

/-! ### Every step along an arrow -/

theorem curCmd_of_mclear {w : BitVec 16} (hd : decodeCommand w = .ok .mclear) : w = 0x000E#16 := by
  rcases decodeCommand_cases hd with hmem | ⟨-, h⟩ | ⟨-, h⟩
  · simpa using hmem
  · cases h
  · cases h

/-- The sequencer's step takes its operation on `moved s`, which differs from `s` in nothing an arrow looks at. -/
theorem command_arrow {i : Instr} {s t : State} (hsound : MessengerSound s) (hm : mover s = .sequencer)
    (hb : s.status.busy = true) (hd : decodeCommand s.curCmd = .ok i) (h : exec i (moved s) = .next t) :
    MessengerArrow s t := by
  have hmoved : MessengerSound (moved s) := { hsound with }
  by_cases hs : i = .send
  · subst hs
    exact (send_arrow hmoved hb h).elim .inl (messengerArrow_of_send hm hb (curCmd_of_send hd))
  by_cases hr : i = .receive
  · subst hr
    exact (receive_arrow hmoved hb h).elim .inl (messengerArrow_of_receive hm hb (curCmd_of_receive hd))
  by_cases hc : i = .mclear
  · subst hc
    rw [execMclear_cases] at h
    cases h
    exact messengerArrow_of_mclear hm hb (curCmd_of_mclear hd) rfl (completed_complete rfl)
  · obtain ⟨hmstate, -⟩ := exec_keeps_messenger hs hr hc h
    exact .inl hmstate

/-- Settles O53: the reset input goes to Idle, an operation of the messenger goes along its arrows, and every other
step leaves MSTATE alone. -/
theorem messengerArrows : Obligations.MessengerArrows := by
  intro s t hsound hstep
  rcases step_cases s with ⟨hm, he⟩ | ⟨-, -, he⟩ | ⟨hm, hb, ⟨e, -, he⟩ | ⟨i, hd, he⟩⟩ |
    ⟨-, ⟨-, he⟩ | ⟨w, rest, -, he⟩⟩ <;> rw [hstep] at he
  · cases he
    exact .inr (.inl ⟨hm, rfl, rfl⟩)
  · cases he
    exact .inl rfl
  · cases he
    exact .inl rfl
  · exact command_arrow hsound hm hb hd he.symm
  · cases he
    exact .inl rfl
  · obtain ⟨hmstate, -⟩ := transaction_keeps_messenger he.symm
    exact .inl hmstate

end Sys2Proof.Machine
end

section
/-! SUPPORT. The host port, one rule per outcome: what an idle block performs, what every block refuses, and the register
file as a table (45_host_access.md R270 to R277). -/

namespace Sys2Proof.Machine

open Sys2Proof

/-! ### Refused -/

theorem turnedAway_regrd {s : State} {sel : BitVec 8} (h : regValue s sel = none) : TurnedAway (.regrd sel) s := by
  rcases execRegrd_cases sel s with ⟨he, -⟩ | ⟨v, hv, -, -⟩
  · exact turnedAway_of_exec he
  · rw [h] at hv; cases hv

theorem turnedAway_regwr {s : State} {sel : BitVec 8} {v : BitVec 64} (h : regWritten s sel v = none) :
    TurnedAway (.regwr sel v) s := by
  rcases execRegwr_cases sel v s with ⟨he, -⟩ | ⟨-, t, ht, -⟩
  · exact turnedAway_of_exec he
  · rw [h] at ht; cases ht

theorem turnedAway_bufrd {s : State} {sel : BitVec 8} {off : BitVec 32} (h : selRefused s sel off = true) :
    TurnedAway (.bufrd sel off) s := by
  rcases execBufrd_cases sel off s with ⟨he, -⟩ | ⟨-, -, hsel⟩
  · exact turnedAway_of_exec he
  · rw [h] at hsel; cases hsel

theorem turnedAway_bufwr {s : State} {sel : BitVec 8} {off : BitVec 32} {w : BitVec 64}
    (h : selRefused s sel off = true ∨ (selBuf sel).hostWritable = false) : TurnedAway (.bufwr sel off w) s := by
  rcases execBufwr_cases sel off w s with ⟨he, -⟩ | ⟨-, -, hsel, hbuf⟩
  · exact turnedAway_of_exec he
  · rw [hsel, hbuf] at h
    simp at h

/-- While BUSY = 1 every transaction but a REGRD of STATUS is refused (R276). -/
theorem turnedAway_of_busy {s : State} (hb : s.status.busy = true) {i : Instr} (hi : isOperation i = false)
    (hne : i ≠ .regrd 0x01#8) : TurnedAway i s := by
  cases i with
  | regrd sel =>
    rcases execRegrd_cases sel s with ⟨he, -⟩ | ⟨-, -, -, hsel⟩
    · exact turnedAway_of_exec he
    · exact absurd (congrArg Instr.regrd (hsel hb)) hne
  | regwr sel v =>
    rcases execRegwr_cases sel v s with ⟨he, -⟩ | ⟨hidle, -⟩
    · exact turnedAway_of_exec he
    · rw [hb] at hidle; cases hidle
  | bufrd sel off =>
    rcases execBufrd_cases sel off s with ⟨he, -⟩ | ⟨-, hidle, -⟩
    · exact turnedAway_of_exec he
    · rw [hb] at hidle; cases hidle
  | bufwr sel off w =>
    rcases execBufwr_cases sel off w s with ⟨he, -⟩ | ⟨-, hidle, -⟩
    · exact turnedAway_of_exec he
    · rw [hb] at hidle; cases hidle
  | _ => cases hi

/-! ### Buffers -/

/-- R274, R275: SEL bits 7:4 and OFF, as the statements write them. -/
theorem selRefused_iff {s : State} {sel : BitVec 8} {off : BitVec 32} : selRefused s sel off = true ↔
    sel.extractLsb' 4 4 ≠ 0#4 ∨ (bufOfId (sel.extractLsb' 0 4)).cap s.cfg ≤ off.toNat := by
  rw [selRefused, Bool.or_eq_true, bne_iff_ne, decide_eq_true_iff, selBuf]

theorem hostWritable_eq_false_iff (b : Buf) : b.hostWritable = false ↔ b ∉ [Buf.opb, .mtPayload, .mtSbdata] := by
  rw [← hostWritable_iff, Bool.not_eq_true]

/-- The one byte a BUFWR writes, and all others (R275). -/
theorem readByte_memWrite_byte (s : State) (b : Buf) {off : Nat} (ho : off < bufSpan) (x : Byte) :
    readByte (memWrite s b off [x]) b off = x ∧ ∀ b' off', off' < bufSpan → ¬ (b' = b ∧ off' = off) →
      readByte (memWrite s b off [x]) b' off' = readByte s b' off' := by
  refine ⟨readByte_memWrite_inside s b off [x] (i := 0) Nat.one_pos, fun b' off' ho' hne => ?_⟩
  refine readByte_memWrite_outside s [x] ho ho' ?_
  by_cases hb : b' = b
  · have hoff : off' ≠ off := fun he => hne ⟨hb, he⟩
    exact .inr (hoff.lt_or_gt)
  · exact .inl hb

/-! ### Performed -/

section Idle

variable {s : State} (hb : s.status.busy = false)
include hb

theorem exec_regwr_idle {t : State} {sel : BitVec 8} {v : BitVec 64} (ht : regWritten s sel v = some t) :
    exec (.regwr sel v) s = .next { t with rdata := 0#64 } := by
  rcases execRegwr_cases sel v s with ⟨-, hbusy | hnone⟩ | ⟨-, t', ht', he⟩
  · rw [hb] at hbusy; cases hbusy
  · rw [ht] at hnone; cases hnone
  · rw [ht] at ht'; cases ht'; exact he

theorem exec_bufrd_idle {sel : BitVec 8} {off : BitVec 32} (hsel : selRefused s sel off = false) :
    exec (.bufrd sel off) s = .next { s with rdata := (readByte s (selBuf sel) off.toNat).setWidth 64 } := by
  rcases execBufrd_cases sel off s with ⟨-, h⟩ | ⟨he, -, -⟩
  · simp [hb, hsel] at h
  · exact he

theorem exec_bufwr_idle {sel : BitVec 8} {off : BitVec 32} {w : BitVec 64} (hsel : selRefused s sel off = false)
    (hbuf : (selBuf sel).hostWritable = true) :
    exec (.bufwr sel off w) s = .next { memWrite s (selBuf sel) off.toNat [w.setWidth 8] with rdata := 0#64 } := by
  rcases execBufwr_cases sel off w s with ⟨-, h⟩ | ⟨he, -, -, -⟩
  · simp [hb, hsel, hbuf] at h
  · exact he

end Idle

/-! ### The register file as a table -/

/-- The rows of `storedWidth` (10_state.md R21, R48). -/
def storedTable (c : Config) : List (BitVec 8 × Nat) :=
  [(0x05, c.timeW), (0x08, 16), (0x04, 2), (0x10, 8), (0x11, 8), (0x12, 8), (0x13, 1), (0x14, 8), (0x15, 9),
    (0x16, 16), (0x17, 32)]

theorem forall_storedTable {c : Config} {P : BitVec 8 × Nat → Prop} : (∀ p ∈ storedTable c, P p) ↔
    P (0x05, c.timeW) ∧ P (0x08, 16) ∧ P (0x04, 2) ∧ P (0x10, 8) ∧ P (0x11, 8) ∧ P (0x12, 8) ∧ P (0x13, 1) ∧
      P (0x14, 8) ∧ P (0x15, 9) ∧ P (0x16, 16) ∧ P (0x17, 32) := by
  simp only [storedTable, List.forall_mem_cons, List.not_mem_nil, false_implies, implies_true, and_true]

/-- The rows `registerWidth` adds, of CMD and the registers that a REGWR does not store into (10_state.md R30, R48). -/
def otherTable : List (BitVec 8 × Nat) :=
  [(0x00, 16), (0x01, 16), (0x02, 8), (0x03, 16), (0x06, 16), (0x07, 32), (0x09, 16), (0x0A, 32), (0x0B, 16),
    (0x0C, 8), (0x20, 8), (0x21, 8), (0x22, 2), (0x23, 1), (0x24, 8), (0x25, 8), (0x26, 16), (0x27, 16), (0x28, 1),
    (0x29, 1), (0x2A, 8)]

theorem sel_eq_of_toNat {sel : BitVec 8} {k : Nat} (h : sel.toNat = k) : sel = BitVec.ofNat 8 k := by
  rw [← h, BitVec.ofNat_toNat, BitVec.setWidth_eq]

theorem mem_storedTable {c : Config} {sel : BitVec 8} {n : Nat} (h : storedWidth c sel = some n) :
    (sel, n) ∈ storedTable c := by
  unfold storedWidth at h
  split at h
  case h_12 => cases h
  all_goals rename_i e; cases h; rw [sel_eq_of_toNat e]; simp [storedTable]

theorem mem_registerTable {c : Config} {sel : BitVec 8} {n : Nat} (h : registerWidth c sel = some n) :
    (sel, n) ∈ storedTable c ++ otherTable := by
  unfold registerWidth at h
  split at h
  case h_22 => exact List.mem_append_left _ (mem_storedTable h)
  all_goals rename_i e; cases h; rw [sel_eq_of_toNat e]; exact List.mem_append_right _ (by decide)

/-- A number without a width reads as nothing (R274). -/
theorem regValue_of_unimplemented {s : State} {sel : BitVec 8} (h : registerWidth s.cfg sel = none) :
    regValue s sel = none := by
  unfold regValue
  split
  case h_33 => rfl
  all_goals rename_i e; rw [sel_eq_of_toNat e] at h; cases h

/-- CMD, STATUS and the registers that store are all a REGWR can write (R271). -/
theorem regWritten_of_readOnly {s : State} {sel : BitVec 8} (hcmd : sel ≠ 0x00#8) (hstatus : sel ≠ 0x01#8)
    (h : storedWidth s.cfg sel = none) (v : BitVec 64) : regWritten s sel v = none := by
  unfold regWritten
  split
  case h_1 e => exact absurd (sel_eq_of_toNat e) hcmd
  case h_2 e => exact absurd (sel_eq_of_toNat e) hstatus
  case h_14 => rfl
  all_goals rename_i e; rw [sel_eq_of_toNat e] at h; cases h

/-- `registerWidth` takes its default from `storedWidth`. -/
theorem storedWidth_of_unimplemented {c : Config} {sel : BitVec 8} (h : registerWidth c sel = none) :
    storedWidth c sel = none := by
  unfold registerWidth at h
  split at h
  case h_22 => exact h
  all_goals cases h

/-! ### What a register returns -/

/-- RDATA of a register of `w` bits (R272). -/
theorem toNat_setWidth_lt {w : Nat} (x : BitVec w) : (x.setWidth 64).toNat < 2 ^ w := by
  rw [BitVec.toNat_setWidth]
  exact (Nat.mod_le _ _).trans_lt x.isLt

/-- The low `w` bits of WDATA, zero-extended (R272). -/
theorem setWidth_setWidth_eq_mod (v : BitVec 64) (w : Nat) :
    (v.setWidth w).setWidth 64 = BitVec.ofNat 64 (v.toNat % 2 ^ w) :=
  BitVec.eq_of_toNat_eq (by simp only [BitVec.toNat_setWidth, BitVec.toNat_ofNat])

/-- A REGRD of each implemented register returns a value of its width; for DEADLINE that is an invariant
(00_scope.md R12). -/
theorem regValue_lt {s : State} (h : Fits s) :
    ∀ p ∈ storedTable s.cfg ++ otherTable, ∃ x, regValue s p.1 = some x ∧ x.toNat < 2 ^ p.2 := by
  rw [List.forall_mem_append]
  constructor
  · refine forall_storedTable.mpr ⟨⟨_, rfl, h.deadline⟩, ?_⟩
    and_intros <;> exact ⟨_, rfl, toNat_setWidth_lt _⟩
  · refine List.forall_mem_cons.mpr ⟨⟨_, rfl, toNat_setWidth_lt 0#16⟩, ?_⟩
    simp only [List.forall_mem_cons, List.not_mem_nil, false_implies, implies_true, and_true]
    and_intros <;> exact ⟨_, rfl, toNat_setWidth_lt _⟩

/-! ### A REGWR that stores -/

/-- `t` differs from `s` in the registers of the host alone. -/
def StoredOnly (s t : State) : Prop :=
  { t with ctrl := s.ctrl, deadline := s.deadline, opbLen := s.opbLen, mt := s.mt } = s

theorem StoredOnly.status_eq {s t : State} (h : StoredOnly s t) : t.status = s.status := by
  rw [← h]

/-- A register that no REGWR stores into reads nothing that such a REGWR writes. -/
theorem regValue_of_storedOnly {s t : State} (h : StoredOnly s t) {sel : BitVec 8} (hsel : storedWidth s.cfg sel = none) :
    regValue t sel = regValue s sel := by
  rw [← h]
  unfold regValue
  split
  all_goals first | rfl | (rename_i e; rw [sel_eq_of_toNat e] at hsel; cases hsel)

/-- `t` is `s` with the low `n` bits of `v` in register `sel`. -/
structure Stored (s : State) (sel : BitVec 8) (n : Nat) (v : BitVec 64) (t : State) : Prop where
  reads : regValue t sel = some (BitVec.ofNat 64 (v.toNat % 2 ^ n))
  others : ∀ p ∈ storedTable s.cfg, p.1 ≠ sel → regValue t p.1 = regValue s p.1
  only : StoredOnly s t

/-- R271, R272: DEADLINE by its mask, OPB_LEN where R273 does not refuse it, and every other by its width. -/
theorem regWritten_stored {s : State} {v : BitVec 64} : ∀ p ∈ storedTable s.cfg,
    (p.1 = 0x08#8 → v.toNat % 65536 ≤ s.cfg.opbCap) → ∃ t, regWritten s p.1 v = some t ∧ Stored s p.1 p.2 v t := by
  have hlow (w : Nat) := congrArg some (setWidth_setWidth_eq_mod v w)
  refine forall_storedTable.mpr ⟨fun _ => ⟨_, rfl, rfl, ?deadline, rfl⟩,
    fun hcap => ⟨_, if_neg ?cap, hlow 16, ?opbLen, rfl⟩, ?rest⟩
  case cap =>
    rw [BitVec.toNat_setWidth]
    exact Nat.not_lt.mpr (hcap rfl)
  case' rest => and_intros <;> refine fun _ => ⟨_, rfl, hlow _, ?_, rfl⟩
  all_goals
    rw [forall_storedTable]
    and_intros <;> first | exact fun hne => absurd rfl hne | exact fun _ => rfl

theorem Stored.regValue_eq {s t : State} {sel : BitVec 8} {n : Nat} {v : BitVec 64} (h : Stored s sel n v t)
    {sel' : BitVec 8} (hne : sel' ≠ sel) : regValue t sel' = regValue s sel' := by
  cases hw : storedWidth s.cfg sel' with
  | none => exact regValue_of_storedOnly h.only hw
  | some n' => exact h.others _ (mem_storedTable hw) hne

/-- A performed REGWR that stores (R271 to R273). -/
theorem exec_regwr_stored {s : State} (hb : s.status.busy = false) {sel : BitVec 8} {n : Nat}
    (hn : storedWidth s.cfg sel = some n) {v : BitVec 64} (hcap : sel = 0x08#8 → v.toNat % 65536 ≤ s.cfg.opbCap) :
    ∃ t, exec (.regwr sel v) s = .next { t with rdata := 0#64 } ∧ Stored s sel n v t := by
  obtain ⟨t, ht, hstored⟩ := regWritten_stored _ (mem_storedTable hn) hcap
  exact ⟨t, exec_regwr_idle hb ht, hstored⟩

end Sys2Proof.Machine
end

section
/-! SUPPORT. The statements about the host port: registers, buffers, refusals, BUSY and STATUS (45_host_access.md R270 to
R277). -/

namespace Sys2Proof.Machine

open Sys2Proof

/-- Settles O8: what is stored reads back, and each register reads below two to its width. -/
theorem regwrReadsBack : Obligations.RegwrReadsBack := by
  intro s hb
  refine ⟨fun sel v n hn hcap => ?_, fun v => ?_, fun hfits sel n hn => ?_⟩
  · obtain ⟨t, he, hstored⟩ := exec_regwr_stored hb hn hcap
    have hstatus := hstored.only.status_eq
    have hidle : t.status.busy = false := by rw [hstatus, hb]
    exact ⟨_, he, rfl, hstatus, exec_regrd_idle hidle hstored.reads⟩
  · exact ⟨_, exec_regwr_idle hb rfl, BitVec.toNat_setWidth ..⟩
  · obtain ⟨x, hx, hlt⟩ := regValue_lt hfits _ (mem_registerTable hn)
    exact ⟨x, exec_regrd_idle hb hx, hlt⟩

/-- Settles O9: the state after is the one `Stored` describes, with RDATA 0. -/
theorem regwrKeepsOthers : Obligations.RegwrKeepsOthers := by
  intro s t sel v n hb hn hcap h
  obtain ⟨u, he, hstored⟩ := exec_regwr_stored hb hn hcap
  rw [he] at h
  cases h
  exact ⟨fun sel' hne => hstored.regValue_eq hne, congrArg (fun w : State => { w with rdata := s.rdata }) hstored.only⟩

/-- Settles O10: each clause is one reason of R274. -/
theorem refusals : Obligations.Refusals := by
  intro s
  refine ⟨fun sel hnone => ⟨turnedAway_regrd (regValue_of_unimplemented hnone), fun v => ?_⟩,
    fun sel v hcmd hstatus hnone => turnedAway_regwr (regWritten_of_readOnly hcmd hstatus hnone v),
    fun sel off v => ⟨fun h => ?_, fun h => turnedAway_bufwr (.inr ((hostWritable_eq_false_iff _).mpr h))⟩,
    fun v h => turnedAway_regwr (if_pos ?_), fun hb _ => turnedAway_of_busy hb, fun hb => exec_regrd_idle hb rfl⟩
  · have hcmd : sel ≠ 0x00#8 := by rintro rfl; cases hnone
    have hstatus : sel ≠ 0x01#8 := by rintro rfl; cases hnone
    exact turnedAway_regwr (regWritten_of_readOnly hcmd hstatus (storedWidth_of_unimplemented hnone) v)
  · have hsel := selRefused_iff.mpr h
    exact ⟨turnedAway_bufrd hsel, turnedAway_bufwr (.inl hsel)⟩
  · rwa [BitVec.toNat_setWidth]

/-- Settles O13: the location exists or not (R274), and the buffer is the host's to write or not (R275). -/
theorem bufferAccess : Obligations.BufferAccess := by
  rintro s sel off wdata _ rfl
  split
  case isTrue h =>
    rcases h with hb | h
    · exact ⟨turnedAway_of_busy hb rfl Instr.noConfusion, turnedAway_of_busy hb rfl Instr.noConfusion⟩
    · have hsel := selRefused_iff.mpr h
      exact ⟨turnedAway_bufrd hsel, turnedAway_bufwr (.inl hsel)⟩
  case isFalse h =>
    rw [← selRefused_iff, not_or, Bool.not_eq_true, Bool.not_eq_true] at h
    obtain ⟨hb, hsel⟩ := h
    refine ⟨exec_bufrd_idle hb hsel, ?_⟩
    split
    case isTrue hbuf =>
      obtain ⟨hsame, hother⟩ := readByte_memWrite_byte s (selBuf sel) off.isLt (wdata.setWidth 8)
      exact ⟨_, exec_bufwr_idle hb hsel ((hostWritable_iff _).mpr hbuf), rfl, hsame, hother, rfl⟩
    case isFalse hbuf => exact turnedAway_bufwr (.inr ((hostWritable_eq_false_iff _).mpr hbuf))

/-- Settles O7: the refusal of R276, and the one read it lets through. -/
theorem busyRefusal : Obligations.BusyRefusal := by
  intro s hb
  refine ⟨fun _ => turnedAway_of_busy hb, ?_⟩
  rcases execRegrd_cases 0x01#8 s with ⟨-, ⟨-, hne⟩ | hnone⟩ | ⟨v, hv, he, -⟩
  · exact absurd rfl hne
  · cases hnone
  · cases hv
    rw [he, statusRegister_busy hb]

/-- Settles O12: the register file's case for STATUS is `acknowledge`, whose bits are those of WDATA. -/
theorem statusWrite : Obligations.StatusWrite := by
  intro s v hb
  have hdone : (v.setWidth 16).getLsbD 1 = v.getLsbD 1 := by simp
  have hherr : (v.setWidth 16).getLsbD 3 = v.getLsbD 3 := by simp
  refine ⟨_, exec_regwr_idle hb (t := acknowledge s (v.setWidth 16)) rfl, ?_, fun h => ?_⟩
  · simp only [acknowledge, hdone, hherr]
  · simp [irq, h]

end Sys2Proof.Machine
end

section
/-! SUPPORT. The interrupt request (60_exceptions.md R315): what raises it, what lowers it, what leaves it. -/

namespace Sys2Proof.Machine

open Sys2Proof

theorem irq_congr {s t : State} (hdone : t.status.done = s.status.done) (hctrl : t.ctrl = s.ctrl) : irq t = irq s := by
  rw [irq, irq, ctrlIe, ctrlIe, hdone, hctrl]

/-- No operation writes CTRL (10_state.md R52), so a completion leaves DONE = 1 masked by the IE it found. -/
theorem irq_of_completed {i : Instr} {s t : State} {o : Code} (hi : isOperation i = true) (h : exec i s = .next t)
    (hc : Completed o s t) : irq t = ctrlIe s := by
  obtain ⟨-, -, -, -, hctrl, -⟩ := operationsKeepHostState i s t hi h
  obtain ⟨-, -, -, hdone, -⟩ := hc
  rw [irq, ctrlIe, hdone, hctrl, Bool.true_and, ctrlIe]

/-- A REGWR can write DONE or CTRL only through CMD, STATUS or CTRL (45_host_access.md R271). -/
theorem regWritten_keeps_irq {s t : State} {sel : BitVec 8} {v : BitVec 64} (hsel : sel ∉ [0x00#8, 0x01#8, 0x04#8])
    (h : regWritten s sel v = some t) : irq t = irq s := by
  rcases regWritten_cases h with ⟨rfl, -⟩ | ⟨rfl, -⟩ | ⟨rfl, -⟩ | ⟨-, rfl⟩ | ⟨-, -, rfl⟩ | ⟨-, -, b, rfl⟩
  case inl | inr.inl | inr.inr.inl => exact absurd hsel (by decide)
  all_goals exact irq_congr rfl rfl

/-- A transaction that is not a REGWR of CMD, STATUS or CTRL, refused or performed, writes neither DONE nor CTRL. -/
theorem transaction_keeps_irq {i : Instr} {s t : State} (hi : isOperation i = false)
    (hsel : ∀ sel v, i = .regwr sel v → sel ∉ [0x00#8, 0x01#8, 0x04#8]) (h : exec i s = .next t) : irq t = irq s := by
  have of_next {u : State} (he : exec i s = .next u) (hu : irq u = irq s) : irq t = irq s := by
    rw [h] at he; cases he; exact hu
  have of_refuse (he : exec i s = .next (refuse s)) : irq t = irq s := of_next he (irq_congr rfl rfl)
  cases i with
  | regrd sel =>
    rcases execRegrd_cases sel s with ⟨he, -⟩ | ⟨v, -, he, -⟩
    · exact of_refuse he
    · exact of_next he (irq_congr rfl rfl)
  | regwr sel v =>
    rcases execRegwr_cases sel v s with ⟨he, -⟩ | ⟨-, u, hu, he⟩
    · exact of_refuse he
    · have hkeep : irq u = irq s := regWritten_keeps_irq (hsel sel v rfl) hu
      exact of_next he hkeep
  | bufrd sel off =>
    rcases execBufrd_cases sel off s with ⟨he, -⟩ | ⟨he, -⟩
    · exact of_refuse he
    · exact of_next he (irq_congr rfl rfl)
  | bufwr sel off w =>
    rcases execBufwr_cases sel off w s with ⟨he, -⟩ | ⟨he, -⟩
    · exact of_refuse he
    · exact of_next he (irq_congr rfl rfl)
  | _ => cases hi

/-- A REGWR of CTRL masks or unmasks DONE with the IE it writes. -/
theorem irq_after_ctrl_write {s : State} (hb : s.status.busy = false) (v : BitVec 64) :
    ∃ t, exec (.regwr 0x04#8 v) s = .next t ∧ irq t = (s.status.done && v.getLsbD 0) := by
  refine ⟨_, exec_regwr_idle hb (t := { s with ctrl := v.setWidth 2 }) rfl, ?_⟩
  simp [irq, ctrlIe]

/-- A REGWR of STATUS lowers the request with DONE, where bit 1 of the value acknowledges it (R277). -/
theorem irq_after_status_write {s : State} (hb : s.status.busy = false) (v : BitVec 64) :
    ∃ t, exec (.regwr 0x01#8 v) s = .next t ∧ irq t = (irq s && !v.getLsbD 1) := by
  obtain ⟨t, he, rfl, -⟩ := statusWrite s v hb
  exact ⟨_, he, Bool.and_right_comm ..⟩

/-- Settles O15: an operation moves `irq` by completing, and a transaction only by the three writes that reach DONE or
CTRL. -/
theorem interruptRequest : Obligations.InterruptRequest := by
  refine fun s => ⟨rfl, fun i t o => irq_of_completed, fun hb v => ?_, fun i t => transaction_keeps_irq⟩
  exact ⟨irq_after_ctrl_write hb v, irq_after_status_write hb v, _, (commandAccepted s v).1 hb, rfl⟩

end Sys2Proof.Machine
end

section
/-! SUPPORT. The reset input (70_reset_and_hazards.md R340, R341): what is lost of the inputs still to come, and what
the step leaves. -/

namespace Sys2Proof.Machine

open Sys2Proof

/-! ### The inputs once the call in flight is abandoned -/

section
variable (e : Env) (c : TxCall)

@[simp] theorem dropAnswer_sched : (dropAnswer e c).sched = e.sched := by cases c <;> rfl
@[simp] theorem dropAnswer_hostQ : (dropAnswer e c).hostQ = e.hostQ := by cases c <;> rfl
@[simp] theorem dropAnswer_nowQ : (dropAnswer e c).nowQ = e.nowQ := by cases c <;> rfl
@[simp] theorem dropAnswer_now : (dropAnswer e c).now = e.now := by cases c <;> rfl

/-- Only a call of `Tx.transmit` loses an answer of that queue. -/
theorem dropAnswer_transmitQ : (dropAnswer e c).transmitQ =
    match c with
    | .transmit _ => e.transmitQ.tail
    | _ => e.transmitQ := by cases c <;> rfl

theorem dropAnswer_receiveQ :
    (dropAnswer e c).receiveQ = if c = .receive then e.receiveQ.tail else e.receiveQ := by
  cases c <;> rfl

theorem dropAnswer_resetQ :
    (dropAnswer e c).resetQ = if c = .reset then e.resetQ.tail else e.resetQ := by
  cases c <;> rfl

end

/-! ### The step -/

theorem step_of_rst {s : State} (hm : mover s = .rst) : step s = .next (assertRst (moved s)) := by
  simp [step, fetch, hm]

/-- But for the parameters, the inputs and the draw index, `rst` leaves the state of R340. -/
theorem assertRst_eq_reset (s : State) :
    { assertRst s with cfg := Config.standard, env := Env.quiet, freeCount := 0 } = State.reset := rfl

/-- Settles O60: the block's own fields are those of reset, and of the inputs `dropAnswer` takes the one answer to the
call in flight. -/
theorem resetInput : Obligations.ResetInput := by
  intro s hm
  have hblock := assertRst_eq_reset (moved s)
  have henv : (assertRst (moved s)).env = dropAnswer (moved s).env s.call := rfl
  refine ⟨assertRst (moved s), step_of_rst hm, hblock, rfl, rfl, ?_⟩
  rw [henv]
  exact ⟨dropAnswer_sched .., dropAnswer_hostQ .., dropAnswer_nowQ .., dropAnswer_now ..,
    dropAnswer_transmitQ .., dropAnswer_receiveQ .., dropAnswer_resetQ ..⟩

end Sys2Proof.Machine
end
